-- ==== Sys2Proof/Word.lean ====
section
/-! DEFINITION. The unit's word types: the byte of GF(256), of the scratchpad and of a codeword, and the
32-bit word of a scalar register, of a command and of a host register (00_scope.md R10, R12). -/

namespace Sys2Proof

/-- A byte: a GF(256) element, a scratchpad byte, a codeword (00_scope.md R16, 10_state.md R38). -/
abbrev Byte := BitVec 8

/-- A 32-bit word (`XLEN`, 00_scope.md R10): scalar registers, command words, host registers. -/
abbrev Word := BitVec 32

end Sys2Proof
end

