-- ==== Sys2Proof/Syntax.lean ====
section
/-! DEFINITION. The commands of GFRS 1.0: one constructor per row of the opcode map (30_encoding.md R74), and the
assembler's form of a command, a mnemonic with operands as they are written (30_encoding.md R79). -/

namespace Sys2Proof

/-- The number of a scalar register `R0`..`R7` (30_encoding.md R72: all eight values are legal). -/
abbrev SReg := Fin 8

/-- The number of a polynomial register `P0`..`P7` (30_encoding.md R72). -/
abbrev PReg := Fin 8

/-- The 25 commands. Each operand type holds exactly the values its field can encode (30_encoding.md R72, R73), so
every term is an encodable command (DESIGN CHOICE, log entry 15, safe); what an operand's VALUE may be is tested when the
command executes. -/
inductive Instr where
  /-- `NOP` (44_system.md R201) -/
  | nop
  /-- `RESET` (R202) -/
  | reset
  /-- `SETVER imm` (R203) -/
  | setver (imm : BitVec 16)
  /-- `LI rd, imm` (R204) -/
  | li (rd : SReg) (imm : BitVec 16)
  /-- `GFLOG rd, rs` (40_gf_scalar.md R96) -/
  | gflog (rd rs : SReg)
  /-- `GFEXP rd, rs` (R97) -/
  | gfexp (rd rs : SReg)
  /-- `GFMUL rd, rs1, rs2` (R98) -/
  | gfmul (rd rs1 rs2 : SReg)
  /-- `PLD pd, ra, rn` (41_polynomial.md R117) -/
  | pld (pd : PReg) (ra rn : SReg)
  /-- `PST ra, ps, rn` (R118) -/
  | pst (ra : SReg) (ps : PReg) (rn : SReg)
  /-- `PLEN rd, ps` (R119) -/
  | plen (rd : SReg) (ps : PReg)
  /-- `PMUL pd, pa, pb` (R120) -/
  | pmul (pd pa pb : PReg)
  /-- `PMOD pd, pa, pb` (R121) -/
  | pmod (pd pa pb : PReg)
  /-- `PSHL pd, pa, rn` (R122) -/
  | pshl (pd pa : PReg) (rn : SReg)
  /-- `PGEN pd, rn` (R123) -/
  | pgen (pd : PReg) (rn : SReg)
  /-- `BDCLR` (42_rs_codewords.md R142) -/
  | bdclr
  /-- `BDADD count, total, data` (R143) -/
  | bdadd (count total data : Byte)
  /-- `BBCLR` (R144) -/
  | bbclr
  /-- `BBPUT rv, rn` (R145) -/
  | bbput (rv rn : SReg)
  /-- `SEGADD ra, rn` (R150) -/
  | segadd (ra rn : SReg)
  /-- `FRAME` (R152) -/
  | frame
  /-- `BBST ra` (R155) -/
  | bbst (ra : SReg)
  /-- `RSECC rdst, rsrc, rk, re` (R160) -/
  | rsecc (rdst rsrc rk re : SReg)
  /-- `CWGEN rdst, rsrc` (R165) -/
  | cwgen (rdst rsrc : SReg)
  /-- `BCHFMT rd, rl, rm` (43_bch.md R182) -/
  | bchfmt (rd rl rm : SReg)
  /-- `BCHVER rd` (R183) -/
  | bchver (rd : SReg)
  deriving DecidableEq, Repr

/-- The 25 mnemonics of 30_encoding.md R74; there are no pseudo-instructions (R80). -/
inductive Mnemonic where
  | nop | reset | setver | li | gflog | gfexp | gfmul | pld | pst | plen | pmul | pmod | pshl | pgen
  | bdclr | bdadd | bbclr | bbput | segadd | frame | bbst | rsecc | cwgen | bchfmt | bchver
  deriving DecidableEq, Repr

/-- The mnemonic of a command's row. -/
def Instr.mnemonic : Instr → Mnemonic
  | .nop => .nop
  | .reset => .reset
  | .setver _ => .setver
  | .li _ _ => .li
  | .gflog _ _ => .gflog
  | .gfexp _ _ => .gfexp
  | .gfmul _ _ _ => .gfmul
  | .pld _ _ _ => .pld
  | .pst _ _ _ => .pst
  | .plen _ _ => .plen
  | .pmul _ _ _ => .pmul
  | .pmod _ _ _ => .pmod
  | .pshl _ _ _ => .pshl
  | .pgen _ _ => .pgen
  | .bdclr => .bdclr
  | .bdadd _ _ _ => .bdadd
  | .bbclr => .bbclr
  | .bbput _ _ => .bbput
  | .segadd _ _ => .segadd
  | .frame => .frame
  | .bbst _ => .bbst
  | .rsecc _ _ _ _ => .rsecc
  | .cwgen _ _ => .cwgen
  | .bchfmt _ _ _ => .bchfmt
  | .bchver _ => .bchver

/-- An operand as the assembler reads it (30_encoding.md R79): `r<n>`, `p<n>` or a number. -/
inductive Operand where
  | scalar (n : Nat)
  | poly (n : Nat)
  | number (v : Int)
  deriving DecidableEq, Repr

/-- A command as it is written: a mnemonic and its operands in the order of the fields `a`, `b`, `c`, `d`
(30_encoding.md R79). -/
structure AsmCommand where
  mnemonic : Mnemonic
  operands : List Operand
  deriving DecidableEq, Repr

/-- What an operand place accepts (30_encoding.md R73, R74, R79). -/
inductive OperandKind where
  /-- a scalar register number -/
  | scalar
  /-- a polynomial register number -/
  | poly
  /-- `LI`'s immediate, -32768..32767 -/
  | signed16
  /-- `SETVER`'s immediate, 0..65535 -/
  | unsigned16
  /-- `BDADD`'s immediates, 0..255 -/
  | unsigned8
  deriving DecidableEq, Repr

/-- The operand places of each mnemonic, in the order of the roles of 30_encoding.md R74. -/
def Mnemonic.operandKinds : Mnemonic → List OperandKind
  | .nop | .reset | .bdclr | .bbclr | .frame => []
  | .setver => [.unsigned16]
  | .li => [.scalar, .signed16]
  | .gflog | .gfexp | .bbput | .segadd | .cwgen => [.scalar, .scalar]
  | .gfmul | .bchfmt => [.scalar, .scalar, .scalar]
  | .pld => [.poly, .scalar, .scalar]
  | .pst => [.scalar, .poly, .scalar]
  | .plen => [.scalar, .poly]
  | .pmul | .pmod => [.poly, .poly, .poly]
  | .pshl => [.poly, .poly, .scalar]
  | .pgen => [.poly, .scalar]
  | .bdadd => [.unsigned8, .unsigned8, .unsigned8]
  | .bbst | .bchver => [.scalar]
  | .rsecc => [.scalar, .scalar, .scalar, .scalar]

end Sys2Proof
end

