-- ==== Sys2Proof/WellFormed.lean ====
section
/-! DEFINITION. Well-formed commands. An `Instr` is well formed by its operand types: a register number is one of
eight and an immediate has its field's width (30_encoding.md R72, R73). What can be ill formed is a command as it is
WRITTEN, and the assembler checks "only that numbers fit their fields" (30_encoding.md R79) after the number and the
kind of the operands. -/

namespace Sys2Proof

/-- The operand is of the kind the place asks for. -/
def OperandKind.admits : OperandKind → Operand → Bool
  | .scalar, .scalar _ => true
  | .poly, .poly _ => true
  | .signed16, .number _ => true
  | .unsigned16, .number _ => true
  | .unsigned8, .number _ => true
  | _, _ => false

/-- The operand's number fits the field of the place (30_encoding.md R72, R79). -/
def OperandKind.fits : OperandKind → Operand → Bool
  | .scalar, .scalar n => decide (n < 8)
  | .poly, .poly n => decide (n < 8)
  | .signed16, .number v => decide (-32768 ≤ v ∧ v ≤ 32767)
  | .unsigned16, .number v => decide (0 ≤ v ∧ v ≤ 65535)
  | .unsigned8, .number v => decide (0 ≤ v ∧ v ≤ 255)
  | _, _ => false

/-- The command has as many operands as its row has fields. -/
def AsmCommand.countOk (c : AsmCommand) : Bool :=
  c.operands.length == c.mnemonic.operandKinds.length

/-- Each operand is of the kind of its place. -/
def AsmCommand.kindsOk (c : AsmCommand) : Bool :=
  (List.zipWith OperandKind.admits c.mnemonic.operandKinds c.operands).all id

/-- Each number fits its field. -/
def AsmCommand.numbersFit (c : AsmCommand) : Bool :=
  (List.zipWith OperandKind.fits c.mnemonic.operandKinds c.operands).all id

/-- A written command that the assembler accepts (30_encoding.md R79). -/
def AsmCommand.wellFormed (c : AsmCommand) : Bool :=
  c.countOk && c.kindsOk && c.numbersFit

end Sys2Proof
end

