-- ==== Sys2Proof/Decode.lean ====
section
/-! DEFINITION. The decoder of command words, total on all 2^32 of them, the encoder written from the same formats
(30_encoding.md R70 to R78), and the opcode table as data (R75's `match` and `mask`). -/

namespace Sys2Proof

/-- The eight formats of 30_encoding.md R71. -/
inductive Format where
  | Z | R1 | R2 | R3 | R4 | I | V | B
  deriving DecidableEq, Repr

/-- Why a word is no command; either way it raises `IllegalCommand` (30_encoding.md R75). -/
inductive DecodeError where
  /-- bits 31:24 are no opcode of the table (R76) -/
  | reservedOpcode
  /-- the opcode is in the table, a must-be-zero bit is not zero (R77) -/
  | mustBeZero
  deriving DecidableEq, Repr

/-- The must-be-zero mask of a format (30_encoding.md R71). -/
def Format.mbz : Format → Word
  | .Z => 0x00FFFFFF
  | .R1 => 0x001FFFFF
  | .R2 => 0x0003FFFF
  | .R3 => 0x00007FFF
  | .R4 => 0x00000FFF
  | .I => 0x001F0000
  | .V => 0x00FF0000
  | .B => 0x00000000

/-- Bits 31:24, the opcode. -/
def opField (w : Word) : BitVec 8 := w.extractLsb' 24 8
/-- Bits 23:21, field `a`. -/
def aField (w : Word) : Fin 8 := (w.extractLsb' 21 3).toFin
/-- Bits 20:18, field `b`. -/
def bField (w : Word) : Fin 8 := (w.extractLsb' 18 3).toFin
/-- Bits 17:15, field `c`. -/
def cField (w : Word) : Fin 8 := (w.extractLsb' 15 3).toFin
/-- Bits 14:12, field `d`. -/
def dField (w : Word) : Fin 8 := (w.extractLsb' 12 3).toFin
/-- Bits 15:0, `imm16` of the formats I and V. -/
def immField (w : Word) : BitVec 16 := w.extractLsb' 0 16
/-- Bits 23:16, `count` of format B. -/
def countField (w : Word) : Byte := w.extractLsb' 16 8
/-- Bits 15:8, `total` of format B. -/
def totalField (w : Word) : Byte := w.extractLsb' 8 8
/-- Bits 7:0, `data` of format B. -/
def dataField (w : Word) : Byte := w.extractLsb' 0 8

/-- The command of a row, if the word's must-be-zero bits are zero (30_encoding.md R75, R77). -/
def ifMbz (f : Format) (w : Word) (i : Instr) : Except DecodeError Instr :=
  if w &&& f.mbz = 0 then .ok i else .error .mustBeZero

/-- The command a word is, or why it is none (30_encoding.md R74 to R78). It reads the word only (R75). -/
def decode (w : Word) : Except DecodeError Instr :=
  match opField w with
  | 0x00#8 => ifMbz .Z w .nop
  | 0x01#8 => ifMbz .Z w .reset
  | 0x02#8 => ifMbz .V w (.setver (immField w))
  | 0x03#8 => ifMbz .I w (.li (aField w) (immField w))
  | 0x10#8 => ifMbz .R2 w (.gflog (aField w) (bField w))
  | 0x11#8 => ifMbz .R2 w (.gfexp (aField w) (bField w))
  | 0x12#8 => ifMbz .R3 w (.gfmul (aField w) (bField w) (cField w))
  | 0x20#8 => ifMbz .R3 w (.pld (aField w) (bField w) (cField w))
  | 0x21#8 => ifMbz .R3 w (.pst (aField w) (bField w) (cField w))
  | 0x22#8 => ifMbz .R2 w (.plen (aField w) (bField w))
  | 0x23#8 => ifMbz .R3 w (.pmul (aField w) (bField w) (cField w))
  | 0x24#8 => ifMbz .R3 w (.pmod (aField w) (bField w) (cField w))
  | 0x25#8 => ifMbz .R3 w (.pshl (aField w) (bField w) (cField w))
  | 0x26#8 => ifMbz .R2 w (.pgen (aField w) (bField w))
  | 0x30#8 => ifMbz .Z w .bdclr
  | 0x31#8 => ifMbz .B w (.bdadd (countField w) (totalField w) (dataField w))
  | 0x32#8 => ifMbz .Z w .bbclr
  | 0x33#8 => ifMbz .R2 w (.bbput (aField w) (bField w))
  | 0x34#8 => ifMbz .R2 w (.segadd (aField w) (bField w))
  | 0x35#8 => ifMbz .Z w .frame
  | 0x36#8 => ifMbz .R1 w (.bbst (aField w))
  | 0x37#8 => ifMbz .R4 w (.rsecc (aField w) (bField w) (cField w) (dField w))
  | 0x38#8 => ifMbz .R2 w (.cwgen (aField w) (bField w))
  | 0x40#8 => ifMbz .R3 w (.bchfmt (aField w) (bField w) (cField w))
  | 0x41#8 => ifMbz .R1 w (.bchver (aField w))
  | _ => .error .reservedOpcode

/-- The three bits of a register field (30_encoding.md R72). -/
def regBits (r : Fin 8) : BitVec 3 := BitVec.ofFin r

/-- The word of an `R` format with four register fields; the formats Z, R1, R2 and R3 are this one with zeros in
the places that must be zero (30_encoding.md R71). -/
def encR (op : BitVec 8) (a b c d : Fin 8) : Word :=
  op ++ regBits a ++ regBits b ++ regBits c ++ regBits d ++ 0#12

/-- The word of format I (30_encoding.md R71). -/
def encI (op : BitVec 8) (a : Fin 8) (imm : BitVec 16) : Word := op ++ regBits a ++ 0#5 ++ imm

/-- The word of format V (30_encoding.md R71). -/
def encV (op : BitVec 8) (imm : BitVec 16) : Word := op ++ 0#8 ++ imm

/-- The word of format B (30_encoding.md R71). -/
def encB (op : BitVec 8) (count total data : Byte) : Word := op ++ count ++ total ++ data

/-- The word of a command (30_encoding.md R71, R74). -/
def encode : Instr → Word
  | .nop => encR 0x00 0 0 0 0
  | .reset => encR 0x01 0 0 0 0
  | .setver imm => encV 0x02 imm
  | .li rd imm => encI 0x03 rd imm
  | .gflog rd rs => encR 0x10 rd rs 0 0
  | .gfexp rd rs => encR 0x11 rd rs 0 0
  | .gfmul rd rs1 rs2 => encR 0x12 rd rs1 rs2 0
  | .pld pd ra rn => encR 0x20 pd ra rn 0
  | .pst ra ps rn => encR 0x21 ra ps rn 0
  | .plen rd ps => encR 0x22 rd ps 0 0
  | .pmul pd pa pb => encR 0x23 pd pa pb 0
  | .pmod pd pa pb => encR 0x24 pd pa pb 0
  | .pshl pd pa rn => encR 0x25 pd pa rn 0
  | .pgen pd rn => encR 0x26 pd rn 0 0
  | .bdclr => encR 0x30 0 0 0 0
  | .bdadd count total data => encB 0x31 count total data
  | .bbclr => encR 0x32 0 0 0 0
  | .bbput rv rn => encR 0x33 rv rn 0 0
  | .segadd ra rn => encR 0x34 ra rn 0 0
  | .frame => encR 0x35 0 0 0 0
  | .bbst ra => encR 0x36 ra 0 0 0
  | .rsecc rdst rsrc rk re => encR 0x37 rdst rsrc rk re
  | .cwgen rdst rsrc => encR 0x38 rdst rsrc 0 0
  | .bchfmt rd rl rm => encR 0x40 rd rl rm 0
  | .bchver rd => encR 0x41 rd 0 0 0

/-- A row of the opcode table: a word is this command when `w &&& mask = pattern` (30_encoding.md R75). -/
structure OpcodeRow where
  mnemonic : Mnemonic
  pattern : Word
  mask : Word
  deriving DecidableEq, Repr

/-- The 25 rows of spec/opcode_table.json, numbers copied from it. -/
def opcodeTable : List OpcodeRow :=
  [⟨.nop, 0x00000000, 0xFFFFFFFF⟩, ⟨.reset, 0x01000000, 0xFFFFFFFF⟩, ⟨.setver, 0x02000000, 0xFFFF0000⟩,
   ⟨.li, 0x03000000, 0xFF1F0000⟩, ⟨.gflog, 0x10000000, 0xFF03FFFF⟩, ⟨.gfexp, 0x11000000, 0xFF03FFFF⟩,
   ⟨.gfmul, 0x12000000, 0xFF007FFF⟩, ⟨.pld, 0x20000000, 0xFF007FFF⟩, ⟨.pst, 0x21000000, 0xFF007FFF⟩,
   ⟨.plen, 0x22000000, 0xFF03FFFF⟩, ⟨.pmul, 0x23000000, 0xFF007FFF⟩, ⟨.pmod, 0x24000000, 0xFF007FFF⟩,
   ⟨.pshl, 0x25000000, 0xFF007FFF⟩, ⟨.pgen, 0x26000000, 0xFF03FFFF⟩, ⟨.bdclr, 0x30000000, 0xFFFFFFFF⟩,
   ⟨.bdadd, 0x31000000, 0xFF000000⟩, ⟨.bbclr, 0x32000000, 0xFFFFFFFF⟩, ⟨.bbput, 0x33000000, 0xFF03FFFF⟩,
   ⟨.segadd, 0x34000000, 0xFF03FFFF⟩, ⟨.frame, 0x35000000, 0xFFFFFFFF⟩, ⟨.bbst, 0x36000000, 0xFF1FFFFF⟩,
   ⟨.rsecc, 0x37000000, 0xFF000FFF⟩, ⟨.cwgen, 0x38000000, 0xFF03FFFF⟩, ⟨.bchfmt, 0x40000000, 0xFF007FFF⟩,
   ⟨.bchver, 0x41000000, 0xFF1FFFFF⟩]

/-- The word matches the row (30_encoding.md R75). -/
abbrev OpcodeRow.selects (r : OpcodeRow) (w : Word) : Prop := w &&& r.mask = r.pattern

/-- The command the decoder reads from a word whose `nbits` low bits are `w` and whose other bits are zero; a
command is one 32-bit word (30_encoding.md R70). -/
def decodeTableWord (nbits w : Nat) : Option Instr :=
  (decode (BitVec.ofNat 32 (w % 2 ^ nbits))).toOption

end Sys2Proof
end

