-- ==== Sys2Proof/Config.lean ====
section
/-! DEFINITION. The implementation parameters of 00_scope.md R10: the sizes the spec decides, the constants of the
two BCH codes and of the padding, and the record of the parameters a model carries as configuration fields
(00_scope.md R11) together with the two constant tables (10_state.md R20, R21, R22). -/

namespace Sys2Proof

/-- `NR`: number of scalar registers. -/
abbrev Config.nr : Nat := 8
/-- `NP`: number of polynomial registers. -/
abbrev Config.np : Nat := 8
/-- `PMAX`: largest number of coefficients of a polynomial register. -/
abbrev Config.pmax : Nat := 256
/-- `BBMAX`: capacity of the bit buffer in bits. -/
abbrev Config.bbmax : Nat := 32768
/-- `NBMAX`: capacity of the block-descriptor list. -/
abbrev Config.nbmax : Nat := 128
/-- `MSIZE`: size of the scratchpad in bytes. -/
abbrev Config.msize : Nat := 8192
/-- `VMAX`: largest value of VERSION. -/
abbrev Config.vmax : Nat := 40
/-- `G15`: generator of BCH(15,5), decimal (43_bch.md R181). -/
abbrev Config.g15 : Nat := 1335
/-- `G15_MASK`: the format-information mask, decimal (43_bch.md R181). -/
abbrev Config.g15Mask : Nat := 21522
/-- `G18`: generator of BCH(18,6), decimal (43_bch.md R181). -/
abbrev Config.g18 : Nat := 7973
/-- `PAD0`: the first, third, ... pad byte (42_rs_codewords.md R151). -/
abbrev Config.pad0 : Byte := 0xEC
/-- `PAD1`: the second, fourth, ... pad byte (42_rs_codewords.md R151). -/
abbrev Config.pad1 : Byte := 0x11

/-- The parameters 00_scope.md R11 asks a model to carry as configuration fields, and the constant tables built
from them. DESIGN CHOICE (log entry 3, safe): the record is a field of State that no step changes, so that a
statement about every state holds for every choice of them, and one about concrete codeword values has to name the
parameters it assumes. -/
structure Config where
  /-- `FIELD_POLY`: the 9-bit reduction polynomial of GF(256). -/
  fieldPoly : BitVec 9
  /-- `FIELD_GEN`: the primitive element whose powers fill `EXP`. -/
  fieldGen : Byte
  /-- `MODE_BYTE`: the 4-bit byte-mode indicator. -/
  modeByte : BitVec 4
  /-- `EXP`: element `i` is `EXP[i]`, `i` in 0..255 (10_state.md R21). -/
  exp : List Byte
  /-- `LOG`: element `k` is `LOG[k + 1]`, so the domain is 1..255; entry 0 does not exist (10_state.md R22). -/
  log : List Byte
  deriving DecidableEq, Repr

end Sys2Proof
end

