-- ==== Sys2Proof/Machine/State.lean ====
section
/-! DEFINITION. The unit's complete state (10_state.md R20), the names of its fault causes (60_exceptions.md R216), the
accesses the outside makes (20_memory.md R56, 70_reset_and_hazards.md R245), the reasons a step can stop, and the state
after reset (10_state.md R40). -/

namespace Sys2Proof.Machine

/-- A block descriptor `{total, data}`, a pair of bytes (10_state.md R33). -/
structure Block where
  total : Byte
  data : Byte
  deriving DecidableEq, Repr

/-- The six fault causes (60_exceptions.md R216). -/
inductive Cause where
  | capacityExceeded
  | invalidArgument
  | logOfZero
  | illegalCommand
  | addressRange
  | lengthOverflow
  deriving DecidableEq, Repr

/-- How many bits a host access moves. -/
inductive Width where
  | byte | half | word
  deriving DecidableEq, Repr

/-- What a host access writes. -/
inductive Datum where
  | byte (v : BitVec 8)
  | half (v : BitVec 16)
  | word (v : BitVec 32)
  deriving DecidableEq, Repr

/-- A host access as the interface sees it: a read or a write at a byte offset from the unit's base address
(20_memory.md R57). DESIGN CHOICE (log entry 7, safe): the form of an access. -/
inductive BusAccess where
  | read (offset : Nat) (width : Width)
  | write (offset : Nat) (value : Datum)
  deriving DecidableEq, Repr

/-- What can reach the unit from outside: a host access (20_memory.md R56) or the hardware reset input
(70_reset_and_hazards.md R245). DESIGN CHOICE (log entry 6, safe): the reset input is an event of the same sequence. -/
inductive Event where
  | access (a : BusAccess)
  | hardwareReset
  deriving DecidableEq, Repr

/-- What a host read returned (20_memory.md R56). -/
inductive Reply where
  | word (v : Word)
  | byte (v : Byte)
  deriving DecidableEq, Repr

/-- A polynomial: its coefficients, highest degree first (00_scope.md R14). -/
abbrev Poly := List Byte

/-- The scratchpad's listed bytes: addresses strictly rising, no entry equal to what an unlisted address reads as
(`Memory.wf`, Machine/Ops.lean). -/
abbrev Memory := List Host.Cell

/-- The unit's state (10_state.md R20), and beside it two fields of the MODEL, not of the spec: what the host does
next, and what its last access returned. -/
structure State where
  /-- the parameters and the constant tables `EXP` and `LOG` (10_state.md R20, 00_scope.md R11); no step changes them -/
  config : Config
  /-- `R0`..`R7` (10_state.md R26) -/
  regs : Vector Word 8
  /-- `P0`..`P7` (10_state.md R29) -/
  polys : Vector Poly 8
  /-- `BB`, first bit first (10_state.md R31) -/
  bb : List Bool
  /-- `BD`, first block first (10_state.md R33) -/
  bd : List Block
  /-- `VERSION`, 6 bits (10_state.md R35) -/
  version : BitVec 6
  /-- `STATUS.ERR`, the error latch (10_state.md R36). DESIGN CHOICE (log entry 12, safe): STATUS is kept as its two
  fields. -/
  err : Bool
  /-- `STATUS.CAUSE` (10_state.md R36) -/
  cause : BitVec 4
  /-- `EINFO` (10_state.md R37) -/
  einfo : Word
  /-- `M` (10_state.md R38) -/
  mem : Memory
  /-- DESIGN CHOICE (log entry 1, safe): the coming accesses and reset events, oldest first; a step takes the oldest.
  The unit has no program counter (10_state.md R27), so this is where the next command comes from. -/
  pending : List Event
  /-- DESIGN CHOICE (log entry 2, safe): what the host's last access returned, none where it returned nothing. -/
  reply : Option Reply
  deriving DecidableEq, Repr

/-- The reasons the machine stops with a fault. The spec's own faults are none of these: each is latched in STATUS and
the machine goes on (60_exceptions.md R222). -/
inductive Fault where
  /-- Raised by `loadBytes` and `storeBytes` (Machine/Ops.lean) for a scratchpad address at or above MSIZE, which does
  not exist (00_scope.md R13: `MemRead` and `MemWrite` require `addr + n <= MSIZE`). Every command tests its range
  first and latches `AddressRange` instead (20_memory.md R55), so no step answers it from a state that keeps the
  invariant. DESIGN CHOICE (log entry 10). Safe: the machine stops. -/
  | scratchpadHole
  deriving DecidableEq, Repr

/-- The reasons the machine refuses to go on. -/
inductive Refusal where
  /-- Raised by an arm of exec that has no meaning yet, with the mnemonic. Safe: the machine stops. -/
  | notModelled (mnemonic : String)
  /-- Raised by `hostAccess` (Machine/HostPort.lean) for a host access outside the four kinds of 20_memory.md R56, to
  which the spec gives no meaning (R61: "A model gives them no step (it refuses them)"; log entry 7). Safe: the machine stops. -/
  | hostAccessOutsideInterface
  deriving DecidableEq, Repr

/-- What a command or a step answers. -/
abbrev Result := Host.Outcome State Fault Refusal

/-- The state after reset (10_state.md R40): every register 0, every polynomial `[0]`, the bit buffer and the descriptor
list empty, VERSION, STATUS and EINFO 0, every byte of `M` 0, the tables at their content, and no access pending. -/
def State.reset : State where
  config := defaultConfig
  regs := Vector.replicate 8 0
  polys := Vector.replicate 8 [0]
  bb := []
  bd := []
  version := 0
  err := false
  cause := 0
  einfo := 0
  mem := []
  pending := []
  reply := none

end Sys2Proof.Machine
end

