-- ==== Sys2Proof/Machine/Flags.lean ====
section
/-! DEFINITION. The unit has no condition codes, no carry, zero or overflow flag and no predicate (10_state.md R28). The
one record of a command's outcome is STATUS: the error latch and the cause code (10_state.md R36). -/

namespace Sys2Proof.Machine

/-- The code of a cause in `STATUS.CAUSE` (60_exceptions.md R216). -/
def Cause.code : Cause → BitVec 4
  | .capacityExceeded => 1
  | .invalidArgument => 2
  | .logOfZero => 3
  | .illegalCommand => 4
  | .addressRange => 5
  | .lengthOverflow => 6

/-- `STATUS` as the host reads it: ERR in bit 0, CAUSE in bits 7:4, every other bit hardwired 0 (10_state.md R36). -/
def State.status (s : State) : Word := 0#24 ++ s.cause ++ 0#3 ++ BitVec.ofBool s.err

end Sys2Proof.Machine
end

