-- ==== Sys2Proof/Machine/Ops.lean ====
section
/-! DEFINITION. The named operations over the scratchpad and the registers, and the two operations every command ends
with: taking a fault (60_exceptions.md R222) and, beside it, the reset that is the only way out of one (60_exceptions.md
R225). -/

namespace Sys2Proof.Machine

/-- What an address that is not listed reads as: 0, the reset content of every byte of `M` (10_state.md R40). DESIGN CHOICE
(log entry 9): the form of memory; unsafe as to a chip that does not clear its memory at power-on. -/
def Memory.unlisted : Byte := 0

/-- The canonical form: addresses strictly rising, all inside the scratchpad, no entry that an unlisted address would
read the same. -/
abbrev Memory.wf (m : Memory) : Prop :=
  m.Pairwise (fun p q => p.1 < q.1) ∧ ∀ p ∈ m, p.1 < Config.msize ∧ p.2 ≠ Memory.unlisted

/-- `M[a]` (00_scope.md R13). -/
def Memory.read : Memory → Nat → Byte
  | [], _ => Memory.unlisted
  | (b, v) :: m, a => if a = b then v else Memory.read m a

/-- `M[a] <- v`, keeping the canonical form. -/
def Memory.write : Memory → Nat → Byte → Memory
  | [], a, v => if v = Memory.unlisted then [] else [(a, v)]
  | (b, u) :: m, a, v =>
    if a < b then (if v = Memory.unlisted then (b, u) :: m else (a, v) :: (b, u) :: m)
    else if a = b then (if v = Memory.unlisted then m else (a, v) :: m)
    else (b, u) :: Memory.write m a v

/-- The `n` bytes from address `a` up, lowest address first (00_scope.md R13, 20_memory.md R51). -/
def Memory.readBytes (m : Memory) : Nat → Nat → List Byte
  | _, 0 => []
  | a, n + 1 => m.read a :: Memory.readBytes m (a + 1) n

/-- Stores the list from address `a` up, element 0 at `a` (00_scope.md R13, 20_memory.md R51). -/
def Memory.writeBytes (m : Memory) : Nat → List Byte → Memory
  | _, [] => m
  | a, v :: vs => Memory.writeBytes (m.write a v) (a + 1) vs

/-- `R[i]` (00_scope.md R13). -/
def State.reg (s : State) (i : SReg) : Word := s.regs[i]

/-- `R[i] <- v` (00_scope.md R13); no scalar register is hardwired (10_state.md R26). -/
def State.setReg (s : State) (i : SReg) (v : Word) : State := { s with regs := s.regs.set i v }

/-- `P[i]` (00_scope.md R13). -/
def State.poly (s : State) (i : PReg) : Poly := s.polys[i]

/-- `P[i] <- p` (00_scope.md R13). -/
def State.setPoly (s : State) (i : PReg) (p : Poly) : State := { s with polys := s.polys.set i p }

/-- `M[a]` in a state. -/
def State.byteAt (s : State) (a : Nat) : Byte := s.mem.read a

/-- Replaces the bit buffer. -/
def State.setBb (s : State) (bits : List Bool) : State := { s with bb := bits }

/-- Replaces the block-descriptor list. -/
def State.setBd (s : State) (bd : List Block) : State := { s with bd := bd }

/-- `VERSION <- v`. -/
def State.setVersion (s : State) (v : BitVec 6) : State := { s with version := v }

/-- Stores a list of bytes to the scratchpad. -/
def State.setBytes (s : State) (addr : Nat) (bs : List Byte) : State :=
  { s with mem := s.mem.writeBytes addr bs }

/-- `BDCNT` (10_state.md R34). -/
def State.bdcnt (s : State) : Nat := s.bd.length

/-- `TDC`, the sum of `data` over `BD` (10_state.md R34). -/
def State.tdc (s : State) : Nat := (s.bd.map fun b => b.data.toNat).sum

/-- `TCW`, the sum of `total` over `BD` (10_state.md R34). -/
def State.tcw (s : State) : Nat := (s.bd.map fun b => b.total.toNat).sum

/-- `addr + n <= MSIZE` on unbounded integers: the range check of 20_memory.md R55. -/
abbrev inScratchpad (addr n : Nat) : Prop := addr + n ≤ Config.msize

/-- `MemRead(addr, n)` and then the rest of the command (00_scope.md R13: it requires `addr + n <= MSIZE`). -/
def loadBytes (s : State) (addr n : Nat) (rest : List Byte → Result) : Result :=
  if inScratchpad addr n then rest (s.mem.readBytes addr n) else .fault .scratchpadHole

/-- `MemWrite(addr, n, bs)` with `n` the length of `bs` as a command's last act (00_scope.md R13: it requires
`addr + n <= MSIZE`). -/
def storeBytes (s : State) (addr : Nat) (bs : List Byte) : Result :=
  if inScratchpad addr bs.length then .next (s.setBytes addr bs) else .fault .scratchpadHole

/-- The state after fault entry: ERR 1, CAUSE the cause's code, EINFO the whole command word, nothing else
(60_exceptions.md R222). -/
def State.latch (s : State) (c : Cause) (w : Word) : State :=
  { s with err := true, cause := c.code, einfo := w }

/-- `raise c(w)`: abandons the command with no other state change (00_scope.md R13, 60_exceptions.md R222). Control goes
nowhere: there is no handler. -/
def raise (c : Cause) (w : Word) (s : State) : Result := .next (s.latch c w)

/-- Reset: every piece of the unit's state at its reset value (10_state.md R40, 70_reset_and_hazards.md R245, R246). It
is the only way out of a fault (60_exceptions.md R225). The constants of the machine stay (10_state.md R24), and so do
the model's own two fields, which are not the unit's. DESIGN CHOICE (log entry 6, safe). -/
def State.resetUnit (s : State) : State :=
  { State.reset with config := s.config, pending := s.pending, reply := s.reply }

end Sys2Proof.Machine
end

