-- ==== Sys2Proof/Machine/Operands.lean ====
section
/-! DEFINITION. The operand forms: the immediates of 30_encoding.md R73, the readings of a scalar register (10_state.md
R26: field element, signed exponent, address, count, index), the extensions of 00_scope.md R13, and the bit lists of
00_scope.md R15. -/

namespace Sys2Proof.Machine

/-- `sext_16`: `LI`'s immediate (30_encoding.md R73 (a)). -/
def sext16 (imm : BitVec 16) : Word := imm.signExtend 32

/-- `zext` of a byte result (40_gf_scalar.md R96 to R98). -/
def zextByte (b : Byte) : Word := b.setWidth 32

/-- A number below 2^32 as a register value (00_scope.md R13). -/
def wordOf (n : Nat) : Word := BitVec.ofNat 32 n

/-- `R[i]` read as an unsigned number: an address, a count, an index (20_memory.md R55, 92 D52). -/
def State.num (s : State) (i : SReg) : Nat := (s.reg i).toNat

/-- `signed(R[i])`: the same 32 bits as two's complement (00_scope.md R13). -/
def State.signedNum (s : State) (i : SReg) : Int := (s.reg i).toInt

/-- The low byte of a register that holds a field element; the commands test `R[i] <= 255` first
(40_gf_scalar.md R96, R98). -/
def State.element (s : State) (i : SReg) : Byte := (s.reg i).setWidth 8

/-- The `k` low bits of `v`, most significant of them first: what `append(BB, v, k)` appends (00_scope.md R13, R15). -/
def bitsOf (v : Nat) : Nat → List Bool
  | 0 => []
  | k + 1 => v.testBit k :: bitsOf v k

/-- The bits of a byte, bit 7 first (20_memory.md R52). -/
def byteBits (b : Byte) : List Bool := bitsOf b.toNat 8

/-- The byte whose bit 7 is the first of the bits; bits past the end of the list are 0 (10_state.md R32,
42_rs_codewords.md R155). -/
def byteOfBits (bits : List Bool) : Byte :=
  BitVec.ofNat 8 ((List.range 8).foldl (fun acc j => 2 * acc + (bits.getD j false).toNat) 0)

/-- The first `n` bytes of a bit list (42_rs_codewords.md R155). -/
def packBits : Nat → List Bool → List Byte
  | 0, _ => []
  | n + 1, bits => byteOfBits (bits.take 8) :: packBits n (bits.drop 8)

/-- The width `w` of the length field: 8 for versions 1..9, 16 for versions 10..40 (42_rs_codewords.md R147). -/
def lengthFieldWidth (version : BitVec 6) : Nat := if version.toNat ≤ 9 then 8 else 16

end Sys2Proof.Machine
end

