-- ==== Sys2Proof/Machine/Bch.lean ====
section
/-! DEFINITION. The BCH encoder's pure function (43_bch.md R180) and the two fields built with it (R182, R183). The
numbers are unbounded non-negative integers, as the rule says. -/

namespace Sys2Proof.Machine

/-- `bitlen(v)`: the number of bits of `v` without leading zeros (00_scope.md R12). -/
def bitlen (v : Nat) : Nat := if v = 0 then 0 else Nat.log2 v + 1

/-- The loop of `bchrem`, with a bound on its rounds (43_bch.md R180: at most `bitlen(v << s) - bitlen(g) + 1`). DEDUCED
(log entry 8, safe): the bound that `bchrem` gives is never reached for `g >= 1`. -/
def bchLoop : Nat → Nat → Nat → Nat
  | 0, d, _ => d
  | n + 1, d, g =>
    if bitlen g ≤ bitlen d then bchLoop n (d ^^^ (g <<< (bitlen d - bitlen g))) g else d

/-- `bchrem(v, s, g)` (43_bch.md R180). -/
def bchrem (v s g : Nat) : Nat := bchLoop (bitlen (v <<< s) + 1) (v <<< s) g

/-- The 15-bit format field of level index `l` and mask index `m` (43_bch.md R182). -/
def formatInfo (l m : Nat) : Nat :=
  let p := (l <<< 3) ||| m
  ((p <<< 10) ||| bchrem p 10 Config.g15) ^^^ Config.g15Mask

/-- The 18-bit version field of version `v` (43_bch.md R183). -/
def versionInfo (v : Nat) : Nat := (v <<< 12) ||| bchrem v 12 Config.g18

end Sys2Proof.Machine
end

