-- ==== Sys2Proof/Machine/BchCommands.lean ====
section
/-! DEFINITION. The meanings of the BCH commands (43_bch.md R182, R183). -/

namespace Sys2Proof.Machine

/-- `BCHFMT rd, rl, rm` (43_bch.md R182). -/
def execBchfmt (rd rl rm : SReg) (s : State) : Result :=
  let w := encode (.bchfmt rd rl rm)
  let l := s.num rl
  let m := s.num rm
  if l > 3 then raise .invalidArgument w s
  else if m > 7 then raise .invalidArgument w s
  else .next (s.setReg rd (wordOf (formatInfo l m)))

/-- `BCHVER rd` (43_bch.md R183). -/
def execBchver (rd : SReg) (s : State) : Result :=
  let v := s.version.toNat
  if v < 7 then raise .invalidArgument (encode (.bchver rd)) s
  else .next (s.setReg rd (wordOf (versionInfo v)))

end Sys2Proof.Machine
end

