-- ==== Sys2Proof/Machine/Galois.lean ====
section
/-! DEFINITION. The four pure functions of GF(256) (40_gf_scalar.md R90 to R93), in terms of the tables `EXP` and `LOG`
that the configuration holds. -/

namespace Sys2Proof.Machine

/-- `gadd(x, y) = x ^ y` (40_gf_scalar.md R90). -/
def gadd (x y : Byte) : Byte := x ^^^ y

/-- `glog(x) = LOG[x]` for `x` in 1..255; 0 has no logarithm (40_gf_scalar.md R91). -/
def glog (c : Config) (x : Byte) : Option Nat :=
  if x = 0 then none else (c.log[x.toNat - 1]?).map BitVec.toNat

/-- `gexp(n) = EXP[n mod 255]` with the floored remainder, for every integer `n` (40_gf_scalar.md R92, 00_scope.md R12). An
entry outside the table reads as 0 (DESIGN CHOICE, log entry 11): no such entry is read with valid tables. -/
def gexp (c : Config) (n : Int) : Byte := c.exp.getD (n % 255).toNat 0

/-- `gmul(x, y)`: 0 if a factor is 0, else `gexp(glog(x) + glog(y))` (40_gf_scalar.md R93). -/
def gmul (c : Config) (x y : Byte) : Byte :=
  match glog c x, glog c y with
  | some lx, some ly => gexp c (lx + ly)
  | _, _ => 0

end Sys2Proof.Machine
end

