-- ==== Sys2Proof/Machine/Polynomial.lean ====
section
/-! DEFINITION. The pure functions on polynomials (41_polynomial.md R110 to R114): coefficient lists, highest degree
first. -/

namespace Sys2Proof.Machine

/-- `pnorm(c)`: drops leading zeros while more than one element remains (41_polynomial.md R110; the rule is about
non-empty lists, and the empty list, which no command makes, gives `[0]`, DESIGN CHOICE, log entry 11, safe). -/
def pnorm : Poly → Poly
  | [] => [0]
  | [x] => [x]
  | x :: y :: t => if x = 0 then pnorm (y :: t) else x :: y :: t

/-- XORs the list `row` into the front of the list `w`, coefficient by coefficient: the inner loop of `pmul` and of `pmod`
(41_polynomial.md R111, R112). -/
def xorFront : Poly → Poly → Poly
  | [], w => w
  | _ :: _, [] => []
  | x :: row, y :: w => gadd y x :: xorFront row w

/-- The convolution of 41_polynomial.md R111 before it is normalised, of length `len(a) + len(b) - 1`: each `a[i]` adds
the row `gmul(a[i], b[j])` at the places `i + j`. -/
def convolve (c : Config) : Poly → Poly → Poly
  | [], b => List.replicate (b.length - 1) 0
  | x :: a, b => xorFront (b.map (gmul c x)) (0 :: convolve c a b)

/-- `pmul(a, b)` (41_polynomial.md R111). -/
def pmul (c : Config) (a b : Poly) : Poly := pnorm (convolve c a b)

/-- `b` scaled by the element whose logarithm is `ratio`; a zero coefficient contributes nothing (41_polynomial.md R112,
point (a)). -/
def scaleRow (c : Config) (ratio : Int) (b : Poly) : Poly :=
  b.map fun x => match glog c x with
    | some l => gexp c (l + ratio)
    | none => 0

/-- The loop of `pmod`, with a bound on its rounds (41_polynomial.md R112: at most `len(a)` rounds). DEDUCED (log entry
8, safe): the bound `len(a) + 1` that `pmod` gives is never reached. -/
def pmodLoop (c : Config) : Nat → Poly → Poly → Poly
  | 0, a, _ => a
  | n + 1, a, b =>
    if a.length < b.length then a
    else if a = [0] then [0]
    else match glog c (a.headD 0), glog c (b.headD 0) with
      | some la, some lb => pmodLoop c n (pnorm (xorFront (scaleRow c ((la : Int) - lb) b) a)) b
      | _, _ => [0]

/-- `pmod(a, b)` for `b` other than `[0]` (41_polynomial.md R112). The rule raises `LogOfZero` for `b = [0]`; the command
`PMOD` tests that before it calls this, and the other callers divide by `pgen(e)`, whose leading coefficient is 1
(60_exceptions.md R219), so what this answers for `b = [0]` reaches no state (DESIGN CHOICE, log entry 11, safe). -/
def pmod (c : Config) (a b : Poly) : Poly := pmodLoop c (a.length + 1) a b

/-- `pshl(a, n)`: multiplication by x^n; the zero polynomial stays `[0]` (41_polynomial.md R113). -/
def pshl (a : Poly) (n : Nat) : Poly := if a = [0] then [0] else a ++ List.replicate n 0

/-- `pgen(n)`: the product of `[1, gexp(i)]` for `i` in 0..n-1 (41_polynomial.md R114). -/
def pgen (c : Config) : Nat → Poly
  | 0 => [1]
  | n + 1 => pmul c (pgen c n) [1, gexp c n]

end Sys2Proof.Machine
end

