-- ==== Sys2Proof/Machine/Codewords.lean ====
section
/-! DEFINITION. The pure functions of the Reed-Solomon encoder: the segment's bits, `frame`, the split into blocks,
`rsecc` and `interleave` (42_rs_codewords.md R146, R151, R156, R158, R159). -/

namespace Sys2Proof.Machine

/-- The bits of one byte-mode segment: the indicator in 4 bits, the number of bytes in `width` bits, the bytes
(42_rs_codewords.md R146). -/
def segmentBits (c : Config) (width : Nat) (payload : List Byte) : List Bool :=
  bitsOf c.modeByte.toNat 4 ++ bitsOf payload.length width ++ payload.flatMap byteBits

/-- `k` pad bytes as bits, alternating PAD0 and PAD1; `even` says that the next one is PAD0 (42_rs_codewords.md R151). -/
def padBits : Nat → Bool → List Bool
  | 0, _ => []
  | k + 1, even => byteBits (if even then Config.pad0 else Config.pad1) ++ padBits k (!even)

/-- Step 4 of `frame`: a terminator of four zero bits if at least 4 bits are spare (42_rs_codewords.md R151). -/
def withTerminator (bits : List Bool) (T : Nat) : List Bool :=
  if 4 ≤ 8 * T - bits.length then bits ++ List.replicate 4 false else bits

/-- Step 5 of `frame`: zero bits up to a whole byte (42_rs_codewords.md R151). -/
def alignBits (bits : List Bool) : List Bool :=
  bits ++ List.replicate ((8 - bits.length % 8) % 8) false

/-- `frame(bits, T)` for `len(bits) <= 8 T` (42_rs_codewords.md R151). -/
def frame (bits : List Bool) (T : Nat) : List Bool :=
  let aligned := alignBits (withTerminator bits T)
  aligned ++ padBits (T - aligned.length / 8) true

/-- `rsecc(D, e)`: the remainder of the data shifted by `e`, right-aligned in `e` bytes (42_rs_codewords.md R158). -/
def rsecc (c : Config) (data : List Byte) (e : Nat) : List Byte :=
  let r := pmod c (pshl (pnorm data) e) (pgen c e)
  List.replicate (e - r.length) 0 ++ r

/-- Splits the data codewords over the blocks in order (42_rs_codewords.md R156). -/
def splitData : List Block → List Byte → List (List Byte)
  | [], _ => []
  | b :: bd, data => data.take b.data.toNat :: splitData bd (data.drop b.data.toNat)

/-- The error-correction codewords of every block (42_rs_codewords.md R158, R165). -/
def eccData (c : Config) (bd : List Block) (data : List Byte) : List (List Byte) :=
  List.zipWith (fun b d => rsecc c d (b.total.toNat - b.data.toNat)) bd (splitData bd data)

/-- The largest length of the lists. -/
def maxLength (B : List (List Byte)) : Nat := B.foldr (fun b m => max b.length m) 0

/-- `interleave(B)`: index 0 of every list, then index 1 of every list that still has one, and so on
(42_rs_codewords.md R159). -/
def interleave (B : List (List Byte)) : List Byte :=
  (List.range (maxLength B)).flatMap fun i => B.filterMap fun b => b[i]?

/-- The codeword stream: the blocks' data codewords interleaved, then their error-correction codewords interleaved
(42_rs_codewords.md R159, R165). -/
def codewordStream (c : Config) (bd : List Block) (data : List Byte) : List Byte :=
  interleave (splitData bd data) ++ interleave (eccData c bd data)

end Sys2Proof.Machine
end

