-- ==== Sys2Proof/Machine/BlockCommands.lean ====
section
/-! DEFINITION. The meanings of the Reed-Solomon family: block descriptors, bit buffer, framing, error-correction
codewords and the codeword stream (42_rs_codewords.md R142 to R165). The temporaries of `RSECC` and `CWGEN` are no state
(R141). -/

namespace Sys2Proof.Machine

/-- `BDCLR` (42_rs_codewords.md R142). -/
def execBdclr (s : State) : Result := .next (s.setBd [])

/-- `BDADD count, total, data` (42_rs_codewords.md R143). -/
def execBdadd (count total data : Byte) (s : State) : Result :=
  let w := encode (.bdadd count total data)
  if count.toNat = 0 then raise .invalidArgument w s
  else if data.toNat = 0 then raise .invalidArgument w s
  else if data.toNat ≥ total.toNat then raise .invalidArgument w s
  else if s.bdcnt + count.toNat > Config.nbmax then raise .lengthOverflow w s
  else .next (s.setBd (s.bd ++ List.replicate count.toNat ⟨total, data⟩))

/-- `BBCLR` (42_rs_codewords.md R144). -/
def execBbclr (s : State) : Result := .next (s.setBb [])

/-- `BBPUT rv, rn` (42_rs_codewords.md R145). -/
def execBbput (rv rn : SReg) (s : State) : Result :=
  let w := encode (.bbput rv rn)
  let v := s.num rv
  let n := s.num rn
  if n > 32 then raise .invalidArgument w s
  else if v >>> n ≠ 0 then raise .invalidArgument w s
  else if s.bb.length + n > Config.bbmax then raise .lengthOverflow w s
  else .next (s.setBb (s.bb ++ bitsOf v n))

/-- `SEGADD ra, rn` (42_rs_codewords.md R150). -/
def execSegadd (ra rn : SReg) (s : State) : Result :=
  let w := encode (.segadd ra rn)
  let addr := s.num ra
  let n := s.num rn
  let width := lengthFieldWidth s.version
  if s.version.toNat = 0 then raise .invalidArgument w s
  else if n ≥ 2 ^ width then raise .invalidArgument w s
  else if s.bb.length + 4 + width + 8 * n > Config.bbmax then raise .lengthOverflow w s
  else if ¬ inScratchpad addr n then raise .addressRange w s
  else loadBytes s addr n fun bs => .next (s.setBb (s.bb ++ segmentBits s.config width bs))

/-- `FRAME` (42_rs_codewords.md R152). -/
def execFrame (s : State) : Result :=
  let w := encode .frame
  if s.bdcnt = 0 then raise .invalidArgument w s
  else if 8 * s.tdc > Config.bbmax then raise .lengthOverflow w s
  else if s.bb.length > 8 * s.tdc then raise .capacityExceeded w s
  else .next (s.setBb (frame s.bb s.tdc))

/-- `BBST ra` (42_rs_codewords.md R155). -/
def execBbst (ra : SReg) (s : State) : Result :=
  let addr := s.num ra
  let nb := (s.bb.length + 7) / 8
  if ¬ inScratchpad addr nb then raise .addressRange (encode (.bbst ra)) s
  else storeBytes s addr (packBits nb s.bb)

/-- `RSECC rdst, rsrc, rk, re` (42_rs_codewords.md R160). -/
def execRsecc (rdst rsrc rk re : SReg) (s : State) : Result :=
  let w := encode (.rsecc rdst rsrc rk re)
  let dst := s.num rdst
  let src := s.num rsrc
  let k := s.num rk
  let e := s.num re
  if k = 0 then raise .invalidArgument w s
  else if e = 0 then raise .invalidArgument w s
  else if k + e > 255 then raise .invalidArgument w s
  else if ¬ inScratchpad src k then raise .addressRange w s
  else if ¬ inScratchpad dst e then raise .addressRange w s
  else loadBytes s src k fun data => storeBytes s dst (rsecc s.config data e)

/-- `CWGEN rdst, rsrc` (42_rs_codewords.md R165). -/
def execCwgen (rdst rsrc : SReg) (s : State) : Result :=
  let w := encode (.cwgen rdst rsrc)
  let dst := s.num rdst
  let src := s.num rsrc
  if s.bdcnt = 0 then raise .invalidArgument w s
  else if ¬ inScratchpad src s.tdc then raise .addressRange w s
  else if ¬ inScratchpad dst s.tcw then raise .addressRange w s
  else loadBytes s src s.tdc fun data => storeBytes s dst (codewordStream s.config s.bd data)

end Sys2Proof.Machine
end

