-- ==== Sys2Proof/Machine/PolyCommands.lean ====
section
/-! DEFINITION. The meanings of the polynomial commands (41_polynomial.md R117 to R123). Every source is read before the
destination is written (R116). -/

namespace Sys2Proof.Machine

/-- `PLD pd, ra, rn` (41_polynomial.md R117). -/
def execPld (pd : PReg) (ra rn : SReg) (s : State) : Result :=
  let w := encode (.pld pd ra rn)
  let addr := s.num ra
  let n := s.num rn
  if n = 0 then raise .invalidArgument w s
  else if n > Config.pmax then raise .lengthOverflow w s
  else if ¬ inScratchpad addr n then raise .addressRange w s
  else loadBytes s addr n fun bs => .next (s.setPoly pd (pnorm bs))

/-- `PST ra, ps, rn` (41_polynomial.md R118). -/
def execPst (ra : SReg) (ps : PReg) (rn : SReg) (s : State) : Result :=
  let w := encode (.pst ra ps rn)
  let addr := s.num ra
  let n := s.num rn
  let p := s.poly ps
  if p.length > n then raise .invalidArgument w s
  else if ¬ inScratchpad addr n then raise .addressRange w s
  else storeBytes s addr (List.replicate (n - p.length) 0 ++ p)

/-- `PLEN rd, ps` (41_polynomial.md R119). -/
def execPlen (rd : SReg) (ps : PReg) (s : State) : Result :=
  .next (s.setReg rd (wordOf (s.poly ps).length))

/-- `PMUL pd, pa, pb` (41_polynomial.md R120). -/
def execPmul (pd pa pb : PReg) (s : State) : Result :=
  let x := s.poly pa
  let y := s.poly pb
  if x.length + y.length - 1 > Config.pmax then raise .lengthOverflow (encode (.pmul pd pa pb)) s
  else .next (s.setPoly pd (pmul s.config x y))

/-- `PMOD pd, pa, pb` (41_polynomial.md R121). -/
def execPmod (pd pa pb : PReg) (s : State) : Result :=
  let x := s.poly pa
  let y := s.poly pb
  if y = [0] then raise .logOfZero (encode (.pmod pd pa pb)) s
  else .next (s.setPoly pd (pmod s.config x y))

/-- `PSHL pd, pa, rn` (41_polynomial.md R122). -/
def execPshl (pd pa : PReg) (rn : SReg) (s : State) : Result :=
  let x := s.poly pa
  let n := s.num rn
  if x ≠ [0] ∧ x.length + n > Config.pmax then raise .lengthOverflow (encode (.pshl pd pa rn)) s
  else .next (s.setPoly pd (pshl x n))

/-- `PGEN pd, rn` (41_polynomial.md R123). -/
def execPgen (pd : PReg) (rn : SReg) (s : State) : Result :=
  let n := s.num rn
  if n + 1 > Config.pmax then raise .lengthOverflow (encode (.pgen pd rn)) s
  else .next (s.setPoly pd (pgen s.config n))

end Sys2Proof.Machine
end

