-- ==== Sys2Proof/Machine/Scalar.lean ====
section
/-! DEFINITION. The meanings of the Galois-field scalar commands (40_gf_scalar.md R96 to R98). -/

namespace Sys2Proof.Machine

/-- `GFLOG rd, rs` (40_gf_scalar.md R96). -/
def execGflog (rd rs : SReg) (s : State) : Result :=
  let w := encode (.gflog rd rs)
  if s.num rs > 255 then raise .invalidArgument w s
  else match glog s.config (s.element rs) with
    | none => raise .logOfZero w s
    | some l => .next (s.setReg rd (wordOf l))

/-- `GFEXP rd, rs` (40_gf_scalar.md R97). -/
def execGfexp (rd rs : SReg) (s : State) : Result :=
  .next (s.setReg rd (zextByte (gexp s.config (s.signedNum rs))))

/-- `GFMUL rd, rs1, rs2` (40_gf_scalar.md R98). -/
def execGfmul (rd rs1 rs2 : SReg) (s : State) : Result :=
  let w := encode (.gfmul rd rs1 rs2)
  if s.num rs1 > 255 then raise .invalidArgument w s
  else if s.num rs2 > 255 then raise .invalidArgument w s
  else .next (s.setReg rd (zextByte (gmul s.config (s.element rs1) (s.element rs2))))

end Sys2Proof.Machine
end

