-- ==== Sys2Proof/Machine/System.lean ====
section
/-! DEFINITION. The meanings of the system commands (44_system.md). Every meaning is the command's own step once its word
has been accepted: the test of the error latch and of the encoding stands before it, in `issueCommand`
(Machine/Issue.lean), in the order of 60_exceptions.md R227 (log entry 4). A faulting command records its own word, the
one word that decodes to it, in EINFO (log entry 5). -/

namespace Sys2Proof.Machine

/-- `NOP` (44_system.md R201). -/
def execNop (s : State) : Result := .next s

/-- `RESET` (44_system.md R202). -/
def execReset (s : State) : Result := .next s.resetUnit

/-- `SETVER imm` (44_system.md R203). -/
def execSetver (imm : BitVec 16) (s : State) : Result :=
  let v := imm.toNat
  if v < 1 ∨ v > Config.vmax then raise .invalidArgument (encode (.setver imm)) s
  else .next (s.setVersion (BitVec.ofNat 6 v))

/-- `LI rd, imm` (44_system.md R204). -/
def execLi (rd : SReg) (imm : BitVec 16) (s : State) : Result := .next (s.setReg rd (sext16 imm))

end Sys2Proof.Machine
end

