-- ==== Sys2Proof/Machine/Dispatch.lean ====
section
/-! DEFINITION. The one dispatch: each command's meaning (30_encoding.md R74). -/

namespace Sys2Proof.Machine

/-- The step of a command whose word has been accepted. -/
def exec (i : Instr) (s : State) : Host.Outcome State Fault Refusal :=
  match i with
  | .nop => Sys2Proof.Machine.execNop s
  | .reset => Sys2Proof.Machine.execReset s
  | .setver imm => Sys2Proof.Machine.execSetver imm s
  | .li rd imm => Sys2Proof.Machine.execLi rd imm s
  | .gflog rd rs => Sys2Proof.Machine.execGflog rd rs s
  | .gfexp rd rs => Sys2Proof.Machine.execGfexp rd rs s
  | .gfmul rd rs1 rs2 => Sys2Proof.Machine.execGfmul rd rs1 rs2 s
  | .pld pd ra rn => Sys2Proof.Machine.execPld pd ra rn s
  | .pst ra ps rn => Sys2Proof.Machine.execPst ra ps rn s
  | .plen rd ps => Sys2Proof.Machine.execPlen rd ps s
  | .pmul pd pa pb => Sys2Proof.Machine.execPmul pd pa pb s
  | .pmod pd pa pb => Sys2Proof.Machine.execPmod pd pa pb s
  | .pshl pd pa rn => Sys2Proof.Machine.execPshl pd pa rn s
  | .pgen pd rn => Sys2Proof.Machine.execPgen pd rn s
  | .bdclr => Sys2Proof.Machine.execBdclr s
  | .bdadd count total data => Sys2Proof.Machine.execBdadd count total data s
  | .bbclr => Sys2Proof.Machine.execBbclr s
  | .bbput rv rn => Sys2Proof.Machine.execBbput rv rn s
  | .segadd ra rn => Sys2Proof.Machine.execSegadd ra rn s
  | .frame => Sys2Proof.Machine.execFrame s
  | .bbst ra => Sys2Proof.Machine.execBbst ra s
  | .rsecc rdst rsrc rk re => Sys2Proof.Machine.execRsecc rdst rsrc rk re s
  | .cwgen rdst rsrc => Sys2Proof.Machine.execCwgen rdst rsrc s
  | .bchfmt rd rl rm => Sys2Proof.Machine.execBchfmt rd rl rm s
  | .bchver rd => Sys2Proof.Machine.execBchver rd s

end Sys2Proof.Machine
end

