-- ==== Sys2Proof/Machine/Issue.lean ====
section
/-! DEFINITION. What the unit does with a word written to `CMD` (20_memory.md R60), in the order of 60_exceptions.md R227:
the error latch first, then decoding, then the command's own tests. -/

namespace Sys2Proof.Machine

/-- The one word that executes while the error latch is set (60_exceptions.md R224). -/
def resetWord : Word := 0x01000000

/-- The unit's step for a command word (20_memory.md R60, 60_exceptions.md R224, R227): dropped without being decoded
while the latch is set and the word is not exactly RESET's; `IllegalCommand` when the word is no command; else the
command's own step. DEDUCED (log entry 4, safe): the latch is tested here and not by the meanings. -/
def issueCommand (w : Word) (s : State) : Result :=
  if s.err = true ∧ w ≠ resetWord then .next s
  else match decode w with
    | .ok i => exec i s
    | .error _ => raise .illegalCommand w s

end Sys2Proof.Machine
end

