-- ==== Sys2Proof/Machine/HostPort.lean ====
section
/-! DEFINITION. The host's port: the register map, the memory window and the four kinds of access (20_memory.md R56 to
R61), and what the outside's next event does. -/

namespace Sys2Proof.Machine

/-- The readable registers of 20_memory.md R57. -/
inductive HostReg where
  | status | einfo | version | bblen | bdcnt | tdc | tcw
  | scalar (i : Fin 8)
  | plen (i : Fin 8)
  | block (j : Fin 128)
  deriving DecidableEq, Repr

/-- The byte offset of a readable register (20_memory.md R57). -/
def hostRegOffset : HostReg → Nat
  | .status => 0x004
  | .einfo => 0x008
  | .version => 0x00C
  | .bblen => 0x010
  | .bdcnt => 0x014
  | .tdc => 0x018
  | .tcw => 0x01C
  | .scalar i => 0x020 + 4 * i.val
  | .plen i => 0x040 + 4 * i.val
  | .block j => 0x100 + 4 * j.val

/-- The offset of the command port `CMD` (20_memory.md R57). -/
def cmdOffset : Nat := 0x000

/-- The offset of the memory window (20_memory.md R57). -/
def windowOffset : Nat := 0x2000

/-- The readable register at an offset, none where the table of 20_memory.md R57 lists none. -/
def hostRegAt (off : Nat) : Option HostReg :=
  if off % 4 ≠ 0 then none
  else if off = 0x004 then some .status
  else if off = 0x008 then some .einfo
  else if off = 0x00C then some .version
  else if off = 0x010 then some .bblen
  else if off = 0x014 then some .bdcnt
  else if off = 0x018 then some .tdc
  else if off = 0x01C then some .tcw
  else if 0x020 ≤ off ∧ off < 0x040 then some (.scalar (Fin.ofNat 8 ((off - 0x020) / 4)))
  else if 0x040 ≤ off ∧ off < 0x060 then some (.plen (Fin.ofNat 8 ((off - 0x040) / 4)))
  else if 0x100 ≤ off ∧ off < 0x300 then some (.block (Fin.ofNat 128 ((off - 0x100) / 4)))
  else none

/-- The value a host register reads as; reading changes nothing (20_memory.md R57, R58). -/
def hostRegValue (s : State) : HostReg → Word
  | .status => s.status
  | .einfo => s.einfo
  | .version => s.version.setWidth 32
  | .bblen => wordOf s.bb.length
  | .bdcnt => wordOf s.bdcnt
  | .tdc => wordOf s.tdc
  | .tcw => wordOf s.tcw
  | .scalar i => s.reg i
  | .plen i => wordOf (s.poly i).length
  | .block j => match s.bd[j.val]? with
    | some b => 0#16 ++ b.total ++ b.data
    | none => 0

/-- The four kinds of access the host can perform (20_memory.md R56). -/
inductive HostAccess where
  | writeCmd (w : Word)
  | readReg (r : HostReg)
  | readMem (a : Nat)
  | writeMem (a : Nat) (v : Byte)
  deriving DecidableEq, Repr

/-- Which of the four kinds an access is: whole words at a register's own offset, single bytes in the window; every other
access is outside the interface (20_memory.md R54, R56, R57, R61). -/
def classify : BusAccess → Option HostAccess
  | .write off (.word w) => if off = cmdOffset then some (.writeCmd w) else none
  | .write off (.byte v) =>
    if windowOffset ≤ off ∧ off < windowOffset + Config.msize then some (.writeMem (off - windowOffset) v) else none
  | .write _ (.half _) => none
  | .read off .word => (hostRegAt off).map .readReg
  | .read off .byte =>
    if windowOffset ≤ off ∧ off < windowOffset + Config.msize then some (.readMem (off - windowOffset)) else none
  | .read _ .half => none

/-- What a host access does (20_memory.md R56, R58, R59, R60). -/
def hostAccess (a : HostAccess) (s : State) : Result :=
  match a with
  | .writeCmd w => issueCommand w s
  | .readReg r => .next { s with reply := some (.word (hostRegValue s r)) }
  | .readMem a => loadBytes s a 1 fun bs => .next { s with reply := some (.byte (bs.headD 0)) }
  | .writeMem a v => storeBytes s a [v]

/-- What the outside's next event does (20_memory.md R56, R61, 70_reset_and_hazards.md R245). -/
def serveEvent (e : Event) (s : State) : Result :=
  match e with
  | .hardwareReset => .next s.resetUnit
  | .access b => match classify b with
    | some a => hostAccess a s
    | none => .refused .hostAccessOutsideInterface

/-- The state once the host's next event has been taken off the sequence: nothing returned yet. -/
def State.took (s : State) (rest : List Event) : State := { s with pending := rest, reply := none }

/-- One step: the oldest pending event is taken and served whole; with nothing pending the unit is idle and holds its
state (60_exceptions.md R237). DESIGN CHOICE (log entry 1, safe). -/
def stepUnit (s : State) : Result :=
  match s.pending with
  | [] => .next s
  | e :: rest => serveEvent e (s.took rest)

/-- The state in which the host's next access writes the command word whose `nbits` low bits are `w` and whose other bits
are 0 to `CMD`: where the unit takes its next command from (10_state.md R27, 20_memory.md R60). -/
def withCommand (s : State) (nbits w : Nat) : State :=
  { s with pending := .access (.write cmdOffset (.word (BitVec.ofNat 32 (w % 2 ^ nbits)))) :: s.pending }

end Sys2Proof.Machine
end

