-- ==== Sys2Proof/Machine/Assembler.lean ====
section
/-! DEFINITION. The assembler of 30_encoding.md R79: from a line of text to a written command, from a written command to
the command it names, and back. It is no part of the unit's step: the host assembles the words it writes. -/

namespace Sys2Proof.Machine

/-- An operand's number as a register number. -/
def regOperand : Option Operand → Fin 8
  | some (.scalar n) => Fin.ofNat 8 n
  | some (.poly n) => Fin.ofNat 8 n
  | _ => 0

/-- An operand's number as an immediate of `w` bits: `imm mod 2^w` (30_encoding.md R79). -/
def immOperand (w : Nat) : Option Operand → BitVec w
  | some (.number v) => BitVec.ofInt w v
  | _ => 0

/-- The command that a mnemonic with operands of the right kinds names, operands in the order of the fields
(30_encoding.md R74, R79). -/
def buildInstr (m : Mnemonic) (ops : List Operand) : Instr :=
  let r := fun k : Nat => regOperand ops[k]?
  match m with
  | .nop => .nop
  | .reset => .reset
  | .setver => .setver (immOperand 16 ops[0]?)
  | .li => .li (r 0) (immOperand 16 ops[1]?)
  | .gflog => .gflog (r 0) (r 1)
  | .gfexp => .gfexp (r 0) (r 1)
  | .gfmul => .gfmul (r 0) (r 1) (r 2)
  | .pld => .pld (r 0) (r 1) (r 2)
  | .pst => .pst (r 0) (r 1) (r 2)
  | .plen => .plen (r 0) (r 1)
  | .pmul => .pmul (r 0) (r 1) (r 2)
  | .pmod => .pmod (r 0) (r 1) (r 2)
  | .pshl => .pshl (r 0) (r 1) (r 2)
  | .pgen => .pgen (r 0) (r 1)
  | .bdclr => .bdclr
  | .bdadd => .bdadd (immOperand 8 ops[0]?) (immOperand 8 ops[1]?) (immOperand 8 ops[2]?)
  | .bbclr => .bbclr
  | .bbput => .bbput (r 0) (r 1)
  | .segadd => .segadd (r 0) (r 1)
  | .frame => .frame
  | .bbst => .bbst (r 0)
  | .rsecc => .rsecc (r 0) (r 1) (r 2) (r 3)
  | .cwgen => .cwgen (r 0) (r 1)
  | .bchfmt => .bchfmt (r 0) (r 1) (r 2)
  | .bchver => .bchver (r 0)

/-- Assembles a written command; only a well-formed one is accepted. A range error such as `SETVER 41` assembles and
faults when executed (30_encoding.md R79). -/
def assemble (c : AsmCommand) : Option Instr :=
  if c.wellFormed then some (buildInstr c.mnemonic c.operands) else none

/-- How a command is written (30_encoding.md R79). -/
def disassemble (i : Instr) : AsmCommand :=
  let r := fun k : Fin 8 => Operand.scalar k.val
  let p := fun k : Fin 8 => Operand.poly k.val
  ⟨i.mnemonic, match i with
    | .nop | .reset | .bdclr | .bbclr | .frame => []
    | .setver imm => [.number imm.toNat]
    | .li rd imm => [r rd, .number imm.toInt]
    | .gflog rd rs => [r rd, r rs]
    | .gfexp rd rs => [r rd, r rs]
    | .gfmul rd rs1 rs2 => [r rd, r rs1, r rs2]
    | .pld pd ra rn => [p pd, r ra, r rn]
    | .pst ra ps rn => [r ra, p ps, r rn]
    | .plen rd ps => [r rd, p ps]
    | .pmul pd pa pb => [p pd, p pa, p pb]
    | .pmod pd pa pb => [p pd, p pa, p pb]
    | .pshl pd pa rn => [p pd, p pa, r rn]
    | .pgen pd rn => [p pd, r rn]
    | .bdadd count total data => [.number count.toNat, .number total.toNat, .number data.toNat]
    | .bbput rv rn => [r rv, r rn]
    | .segadd ra rn => [r ra, r rn]
    | .bbst ra => [r ra]
    | .rsecc rdst rsrc rk re => [r rdst, r rsrc, r rk, r re]
    | .cwgen rdst rsrc => [r rdst, r rsrc]
    | .bchfmt rd rl rm => [r rd, r rl, r rm]
    | .bchver rd => [r rd]⟩

/-- The spelling of each mnemonic, upper case (30_encoding.md R74, R79). -/
def mnemonicSpellings : List (List Char × Mnemonic) :=
  [("NOP".toList, .nop), ("RESET".toList, .reset), ("SETVER".toList, .setver), ("LI".toList, .li),
   ("GFLOG".toList, .gflog), ("GFEXP".toList, .gfexp), ("GFMUL".toList, .gfmul), ("PLD".toList, .pld),
   ("PST".toList, .pst), ("PLEN".toList, .plen), ("PMUL".toList, .pmul), ("PMOD".toList, .pmod),
   ("PSHL".toList, .pshl), ("PGEN".toList, .pgen), ("BDCLR".toList, .bdclr), ("BDADD".toList, .bdadd),
   ("BBCLR".toList, .bbclr), ("BBPUT".toList, .bbput), ("SEGADD".toList, .segadd), ("FRAME".toList, .frame),
   ("BBST".toList, .bbst), ("RSECC".toList, .rsecc), ("CWGEN".toList, .cwgen), ("BCHFMT".toList, .bchfmt),
   ("BCHVER".toList, .bchver)]

/-- The value of a digit in base 10 or 16, either case of a hexadecimal letter. -/
def digitValue (base : Nat) (ch : Char) : Option Nat :=
  let v := if '0' ≤ ch ∧ ch ≤ '9' then ch.toNat - '0'.toNat
    else if 'A' ≤ ch ∧ ch ≤ 'F' then ch.toNat - 'A'.toNat + 10
    else if 'a' ≤ ch ∧ ch ≤ 'f' then ch.toNat - 'a'.toNat + 10
    else base
  if v < base then some v else none

/-- The number that digits write, added to what stands before them. -/
def digitsFrom (base : Nat) : Nat → List Char → Option Nat
  | acc, [] => some acc
  | acc, ch :: t => (digitValue base ch).bind fun v => digitsFrom base (base * acc + v) t

/-- A number of at least one digit. -/
def readDigits (base : Nat) : List Char → Option Nat
  | [] => none
  | t => digitsFrom base 0 t

/-- One operand of 30_encoding.md R79: `r<n>`, `p<n>`, a decimal number, a negative decimal number or `0x<hex>`. DESIGN CHOICE
(log entry 13, safe): what R79 leaves open of the text. R79 allows a negative number for `LI` alone and is silent on a zero
written with a minus sign; the model reads `-0` as 0 in every place, so `SETVER -0` and a `BDADD` with `-0` assemble. -/
def readOperand : List Char → Option Operand
  | 'r' :: t => (readDigits 10 t).map .scalar
  | 'R' :: t => (readDigits 10 t).map .scalar
  | 'p' :: t => (readDigits 10 t).map .poly
  | 'P' :: t => (readDigits 10 t).map .poly
  | '-' :: t => (readDigits 10 t).map fun n => .number (-(n : Int))
  | '0' :: 'x' :: t => (readDigits 16 t).map fun n => .number n
  | t => (readDigits 10 t).map fun n => .number n

/-- Is the character white space? -/
def isBlank (ch : Char) : Bool := ch == ' ' || ch == '\t' || ch == '\r' || ch == '\n'

/-- The characters without the white space at either end. -/
def trimChars (t : List Char) : List Char := ((t.dropWhile isBlank).reverse.dropWhile isBlank).reverse

/-- The pieces of a text between the commas. -/
def splitCommas : List Char → List (List Char)
  | [] => [[]]
  | ch :: t => match splitCommas t with
    | [] => [[ch]]
    | piece :: rest => if ch == ',' then [] :: piece :: rest else (ch :: piece) :: rest

/-- The operands of a command's text. -/
def readOperands (t : List Char) : Option (List Operand) :=
  match trimChars t with
  | [] => some []
  | body => (splitCommas body).mapM fun piece => readOperand (trimChars piece)

/-- What a line of assembler text is (30_encoding.md R79). -/
inductive AsmLine where
  /-- nothing but white space and a comment -/
  | blank
  | command (c : AsmCommand)
  /-- no line of the syntax -/
  | malformed
  deriving DecidableEq, Repr

/-- Reads one line: the comment from `;` on is dropped, the mnemonic's case does not count, operands stand between commas
(30_encoding.md R79). -/
def readLine (line : List Char) : AsmLine :=
  let body := trimChars (line.takeWhile fun ch => ch != ';')
  if body.isEmpty then .blank
  else
    let name := (body.takeWhile fun ch => !isBlank ch).map Char.toUpper
    match (mnemonicSpellings.find? fun p => p.1 == name).map Prod.snd,
      readOperands (body.dropWhile fun ch => !isBlank ch) with
    | some m, some ops => .command ⟨m, ops⟩
    | _, _ => .malformed

/-- The word that a line of text assembles to. -/
def assembleLine (line : List Char) : Option Word :=
  match readLine line with
  | .command c => (assemble c).map encode
  | _ => none

end Sys2Proof.Machine
end

