-- ==== Sys2Proof/Safety.lean ====
section
/-! DEFINITION. What claims are stated in: valid parameters (10_state.md R21, R22), the invariant of the unit's state
(10_state.md R30, R31, R33, R35, R36, R37, R38), what two states share, and what it is for a command to latch a fault. -/

namespace Sys2Proof.Machine

/-- The parameters and tables a unit may have: `EXP` filled by the powers of FIELD_GEN in the field of FIELD_POLY, with
`EXP[255] = 1` (10_state.md R21, 92 D48), and `LOG` with `LOG[EXP[i]] = i` for `i` in 0..254 (R22). -/
structure ValidConfig (c : Config) : Prop where
  exp_length : c.exp.length = 256
  log_length : c.log.length = 255
  exp_zero : c.exp.getD 0 0 = 1
  exp_step : ∀ i < 255, c.exp.getD (i + 1) 0 = clmul c.fieldPoly (c.exp.getD i 0) c.fieldGen
  exp_last : c.exp.getD 255 0 = 1
  log_exp : ∀ i < 255, glog c (c.exp.getD i 0) = some i

/-- A normalised coefficient list (00_scope.md R17, 10_state.md R30). -/
def Normalised (p : Poly) : Prop := p ≠ [] ∧ (1 < p.length → p.headD 0 ≠ 0)

/-- What a polynomial register may hold (10_state.md R29, R30). -/
def PolyRegister (p : Poly) : Prop := Normalised p ∧ p.length ≤ Config.pmax

/-- What a block descriptor may be (10_state.md R33). -/
def LegalBlock (b : Block) : Prop := 1 ≤ b.data.toNat ∧ b.data.toNat < b.total.toNat

/-- The invariant of the unit's state. -/
structure Inv (s : State) : Prop where
  /-- 10_state.md R21 to R24 -/
  config_valid : ValidConfig s.config
  /-- 10_state.md R29, R30 -/
  polys : ∀ i, PolyRegister (s.poly i)
  /-- 10_state.md R31 -/
  bb_length : s.bb.length ≤ Config.bbmax
  /-- 10_state.md R33 -/
  bd_length : s.bdcnt ≤ Config.nbmax
  /-- 10_state.md R33 -/
  bd_legal : ∀ b ∈ s.bd, LegalBlock b
  /-- 10_state.md R35 -/
  version_legal : s.version.toNat ≤ Config.vmax
  /-- 10_state.md R36, R37 -/
  latch_clear : s.err = false → s.cause = 0 ∧ s.einfo = 0
  /-- 10_state.md R36 -/
  latch_set : s.err = true → 1 ≤ s.cause.toNat ∧ s.cause.toNat ≤ 6
  /-- 10_state.md R38: the scratchpad's 8192 bytes in their canonical form -/
  mem_wf : Memory.wf s.mem

/-- The reset values of 10_state.md R40, as they read. -/
structure AtReset (s : State) : Prop where
  scalars : ∀ r, s.reg r = 0
  polys : ∀ p, s.poly p = [0]
  bb : s.bb = []
  bd : s.bd = []
  counts : s.bdcnt = 0 ∧ s.tdc = 0 ∧ s.tcw = 0
  version : s.version = 0
  latch : s.err = false ∧ s.cause = 0 ∧ s.status = 0
  einfo : s.einfo = 0
  memory : ∀ a, s.byteAt a = 0

/-- Every scalar register reads the same. -/
def SameScalars (s t : State) : Prop := ∀ r, t.reg r = s.reg r
/-- Every scalar register but `rd` reads the same. -/
def SameScalarsBut (rd : SReg) (s t : State) : Prop := ∀ r, r ≠ rd → t.reg r = s.reg r
/-- Every polynomial register reads the same. -/
def SamePolys (s t : State) : Prop := ∀ p, t.poly p = s.poly p
/-- Every polynomial register but `pd` reads the same. -/
def SamePolysBut (pd : PReg) (s t : State) : Prop := ∀ p, p ≠ pd → t.poly p = s.poly p
/-- Every byte of the scratchpad reads the same. -/
def SameBytes (s t : State) : Prop := ∀ a, t.byteAt a = s.byteAt a
/-- Every byte outside the `n` bytes from `addr` up reads the same. -/
def SameBytesOutside (addr n : Nat) (s t : State) : Prop :=
  ∀ a, (a < addr ∨ addr + n ≤ a) → t.byteAt a = s.byteAt a
/-- The bit buffer, the descriptor list and VERSION are the same. -/
def SameLists (s t : State) : Prop := t.bb = s.bb ∧ t.bd = s.bd ∧ t.version = s.version
/-- STATUS and EINFO are the same. -/
def SameLatch (s t : State) : Prop := t.err = s.err ∧ t.cause = s.cause ∧ t.einfo = s.einfo
/-- The machine's constants and the model's own two fields are the same. -/
def SameOutside (s t : State) : Prop := t.config = s.config ∧ t.pending = s.pending ∧ t.reply = s.reply

/-- The command faults with the cause while executing the word `w`: the answer is the state with STATUS and EINFO of
60_exceptions.md R222 and nothing else changed. -/
def Latches (i : Instr) (s : State) (c : Cause) : Prop :=
  ∀ w : Word, decode w = .ok i → exec i s = .next (s.latch c w)

/-- STATUS and EINFO are untouched, or the command faulted and changed nothing else (60_exceptions.md R222, R223). -/
def CleanOrLatched (i : Instr) (s t : State) : Prop := SameLatch s t ∨ ∃ c, t = s.latch c (encode i)

end Sys2Proof.Machine
end

