-- ==== Sys2Proof/Reference.lean ====
section
/-! DEFINITION. The spec's pseudocode and tables transcribed once more, in a form of their own, for the statements to hold
the machine's functions against: loops where the machine recurses, a relation where it has a bound on its rounds, and the
tables of results the spec prints. No meaning uses anything of this file. -/

namespace Sys2Proof.Reference

open Sys2Proof.Machine

/-- `k` low bits of `v`, most significant first (00_scope.md R15): place `j` holds bit `k - 1 - j`. -/
def bitsMsb (v k : Nat) : List Bool := (List.range k).map fun j => v.testBit (k - 1 - j)

/-- `MemRead(addr, n)`: `M[addr]`, `M[addr + 1]`, ... (00_scope.md R13). -/
def bytesFrom (s : State) (addr n : Nat) : List Byte := (List.range n).map fun k => s.byteAt (addr + k)

/-- The logarithm as a number, for arguments that are not 0. -/
def glogNum (c : Config) (x : Byte) : Nat := (glog c x).getD 0

/-- One term of `pmul`'s loops: `out[i+j] = out[i+j] ^ gexp(glog(a[i]) + glog(b[j]))` unless a factor is 0
(41_polynomial.md R111). -/
def pmulTerm (c : Config) (a b : Poly) (out : Poly) (i j : Nat) : Poly :=
  if a.getD i 0 ≠ 0 ∧ b.getD j 0 ≠ 0 then
    out.modify (i + j) fun x => x ^^^ gexp c (glogNum c (a.getD i 0) + glogNum c (b.getD j 0))
  else out

/-- The two loops of `pmul` before `pnorm` (41_polynomial.md R111). -/
def pmulLoops (c : Config) (a b : Poly) : Poly :=
  (List.range a.length).foldl
    (fun out i => (List.range b.length).foldl (fun out j => pmulTerm c a b out i j) out)
    (List.replicate (a.length + b.length - 1) 0)

/-- The working copy after one round of `pmod` (41_polynomial.md R112): `w[i] = a[i] ^ gexp(glog(b[i]) + ratio)` where
`b[i]` is not 0. -/
def pmodRound (c : Config) (a b : Poly) : Poly :=
  (List.range a.length).map fun i =>
    if b.getD i 0 ≠ 0 then
      a.getD i 0 ^^^ gexp c ((glogNum c (b.getD i 0) : Int) + ((glogNum c (a.headD 0) : Int) - glogNum c (b.headD 0)))
    else a.getD i 0

/-- `pmod`'s loop run to its end: `Remainder c b a r` says that the loop started with dividend `a` and divisor `b` returns
`r` (41_polynomial.md R112). -/
inductive Remainder (c : Config) (b : Poly) : Poly → Poly → Prop where
  | shorter (a : Poly) (h : a.length < b.length) : Remainder c b a a
  | zero (h : ¬ [(0 : Byte)].length < b.length) : Remainder c b [0] [0]
  | round (a r : Poly) (h : ¬ a.length < b.length) (ha : a ≠ [0])
      (rest : Remainder c b (pnorm (pmodRound c a b)) r) : Remainder c b a r

/-- `pgen`'s loop (41_polynomial.md R114). -/
def pgenLoop (c : Config) (n : Nat) : Poly :=
  (List.range n).foldl (fun g i => pmul c g [1, gexp c i]) [1]

/-- Adds two coefficient lists aligned at their constant terms (41_polynomial.md R115). -/
def padd (a b : Poly) : Poly :=
  let n := max a.length b.length
  List.zipWith gadd (List.replicate (n - a.length) 0 ++ a) (List.replicate (n - b.length) 0 ++ b)

/-- `interleave`'s two loops (42_rs_codewords.md R159). -/
def interleaveLoops (B : List (List Byte)) : List Byte :=
  (List.range (maxLength B)).foldl
    (fun out i => B.foldl (fun out b => if i < b.length then out ++ [b.getD i 0] else out) out) []

/-- The end of step 5 of `frame` in bits: where the pad bytes begin (42_rs_codewords.md R151). -/
def padStart (len T : Nat) : Nat := ((if 8 * T - len ≥ 4 then len + 4 else len) + 7) / 8 * 8

/-- `q` times `g` as binary polynomials (43_bch.md R180). -/
def clmulNat (q g : Nat) : Nat :=
  (List.range (bitlen q)).foldl (fun acc k => if q.testBit k then acc ^^^ (g <<< k) else acc) 0

/-- The 32 values of `BCHFMT`, rows by level index, columns by mask index (43_bch.md R185). -/
def formatTable : List (List Nat) :=
  [[0x5412, 0x5125, 0x5E7C, 0x5B4B, 0x45F9, 0x40CE, 0x4F97, 0x4AA0],
   [0x77C4, 0x72F3, 0x7DAA, 0x789D, 0x662F, 0x6318, 0x6C41, 0x6976],
   [0x1689, 0x13BE, 0x1CE7, 0x19D0, 0x0762, 0x0255, 0x0D0C, 0x083B],
   [0x355F, 0x3068, 0x3F31, 0x3A06, 0x24B4, 0x2183, 0x2EDA, 0x2BED]]

/-- The 34 values of `BCHVER` for versions 7..40 (43_bch.md R185). -/
def versionTable : List Nat :=
  [0x07C94, 0x085BC, 0x09A99, 0x0A4D3, 0x0BBF6, 0x0C762, 0x0D847, 0x0E60D, 0x0F928, 0x10B78, 0x1145D, 0x12A17,
   0x13532, 0x149A6, 0x15683, 0x168C9, 0x177EC, 0x18EC4, 0x191E1, 0x1AFAB, 0x1B08E, 0x1CC1A, 0x1D33F, 0x1ED75,
   0x1F250, 0x209D5, 0x216F0, 0x228BA, 0x2379F, 0x24B0B, 0x2542E, 0x26A64, 0x27541, 0x28C69]

/-- The scalar register a command writes (10_state.md R26): `LI GFLOG GFEXP GFMUL PLEN BCHFMT BCHVER`. -/
def scalarDest : Instr → Option SReg
  | .li rd _ => some rd
  | .gflog rd _ => some rd
  | .gfexp rd _ => some rd
  | .gfmul rd _ _ => some rd
  | .plen rd _ => some rd
  | .bchfmt rd _ _ => some rd
  | .bchver rd => some rd
  | _ => none

/-- The polynomial register a command writes (10_state.md R29): `PLD PMUL PMOD PSHL PGEN`. -/
def polyDest : Instr → Option PReg
  | .pld pd _ _ => some pd
  | .pmul pd _ _ => some pd
  | .pmod pd _ _ => some pd
  | .pshl pd _ _ => some pd
  | .pgen pd _ => some pd
  | _ => none

/-- The address and the number of bytes a command stores (20_memory.md R62): `PST BBST RSECC CWGEN`. -/
def storeRange (s : State) : Instr → Option (Nat × Nat)
  | .pst ra _ rn => some (s.num ra, s.num rn)
  | .bbst ra => some (s.num ra, (s.bb.length + 7) / 8)
  | .rsecc rdst _ _ re => some (s.num rdst, s.num re)
  | .cwgen rdst _ => some (s.num rdst, s.tcw)
  | _ => none

/-- The next access is the host's write of the word `w` to `CMD` (20_memory.md R56). -/
def CommandNext (s : State) (w : Word) (rest : List Event) : Prop :=
  s.pending = .access (.write 0x000 (.word w)) :: rest

/-- A word read at this offset returns this value and changes nothing of the unit (20_memory.md R56, R58). -/
def ReadsAs (s : State) (off : Nat) (v : Word) : Prop :=
  ∀ rest, step { s with pending := .access (.read off .word) :: rest } =
    .next { s with pending := rest, reply := some (.word v) }

/-- The offsets of the readable registers (20_memory.md R57). -/
def ListedOffset (off : Nat) : Prop :=
  off ∈ [0x004, 0x008, 0x00C, 0x010, 0x014, 0x018, 0x01C] ∨ (∃ i < 8, off = 0x020 + 4 * i) ∨
    (∃ i < 8, off = 0x040 + 4 * i) ∨ ∃ j < 128, off = 0x100 + 4 * j

/-- The accesses the host can perform (20_memory.md R56, R57). -/
def HostAllowed : BusAccess → Prop
  | .write off (.word _) => off = 0x000
  | .write off (.byte _) => ∃ a < 8192, off = 0x2000 + a
  | .write _ (.half _) => False
  | .read off .word => ListedOffset off
  | .read off .byte => ∃ a < 8192, off = 0x2000 + a
  | .read _ .half => False

/-- The "Encoding" and "Operands" lines of a command's rule (30_encoding.md R71, R74): the command's word has this opcode,
its format's must-be-zero bits are zero, its fields `a`, `b`, `c`, `d` are these register numbers, the decoder reads it back,
and a word with the opcode and a nonzero must-be-zero bit raises `IllegalCommand`. -/
def EncodingOf (i : Instr) (op : BitVec 8) (f : Format) (fields : List (Fin 8)) : Prop :=
  opField (encode i) = op ∧ encode i &&& f.mbz = 0 ∧
    [aField (encode i), bField (encode i), cField (encode i), dField (encode i)].take fields.length = fields ∧
    decode (encode i) = .ok i ∧
    ∀ (w : Word) (s : State), opField w = op → w &&& f.mbz ≠ 0 → s.err = false →
      issueCommand w s = .next (s.latch .illegalCommand w)

/-- `off(j)`: where block `j`'s data begin (42_rs_codewords.md R156). -/
def blockOffset (bd : List Block) (j : Nat) : Nat := ((bd.take j).map fun b => b.data.toNat).sum

/-- The descriptor of block `j`. -/
def blockAt (bd : List Block) (j : Nat) : Block := bd.getD j ⟨0, 0⟩

/-- `D0`, `D1`, ...: the blocks' data codewords read from the scratchpad (42_rs_codewords.md R156, R165). -/
def blocksFrom (s : State) (src : Nat) : List (List Byte) :=
  (List.range s.bdcnt).map fun j => bytesFrom s (src + blockOffset s.bd j) (blockAt s.bd j).data.toNat

/-- `E0`, `E1`, ...: the blocks' error-correction codewords (42_rs_codewords.md R158, R165). -/
def eccFrom (s : State) (src : Nat) : List (List Byte) :=
  (List.range s.bdcnt).map fun j =>
    rsecc s.config (bytesFrom s (src + blockOffset s.bd j) (blockAt s.bd j).data.toNat)
      ((blockAt s.bd j).total.toNat - (blockAt s.bd j).data.toNat)

/-- The reserved opcode values (30_encoding.md R76). -/
def ReservedOpcode (op : Nat) : Prop :=
  (0x04 ≤ op ∧ op ≤ 0x0F) ∨ (0x13 ≤ op ∧ op ≤ 0x1F) ∨ (0x27 ≤ op ∧ op ≤ 0x2F) ∨ (0x39 ≤ op ∧ op ≤ 0x3F) ∨
    (0x42 ≤ op ∧ op ≤ 0xFF)

end Sys2Proof.Reference
end

