-- ==== Sys2Proof/Certificates/Slice0/Obligations.lean ====
section
/-! DEFINITION. The statements for the provers, drawn from the numbered rules of spec/. -/

open Sys2Proof Sys2Proof.Machine Sys2Proof.Reference

/-! ### The commands, one by one -/

/-- 44_system.md R201, 42_rs_codewords.md R142, R144: `NOP` changes nothing, `BDCLR` empties the descriptor list (so that
BDCNT, TDC and TCW are 0), `BBCLR` empties the bit buffer; nothing else changes. -/
def Obligations.NopAndClearsComplete : Prop :=
  EncodingOf .nop 0x00 .Z [] ∧ EncodingOf .bdclr 0x30 .Z [] ∧ EncodingOf .bbclr 0x32 .Z [] ∧
  encode .nop = 0x00000000 ∧
  ∀ s : State,
    exec .nop s = .next s ∧
    (∃ t, exec .bdclr s = .next t ∧ t = { s with bd := [] } ∧ t.bdcnt = 0 ∧ t.tdc = 0 ∧ t.tcw = 0) ∧
    (∃ t, exec .bbclr s = .next t ∧ t = { s with bb := [] } ∧ t.bb.length = 0)

/-- 44_system.md R202: `RESET`, the word 0x01000000, gives every piece of state its reset value. It executes whether or not
the latch is set, and while the latch is set no other word does. That it keeps the constants is 10_state.md R24; that it keeps
the pending events and the reply is the model's choice (log entry 6), about fields that are the model's own (log entries 1 and
2). -/
def Obligations.ResetCommandRestoresResetState : Prop :=
  EncodingOf .reset 0x01 .Z [] ∧ encode .reset = 0x01000000 ∧
  ∀ s : State,
    (∃ t, exec .reset s = .next t ∧ AtReset t ∧ SameOutside s t ∧ issueCommand 0x01000000 s = .next t) ∧
    (s.err = true → ∀ w, w ≠ 0x01000000 → issueCommand w s = .next s)

/-- 44_system.md R203: `SETVER` accepts 1..40 and latches `InvalidArgument` otherwise, leaving VERSION. -/
def Obligations.SetverAcceptsOneToForty : Prop :=
  ∀ (imm : BitVec 16) (s : State),
    EncodingOf (.setver imm) 0x02 .V [] ∧ immField (encode (.setver imm)) = imm ∧
    (imm.toNat < 1 ∨ imm.toNat > 40 → Latches (.setver imm) s .invalidArgument) ∧
    (1 ≤ imm.toNat → imm.toNat ≤ 40 →
      ∃ v : BitVec 6, v.toNat = imm.toNat ∧ exec (.setver imm) s = .next { s with version := v })

/-- 44_system.md R204, 30_encoding.md R73 (a): `LI` writes the sign-extended immediate: `imm16` below 0x8000, and
`imm16 + 0xFFFF0000` otherwise. -/
def Obligations.LiLoadsSignExtendedImmediate : Prop :=
  ∀ (rd : SReg) (imm : BitVec 16) (s : State),
    EncodingOf (.li rd imm) 0x03 .I [rd] ∧ immField (encode (.li rd imm)) = imm ∧
    ∃ v : Word, v.toNat = (if imm.toNat < 0x8000 then imm.toNat else imm.toNat + 0xFFFF0000) ∧
      exec (.li rd imm) s = .next (s.setReg rd v)

/-- 40_gf_scalar.md R96: `GFLOG` latches `InvalidArgument` above 255 and `LogOfZero` at 0, and otherwise writes `LOG[v]`,
the exponent in 0..254 whose `EXP` entry is `v`. -/
def Obligations.GflogWritesTheLogarithm : Prop :=
  ∀ (rd rs : SReg) (s : State), ValidConfig s.config →
    EncodingOf (.gflog rd rs) 0x10 .R2 [rd, rs] ∧
    (s.num rs > 255 → Latches (.gflog rd rs) s .invalidArgument) ∧
    (s.num rs = 0 → Latches (.gflog rd rs) s .logOfZero) ∧
    (1 ≤ s.num rs → s.num rs ≤ 255 →
      ∃ l < 255, s.config.log[s.num rs - 1]? = some (BitVec.ofNat 8 l) ∧ (s.config.exp.getD l 0).toNat = s.num rs ∧
        exec (.gflog rd rs) s = .next (s.setReg rd (wordOf l)))

/-- 40_gf_scalar.md R97, R92: `GFEXP` reads its register as a signed number, reduces it by adding or subtracting 255 into
0..254 and writes that `EXP` entry, which is never 0. It never faults. -/
def Obligations.GfexpWritesThePower : Prop :=
  ∀ (rd rs : SReg) (s : State), ValidConfig s.config →
    EncodingOf (.gfexp rd rs) 0x11 .R2 [rd, rs] ∧
    ∃ k : Nat, k < 255 ∧ (255 : Int) ∣ (if s.num rs < 2 ^ 31 then (s.num rs : Int) else (s.num rs : Int) - 2 ^ 32) - (k : Int) ∧
      s.config.exp.getD k 0 ≠ 0 ∧
      exec (.gfexp rd rs) s = .next (s.setReg rd (wordOf (s.config.exp.getD k 0).toNat))

/-- 40_gf_scalar.md R98: `GFMUL` latches `InvalidArgument` for an operand above 255, the first one first; otherwise it
writes 0 if a factor is 0, and else `EXP[(LOG[x] + LOG[y]) mod 255]`. -/
def Obligations.GfmulWritesTheProduct : Prop :=
  ∀ (rd rs1 rs2 : SReg) (s : State), ValidConfig s.config →
    EncodingOf (.gfmul rd rs1 rs2) 0x12 .R3 [rd, rs1, rs2] ∧
    (s.num rs1 > 255 → Latches (.gfmul rd rs1 rs2) s .invalidArgument) ∧
    (s.num rs2 > 255 → Latches (.gfmul rd rs1 rs2) s .invalidArgument) ∧
    (s.num rs1 ≤ 255 → s.num rs2 ≤ 255 →
      ∃ v : Byte, exec (.gfmul rd rs1 rs2) s = .next (s.setReg rd (wordOf v.toNat)) ∧
        (s.num rs1 = 0 ∨ s.num rs2 = 0 → v = 0) ∧
        ∀ i < 255, ∀ j < 255, (s.config.exp.getD i 0).toNat = s.num rs1 → (s.config.exp.getD j 0).toNat = s.num rs2 →
          v = s.config.exp.getD ((i + j) % 255) 0)

/-- 41_polynomial.md R117: `PLD`'s three faults in their order, and otherwise the normalised list of the `n` bytes at the
address. -/
def Obligations.PldLoadsNormalisedBytes : Prop :=
  ∀ (pd : PReg) (ra rn : SReg) (s : State),
    EncodingOf (.pld pd ra rn) 0x20 .R3 [pd, ra, rn] ∧
    (s.num rn = 0 → Latches (.pld pd ra rn) s .invalidArgument) ∧
    (s.num rn > 256 → Latches (.pld pd ra rn) s .lengthOverflow) ∧
    (1 ≤ s.num rn → s.num rn ≤ 256 → s.num ra + s.num rn > 8192 → Latches (.pld pd ra rn) s .addressRange) ∧
    (1 ≤ s.num rn → s.num rn ≤ 256 → s.num ra + s.num rn ≤ 8192 →
      exec (.pld pd ra rn) s = .next (s.setPoly pd (pnorm (bytesFrom s (s.num ra) (s.num rn)))))

/-- 41_polynomial.md R118: `PST`'s two faults in their order, and otherwise the polynomial right-aligned in `n` bytes, zeros
before it. -/
def Obligations.PstStoresRightAligned : Prop :=
  ∀ (ra : SReg) (ps : PReg) (rn : SReg) (s : State), Memory.wf s.mem →
    EncodingOf (.pst ra ps rn) 0x21 .R3 [ra, ps, rn] ∧
    ((s.poly ps).length > s.num rn → Latches (.pst ra ps rn) s .invalidArgument) ∧
    ((s.poly ps).length ≤ s.num rn → s.num ra + s.num rn > 8192 → Latches (.pst ra ps rn) s .addressRange) ∧
    ((s.poly ps).length ≤ s.num rn → s.num ra + s.num rn ≤ 8192 →
      ∃ t, exec (.pst ra ps rn) s = .next t ∧ t = { s with mem := t.mem } ∧
        (∀ k < s.num rn - (s.poly ps).length, t.byteAt (s.num ra + k) = 0) ∧
        (∀ k < (s.poly ps).length,
          t.byteAt (s.num ra + (s.num rn - (s.poly ps).length) + k) = (s.poly ps).getD k 0) ∧
        SameBytesOutside (s.num ra) (s.num rn) s t)

/-- 41_polynomial.md R119: `PLEN` writes the length, 1..256 for a polynomial register's content. -/
def Obligations.PlenWritesTheLength : Prop :=
  ∀ (rd : SReg) (ps : PReg) (s : State), PolyRegister (s.poly ps) →
    EncodingOf (.plen rd ps) 0x22 .R2 [rd, ps] ∧
    ∃ v : Word, v.toNat = (s.poly ps).length ∧ 1 ≤ v.toNat ∧ v.toNat ≤ 256 ∧
      exec (.plen rd ps) s = .next (s.setReg rd v)

/-- 41_polynomial.md R120, R111: `PMUL` latches `LengthOverflow` when the product would have more than 256 coefficients, and
otherwise writes the normalised result of the two loops of the rule. With valid tables it completes whenever the product
fits. -/
def Obligations.PmulWritesTheLoopsProduct : Prop :=
  ∀ (pd pa pb : PReg) (s : State), ValidConfig s.config → PolyRegister (s.poly pa) → PolyRegister (s.poly pb) →
    EncodingOf (.pmul pd pa pb) 0x23 .R3 [pd, pa, pb] ∧
    ((s.poly pa).length + (s.poly pb).length - 1 > 256 → Latches (.pmul pd pa pb) s .lengthOverflow) ∧
    ((s.poly pa).length + (s.poly pb).length - 1 ≤ 256 →
      exec (.pmul pd pa pb) s = .next (s.setPoly pd (pnorm (pmulLoops s.config (s.poly pa) (s.poly pb)))))

/-- 41_polynomial.md R121, R112: `PMOD` latches `LogOfZero` for the divisor `[0]`, and otherwise writes what the loop of the
rule returns. -/
def Obligations.PmodWritesTheLoopsRemainder : Prop :=
  ∀ (pd pa pb : PReg) (s : State), ValidConfig s.config → PolyRegister (s.poly pa) → PolyRegister (s.poly pb) →
    EncodingOf (.pmod pd pa pb) 0x24 .R3 [pd, pa, pb] ∧
    (s.poly pb = [0] → Latches (.pmod pd pa pb) s .logOfZero) ∧
    (s.poly pb ≠ [0] →
      ∃ r, Remainder s.config (s.poly pb) (s.poly pa) r ∧ exec (.pmod pd pa pb) s = .next (s.setPoly pd r))

/-- 41_polynomial.md R122, R113: `PSHL` latches `LengthOverflow` for a nonzero polynomial that would have more than 256
coefficients; otherwise it appends `n` zeros, and the zero polynomial stays `[0]` for every `n`. -/
def Obligations.PshlAppendsZeros : Prop :=
  ∀ (pd pa : PReg) (rn : SReg) (s : State),
    EncodingOf (.pshl pd pa rn) 0x25 .R3 [pd, pa, rn] ∧
    (s.poly pa ≠ [0] → (s.poly pa).length + s.num rn > 256 → Latches (.pshl pd pa rn) s .lengthOverflow) ∧
    (s.poly pa ≠ [0] → (s.poly pa).length + s.num rn ≤ 256 →
      exec (.pshl pd pa rn) s = .next (s.setPoly pd (s.poly pa ++ List.replicate (s.num rn) 0))) ∧
    (s.poly pa = [0] → exec (.pshl pd pa rn) s = .next (s.setPoly pd [0]))

/-- 41_polynomial.md R123, R114: `PGEN` latches `LengthOverflow` for `n` above 255, and otherwise writes the product of the
rule's loop, of length `n + 1` and leading coefficient 1. -/
def Obligations.PgenWritesTheGenerator : Prop :=
  ∀ (pd : PReg) (rn : SReg) (s : State), ValidConfig s.config →
    EncodingOf (.pgen pd rn) 0x26 .R2 [pd, rn] ∧
    (s.num rn > 255 → Latches (.pgen pd rn) s .lengthOverflow) ∧
    (s.num rn ≤ 255 →
      exec (.pgen pd rn) s = .next (s.setPoly pd (pgenLoop s.config (s.num rn))) ∧
      (pgenLoop s.config (s.num rn)).length = s.num rn + 1 ∧ (pgenLoop s.config (s.num rn)).headD 0 = 1)

/-- 42_rs_codewords.md R143: `BDADD`'s faults in their order, and otherwise `count` equal descriptors at the end of the
list. -/
def Obligations.BdaddAppendsDescriptors : Prop :=
  ∀ (count total data : Byte) (s : State),
    EncodingOf (.bdadd count total data) 0x31 .B [] ∧
    (countField (encode (.bdadd count total data)) = count ∧ totalField (encode (.bdadd count total data)) = total ∧
      dataField (encode (.bdadd count total data)) = data) ∧
    (count.toNat = 0 ∨ data.toNat = 0 ∨ data.toNat ≥ total.toNat →
      Latches (.bdadd count total data) s .invalidArgument) ∧
    (1 ≤ count.toNat → 1 ≤ data.toNat → data.toNat < total.toNat → s.bd.length + count.toNat > 128 →
      Latches (.bdadd count total data) s .lengthOverflow) ∧
    (1 ≤ count.toNat → 1 ≤ data.toNat → data.toNat < total.toNat → s.bd.length + count.toNat ≤ 128 →
      exec (.bdadd count total data) s =
        .next { s with bd := s.bd ++ List.replicate count.toNat { total := total, data := data } })

/-- 42_rs_codewords.md R145: `BBPUT`'s faults in their order, and otherwise the `n` low bits appended, most significant
first. -/
def Obligations.BbputAppendsBits : Prop :=
  ∀ (rv rn : SReg) (s : State),
    EncodingOf (.bbput rv rn) 0x33 .R2 [rv, rn] ∧
    (s.num rn > 32 → Latches (.bbput rv rn) s .invalidArgument) ∧
    (s.num rn ≤ 32 → s.num rv ≥ 2 ^ s.num rn → Latches (.bbput rv rn) s .invalidArgument) ∧
    (s.num rn ≤ 32 → s.num rv < 2 ^ s.num rn → s.bb.length + s.num rn > 32768 →
      Latches (.bbput rv rn) s .lengthOverflow) ∧
    (s.num rn ≤ 32 → s.num rv < 2 ^ s.num rn → s.bb.length + s.num rn ≤ 32768 →
      exec (.bbput rv rn) s = .next { s with bb := s.bb ++ bitsMsb (s.num rv) (s.num rn) })

/-- 42_rs_codewords.md R150, R146, R147: `SEGADD`'s faults in their order, and otherwise the mode indicator in 4 bits, the
length in 8 or 16 bits and the payload bytes appended. -/
def Obligations.SegaddAppendsASegment : Prop :=
  ∀ (ra rn : SReg) (s : State) (w : Nat), w = (if s.version.toNat ≤ 9 then 8 else 16) →
    EncodingOf (.segadd ra rn) 0x34 .R2 [ra, rn] ∧
    (s.version = 0 → Latches (.segadd ra rn) s .invalidArgument) ∧
    (s.version ≠ 0 → s.num rn ≥ 2 ^ w → Latches (.segadd ra rn) s .invalidArgument) ∧
    (s.version ≠ 0 → s.num rn < 2 ^ w → s.bb.length + 4 + w + 8 * s.num rn > 32768 →
      Latches (.segadd ra rn) s .lengthOverflow) ∧
    (s.version ≠ 0 → s.num rn < 2 ^ w → s.bb.length + 4 + w + 8 * s.num rn ≤ 32768 →
      s.num ra + s.num rn > 8192 → Latches (.segadd ra rn) s .addressRange) ∧
    (s.version ≠ 0 → s.num rn < 2 ^ w → s.bb.length + 4 + w + 8 * s.num rn ≤ 32768 →
      s.num ra + s.num rn ≤ 8192 →
      exec (.segadd ra rn) s = .next { s with bb := s.bb ++ bitsMsb s.config.modeByte.toNat 4 ++ bitsMsb (s.num rn) w ++
        (bytesFrom s (s.num ra) (s.num rn)).flatMap fun b => bitsMsb b.toNat 8 })

/-- 42_rs_codewords.md R152, R151: `FRAME`'s faults in their order, and otherwise the buffer extended to `8 TDC` bits: its
own bits first, zero bits up to the end of step 5, then the pad bytes 0xEC and 0x11 in turn. -/
def Obligations.FramePadsToCapacity : Prop :=
  ∀ s : State,
    EncodingOf .frame 0x35 .Z [] ∧
    (s.bdcnt = 0 → Latches .frame s .invalidArgument) ∧
    (s.bdcnt ≠ 0 → 8 * s.tdc > 32768 → Latches .frame s .lengthOverflow) ∧
    (s.bdcnt ≠ 0 → 8 * s.tdc ≤ 32768 → s.bb.length > 8 * s.tdc → Latches .frame s .capacityExceeded) ∧
    (s.bdcnt ≠ 0 → 8 * s.tdc ≤ 32768 → s.bb.length ≤ 8 * s.tdc →
      ∃ bits, exec .frame s = .next { s with bb := bits } ∧ bits.length = 8 * s.tdc ∧
        bits.take s.bb.length = s.bb ∧
        (∀ k, s.bb.length ≤ k → k < padStart s.bb.length s.tdc → bits.getD k true = false) ∧
        (∀ b j, padStart s.bb.length s.tdc / 8 + b < s.tdc → j < 8 →
          bits.getD (padStart s.bb.length s.tdc + 8 * b + j) false =
            (if b % 2 = 0 then 0xEC else 0x11 : Byte).getLsbD (7 - j)))

/-- 42_rs_codewords.md R155: `BBST` latches `AddressRange` if the bytes do not fit, and otherwise stores the buffer's bytes,
the first bit as bit 7 of the first byte, missing low bits of the last byte 0. -/
def Obligations.BbstStoresTheBits : Prop :=
  ∀ (ra : SReg) (s : State) (nb : Nat), Memory.wf s.mem → nb = (s.bb.length + 7) / 8 →
    EncodingOf (.bbst ra) 0x36 .R1 [ra] ∧
    (s.num ra + nb > 8192 → Latches (.bbst ra) s .addressRange) ∧
    (s.num ra + nb ≤ 8192 →
      ∃ t, exec (.bbst ra) s = .next t ∧ t = { s with mem := t.mem } ∧
        (∀ i < nb, ∀ j < 8, (t.byteAt (s.num ra + i)).getLsbD (7 - j) = s.bb.getD (8 * i + j) false) ∧
        SameBytesOutside (s.num ra) nb s t)

/-- 42_rs_codewords.md R160, R158: `RSECC`'s faults in their order, and otherwise the remainder of the shifted data by the
generator polynomial, right-aligned in `e` bytes. -/
def Obligations.RseccStoresTheRemainder : Prop :=
  ∀ (rdst rsrc rk re : SReg) (s : State), ValidConfig s.config → Memory.wf s.mem →
    EncodingOf (.rsecc rdst rsrc rk re) 0x37 .R4 [rdst, rsrc, rk, re] ∧
    (s.num rk = 0 ∨ s.num re = 0 ∨ s.num rk + s.num re > 255 → Latches (.rsecc rdst rsrc rk re) s .invalidArgument) ∧
    (1 ≤ s.num rk → 1 ≤ s.num re → s.num rk + s.num re ≤ 255 →
      s.num rsrc + s.num rk > 8192 ∨ s.num rdst + s.num re > 8192 → Latches (.rsecc rdst rsrc rk re) s .addressRange) ∧
    (1 ≤ s.num rk → 1 ≤ s.num re → s.num rk + s.num re ≤ 255 →
      s.num rsrc + s.num rk ≤ 8192 → s.num rdst + s.num re ≤ 8192 →
      ∃ r t, Remainder s.config (pgen s.config (s.num re))
          (pshl (pnorm (bytesFrom s (s.num rsrc) (s.num rk))) (s.num re)) r ∧ r.length ≤ s.num re ∧
        exec (.rsecc rdst rsrc rk re) s = .next t ∧ t = { s with mem := t.mem } ∧
        bytesFrom t (s.num rdst) (s.num re) = List.replicate (s.num re - r.length) 0 ++ r ∧
        SameBytesOutside (s.num rdst) (s.num re) s t)

/-- 42_rs_codewords.md R165, R156, R159: `CWGEN`'s faults in their order, and otherwise the blocks' data codewords
interleaved by the rule's loops, then the blocks' error-correction codewords, all read before any byte is written. -/
def Obligations.CwgenStoresTheStream : Prop :=
  ∀ (rdst rsrc : SReg) (s : State), ValidConfig s.config → Memory.wf s.mem → (∀ b ∈ s.bd, LegalBlock b) →
    EncodingOf (.cwgen rdst rsrc) 0x38 .R2 [rdst, rsrc] ∧
    (s.bdcnt = 0 → Latches (.cwgen rdst rsrc) s .invalidArgument) ∧
    (s.bdcnt ≠ 0 → s.num rsrc + s.tdc > 8192 ∨ s.num rdst + s.tcw > 8192 →
      Latches (.cwgen rdst rsrc) s .addressRange) ∧
    (s.bdcnt ≠ 0 → s.num rsrc + s.tdc ≤ 8192 → s.num rdst + s.tcw ≤ 8192 →
      ∃ t, exec (.cwgen rdst rsrc) s = .next t ∧ t = { s with mem := t.mem } ∧
        bytesFrom t (s.num rdst) s.tcw =
          interleaveLoops (blocksFrom s (s.num rsrc)) ++ interleaveLoops (eccFrom s (s.num rsrc)) ∧
        SameBytesOutside (s.num rdst) s.tcw s t)

/-- 43_bch.md R182, R185: `BCHFMT` latches `InvalidArgument` for a level above 3 and for a mask above 7; otherwise it writes
the masked codeword of the 5-bit payload, which is the entry of the rule's table. -/
def Obligations.BchfmtWritesTheFormatField : Prop :=
  ∀ (rd rl rm : SReg) (s : State),
    EncodingOf (.bchfmt rd rl rm) 0x40 .R3 [rd, rl, rm] ∧
    (s.num rl > 3 → Latches (.bchfmt rd rl rm) s .invalidArgument) ∧
    (s.num rm > 7 → Latches (.bchfmt rd rl rm) s .invalidArgument) ∧
    (s.num rl ≤ 3 → s.num rm ≤ 7 →
      ∃ p r v, p = (s.num rl <<< 3) ||| s.num rm ∧ r = bchrem p 10 1335 ∧ r < 1024 ∧
        v = ((p <<< 10) ||| r) ^^^ 21522 ∧ v < 2 ^ 15 ∧ v = (formatTable.getD (s.num rl) []).getD (s.num rm) 0 ∧
        exec (.bchfmt rd rl rm) s = .next (s.setReg rd (wordOf v)))

/-- 43_bch.md R183, R185: `BCHVER` latches `InvalidArgument` below version 7; otherwise it writes the unmasked codeword of the
6-bit version, which is the entry of the rule's table. -/
def Obligations.BchverWritesTheVersionField : Prop :=
  ∀ (rd : SReg) (s : State), s.version.toNat ≤ 40 →
    EncodingOf (.bchver rd) 0x41 .R1 [rd] ∧
    (s.version.toNat < 7 → Latches (.bchver rd) s .invalidArgument) ∧
    (7 ≤ s.version.toNat →
      ∃ r v, r = bchrem s.version.toNat 12 7973 ∧ r < 4096 ∧ v = (s.version.toNat <<< 12) ||| r ∧ v < 2 ^ 18 ∧
        v = versionTable.getD (s.version.toNat - 7) 0 ∧ exec (.bchver rd) s = .next (s.setReg rd (wordOf v)))

/-! ### Encoding -/

/-- 30_encoding.md R71, R72, R73, R74, R77: the decoder reads every command back from its word, every operand at every
value its field admits, and from that one word only: no bit of a word is ignored, and no two words are one command. -/
def Obligations.DecodeAndEncodeAgree : Prop := ∀ (w : Word) (i : Instr), decode w = .ok i ↔ encode i = w

/-- 30_encoding.md R75, R78: a word is a command exactly if a row of the opcode table matches it, the command is the row's,
and no other row matches. -/
def Obligations.DecodeFollowsTheOpcodeTable : Prop :=
  ∀ w : Word,
    ((∃ i, decode w = .ok i) ↔ ∃ r ∈ opcodeTable, r.selects w) ∧
    (∀ i, decode w = .ok i → ∀ r ∈ opcodeTable, r.selects w → r.mnemonic = i.mnemonic) ∧
    (∀ r ∈ opcodeTable, ∀ q ∈ opcodeTable, r.selects w → q.selects w → r = q)

/-- 30_encoding.md R81: some of the words of the rule's table are the commands it lists them for. -/
def Obligations.SampleWordsDecodeAsListed : Prop :=
  decode 0x02000028 = .ok (.setver 40) ∧ decode 0x0360FFFF = .ok (.li 3 0xFFFF) ∧
  decode 0x12A50000 = .ok (.gfmul 5 1 2) ∧ decode 0x216A0000 = .ok (.pst 3 2 4) ∧
  decode 0x25828000 = .ok (.pshl 4 0 5) ∧ decode 0x3102210F = .ok (.bdadd 2 33 15) ∧
  decode 0x376A5000 = .ok (.rsecc 3 2 4 5) ∧ decode 0x41E00000 = .ok (.bchver 7)

/-- 30_encoding.md R79: every command is assembled from the form it is written in, and that form passes the assembler's
checks. -/
def Obligations.AssembleOfDisassemble : Prop :=
  ∀ i : Instr, (disassemble i).wellFormed = true ∧ assemble (disassemble i) = some i

/-! ### The step -/

/-- 20_memory.md R60, 00_scope.md R18: when the host's next access writes a word to CMD, the step is what the unit does with
that word, on the state from which the access has been taken; and when the latch is clear and the word decodes to a command,
the step is that command's. The placement of a word for the next step is such an access. That the host's next accesses stand
in the state is the model's choice (log entry 1). -/
def Obligations.StepRunsTheDecodedCommand : Prop :=
  ∀ (s : State) (w : Word) (i : Instr) (rest : List Event), CommandNext s w rest →
    step s = issueCommand w { s with pending := rest, reply := none } ∧
    (s.err = false → decode w = .ok i → step s = exec i { s with pending := rest, reply := none }) ∧
    CommandNext (s.withFetchWord 32 w.toNat) w s.pending

/-- 30_encoding.md R76, R77, R78: with the latch clear, a word with a reserved opcode, and every other word that no row of
the table matches, latches `IllegalCommand` with itself in EINFO. -/
def Obligations.IllegalWordsLatchIllegalCommand : Prop :=
  ∀ (s : State) (w : Word), s.err = false →
    (ReservedOpcode (w.toNat / 2 ^ 24) → issueCommand w s = .next { s with err := true, cause := 4, einfo := w }) ∧
    ((∀ r ∈ opcodeTable, ¬ r.selects w) → issueCommand w s = .next { s with err := true, cause := 4, einfo := w })

/-- 60_exceptions.md R224: while the latch is set, every command word but 0x01000000 is dropped: no state of the unit
changes. The form of the host's next access is the model's (log entry 1). -/
def Obligations.LatchedUnitDropsCommands : Prop :=
  ∀ (s : State) (w : Word) (rest : List Event), CommandNext s w rest → s.err = true → w ≠ 0x01000000 →
    step s = .next { s with pending := rest, reply := none }

/-- 70_reset_and_hazards.md R245, R246, 60_exceptions.md R225: the RESET word and the hardware reset put the unit, latched or
not, into the same reset state. The form of the two events is the model's (log entries 1 and 6). -/
def Obligations.BothResetCausesResetTheUnit : Prop :=
  ∀ (s : State) (rest : List Event) (s1 s2 : State),
    s1 = { s with pending := .access (.write 0x000 (.word 0x01000000)) :: rest } →
    s2 = { s with pending := .hardwareReset :: rest } →
    ∃ t, step s1 = .next t ∧ step s2 = .next t ∧ AtReset t ∧ t.config = s.config ∧ t.pending = rest

/-- 20_memory.md R57, R58, 10_state.md R34, R36: what the host reads at the offset of each register; the unit does not
change. The form of an access and of its reply is the model's (log entries 1 and 2). -/
def Obligations.HostReadsTheRegisterMap : Prop :=
  ∀ s : State,
    ReadsAs s 0x004 (wordOf ((if s.err then 1 else 0) + 16 * s.cause.toNat)) ∧
    ReadsAs s 0x008 s.einfo ∧
    ReadsAs s 0x00C (wordOf s.version.toNat) ∧
    ReadsAs s 0x010 (wordOf s.bb.length) ∧
    ReadsAs s 0x014 (wordOf s.bd.length) ∧
    ReadsAs s 0x018 (wordOf (s.bd.map fun b => b.data.toNat).sum) ∧
    ReadsAs s 0x01C (wordOf (s.bd.map fun b => b.total.toNat).sum) ∧
    (∀ i : Fin 8, ReadsAs s (0x020 + 4 * i.val) (s.reg i)) ∧
    (∀ i : Fin 8, ReadsAs s (0x040 + 4 * i.val) (wordOf (s.poly i).length)) ∧
    (∀ j, (h : j < s.bd.length) → j < 128 →
      ReadsAs s (0x100 + 4 * j) (wordOf (256 * s.bd[j].total.toNat + s.bd[j].data.toNat))) ∧
    (∀ j, s.bd.length ≤ j → j < 128 → ReadsAs s (0x100 + 4 * j) 0)

/-- 20_memory.md R56, R59: through the window the host reads any byte of the scratchpad and changes nothing, and writes any
byte and changes nothing else, whether or not the latch is set. The form of an access and of its reply is the model's (log
entries 1 and 2). -/
def Obligations.HostWindowReadsAndWritesBytes : Prop :=
  ∀ (s : State) (a : Nat) (v : Byte) (rest : List Event), Memory.wf s.mem → a < 8192 →
    step { s with pending := .access (.read (0x2000 + a) .byte) :: rest } =
      .next { s with pending := rest, reply := some (.byte (s.byteAt a)) } ∧
    ∃ t, step { s with pending := .access (.write (0x2000 + a) (.byte v)) :: rest } = .next t ∧
      t = { s with pending := rest, reply := none, mem := t.mem } ∧ t.byteAt a = v ∧
      ∀ x, x ≠ a → t.byteAt x = s.byteAt x

/-- 20_memory.md R61: every other host access is refused. Which accesses there are to refuse is the model's form of an access
(log entry 7). -/
def Obligations.OtherHostAccessesAreRefused : Prop :=
  ∀ (s : State) (b : BusAccess) (rest : List Event), s.pending = .access b :: rest → ¬ HostAllowed b →
    step s = .refused .hostAccessOutsideInterface

/-- 60_exceptions.md R237: with no access pending the unit is idle and holds its state. That the step then answers
the state itself is the model's choice (log entry 1). -/
def Obligations.IdleUnitHoldsItsState : Prop := ∀ s : State, s.pending = [] → step s = .next s

/-! ### Faults -/

/-- 60_exceptions.md R222, R223: a command that answers a next state has left STATUS and EINFO alone, or has latched a fault
with its own word and changed nothing else, or is RESET. -/
def Obligations.FaultsArePrecise : Prop :=
  ∀ (i : Instr) (s t : State), exec i s = .next t →
    SameLatch s t ∨ (∃ c, t = { s with err := true, cause := Cause.code c, einfo := encode i }) ∨ i = .reset

/-- 00_scope.md R19, 70_reset_and_hazards.md R251: from every state that keeps the invariant every command's step ends in a
next state. -/
def Obligations.EveryCommandEnds : Prop := ∀ (i : Instr) (s : State), Inv s → ∃ t, exec i s = .next t

/-- 00_scope.md R19, 20_memory.md R55, R61: from every state that keeps the invariant a step answers a next state, unless the
host left its interface, which is refused (log entry 7); no step reaches outside the scratchpad. -/
def Obligations.StepStopsOnlyOutsideTheInterface : Prop :=
  ∀ s : State, Inv s →
    (∃ t, step s = .next t) ∨
    (step s = .refused .hostAccessOutsideInterface ∧ ∃ b rest, s.pending = .access b :: rest ∧ ¬ HostAllowed b)

/-! ### Invariants -/

/-- 10_state.md R40: the state after reset reads as the rule's table says. That it keeps the invariant, which is this model's,
is derived from 10_state.md R21, R22, R30 to R38. That its parameters and tables are the spec's defaults (00_scope.md R10,
10_state.md R25, values the spec marks as general knowledge) is the model's choice (log entry 3). -/
def Obligations.ResetStateKeepsTheInvariant : Prop :=
  Inv State.reset ∧ AtReset State.reset ∧ State.reset.config = defaultConfig

/-- 10_state.md R30, R31, R33, R35, R36, R37, R38: every step keeps the invariant. -/
def Obligations.StepKeepsTheInvariant : Prop := ∀ s t : State, Inv s → step s = .next t → Inv t

/-- 10_state.md R24: no step changes the constant tables or the parameters, and a step takes at most the oldest pending
event. The list of events is the model's (log entry 1). -/
def Obligations.StepKeepsTheConstants : Prop :=
  ∀ s t : State, step s = .next t → t.config = s.config ∧ t.pending = s.pending.tail

/-! ### The field -/

/-- 10_state.md R23: the four properties of the tables, from R21 and R22. -/
def Obligations.GaloisTablesAreInverse : Prop :=
  ∀ c : Config, ValidConfig c →
    (∀ x : Byte, x ≠ 0 → ∃ l < 255, glog c x = some l ∧ c.exp.getD l 0 = x) ∧
    (∀ i < 255, glog c (c.exp.getD i 0) = some i) ∧
    (c.exp.getD 255 0 = c.exp.getD 0 0 ∧ c.exp.getD 0 0 = 1) ∧
    (∀ i ≤ 255, c.exp.getD i 0 ≠ 0)

/-- 40_gf_scalar.md R95: the field laws, with every valid pair of tables. -/
def Obligations.GmulObeysTheFieldLaws : Prop :=
  ∀ c : Config, ValidConfig c → ∀ x y z : Byte,
    gmul c x y = gmul c y x ∧ gmul c x (gmul c y z) = gmul c (gmul c x y) z ∧ gmul c x 1 = x ∧ gmul c x 0 = 0 ∧
    gmul c x (gadd y z) = gadd (gmul c x y) (gmul c x z) ∧ (gmul c x y = 0 → x = 0 ∨ y = 0) ∧
    (x ≠ 0 → ∃ l : Nat, glog c x = some l ∧ gmul c x (gexp c (-(l : Int))) = 1) ∧
    gmul c x y = clmul c.fieldPoly x y

/-! ### Polynomials -/

/-- 41_polynomial.md R110: `pnorm` removes exactly the leading zeros, keeps one element, and leaves a normalised list
unchanged. -/
def Obligations.PnormRemovesLeadingZeros : Prop :=
  (∀ (k : Nat) (x : Byte) (t : Poly), x ≠ 0 → pnorm (List.replicate k 0 ++ x :: t) = x :: t) ∧
  (∀ k : Nat, pnorm (List.replicate (k + 1) 0) = [0]) ∧
  (∀ p : Poly, Normalised (pnorm p)) ∧ (∀ p : Poly, Normalised p → pnorm p = p)

/-- 41_polynomial.md R115 (b): division with remainder: a quotient exists, and the remainder is shorter than the divisor, or
`[0]` for a constant divisor. -/
def Obligations.PmodIsDivisionRemainder : Prop :=
  ∀ (c : Config) (a b : Poly), ValidConfig c → Normalised a → Normalised b → b ≠ [0] →
    (∃ q, Normalised q ∧ a = padd (pmul c q b) (pmod c a b)) ∧
    (2 ≤ b.length → (pmod c a b).length < b.length) ∧ (b.length = 1 → pmod c a b = [0]) ∧
    (a.length < b.length → pmod c a b = a)

/-- 41_polynomial.md R115 (c): a multiple of `b` has remainder `[0]`. -/
def Obligations.MultiplesHaveZeroRemainder : Prop :=
  ∀ (c : Config) (q b : Poly), ValidConfig c → Normalised q → Normalised b → b ≠ [0] →
    pmod c (pmul c q b) b = [0]

/-! ### Codewords -/

/-- 42_rs_codewords.md R158: a block's data followed by its error-correction codewords is a multiple of the generator
polynomial, and there are exactly `e` of them. -/
def Obligations.CodewordsAreMultiplesOfTheGenerator : Prop :=
  ∀ (c : Config) (D : List Byte) (e : Nat), ValidConfig c → D ≠ [] → 1 ≤ e →
    (rsecc c D e).length = e ∧ pmod c (pnorm (D ++ rsecc c D e)) (pgen c e) = [0]

/-- 42_rs_codewords.md R153: `FRAME` succeeds exactly if a block list is loaded, its capacity fits the buffer, and the bits
fit the capacity. -/
def Obligations.FrameSucceedsExactlyWithinCapacity : Prop :=
  ∀ s : State, s.err = false →
    ((∃ t, exec .frame s = .next t ∧ t.err = false) ↔
      1 ≤ s.bdcnt ∧ 8 * s.tdc ≤ 32768 ∧ s.bb.length ≤ 8 * s.tdc)

/-- 42_rs_codewords.md R166: the stream has exactly TCW bytes and its first TDC are a permutation of the data
codewords. -/
def Obligations.StreamIsDataThenEcc : Prop :=
  ∀ (c : Config) (bd : List Block) (data : List Byte), ValidConfig c → (∀ b ∈ bd, LegalBlock b) →
    data.length = (bd.map fun b => b.data.toNat).sum →
    (codewordStream c bd data).length = (bd.map fun b => b.total.toNat).sum ∧
    ((codewordStream c bd data).take data.length).Perm data

/-- 42_rs_codewords.md R166: `CWGEN`'s output depends on the data codewords, the descriptor list and the tables alone: the
two states may differ in everything else, the three parameters among it. -/
def Obligations.StreamDependsOnItsInputsAlone : Prop :=
  ∀ (rdst rsrc rdst' rsrc' : SReg) (s s' : State), ValidConfig s.config → (∀ b ∈ s.bd, LegalBlock b) →
    Memory.wf s.mem → Memory.wf s'.mem → s'.config.exp = s.config.exp → s'.config.log = s.config.log →
    s'.bd = s.bd → s.bdcnt ≠ 0 →
    s.num rsrc + s.tdc ≤ 8192 → s.num rdst + s.tcw ≤ 8192 → s'.num rsrc' + s.tdc ≤ 8192 → s'.num rdst' + s.tcw ≤ 8192 →
    (∀ k < s.tdc, s'.byteAt (s'.num rsrc' + k) = s.byteAt (s.num rsrc + k)) →
    ∃ t t', exec (.cwgen rdst rsrc) s = .next t ∧ exec (.cwgen rdst' rsrc') s' = .next t' ∧
      ∀ k < s.tcw, t'.byteAt (s'.num rdst' + k) = t.byteAt (s.num rdst + k)

/-! ### BCH -/

/-- 43_bch.md R180: `bchrem(v, s, g)` is the remainder of `v x^s` by `g` over GF(2). -/
def Obligations.BchremIsTheBinaryRemainder : Prop :=
  ∀ v s g : Nat, 1 ≤ g →
    (∃ q, v <<< s = clmulNat q g ^^^ bchrem v s g) ∧ bchrem v s g < 2 ^ (bitlen g - 1) ∧ bchrem 0 s g = 0

/-- 43_bch.md R184: what `BCHFMT` writes, unmasked, and what `BCHVER` writes have remainder 0 and carry their payload in the
high bits, and so does every payload followed by its remainder. -/
def Obligations.BchFieldsAreCodewords : Prop :=
  (∀ (rd rl rm : SReg) (s : State), s.num rl ≤ 3 → s.num rm ≤ 7 →
    ∃ f, exec (.bchfmt rd rl rm) s = .next (s.setReg rd (wordOf f)) ∧ f < 2 ^ 15 ∧
      bchrem (f ^^^ 21522) 0 1335 = 0 ∧ (f ^^^ 21522) >>> 10 = (s.num rl <<< 3) ||| s.num rm) ∧
  (∀ (rd : SReg) (s : State), 7 ≤ s.version.toNat → s.version.toNat ≤ 40 →
    ∃ u, exec (.bchver rd) s = .next (s.setReg rd (wordOf u)) ∧ u < 2 ^ 18 ∧
      bchrem u 0 7973 = 0 ∧ u >>> 12 = s.version.toNat) ∧
  (∀ p s g : Nat, bitlen g = s + 1 → bchrem ((p <<< s) ||| bchrem p s g) 0 g = 0)

/-! ### Frames -/

/-- 10_state.md R26, R28: `LI GFLOG GFEXP GFMUL PLEN BCHFMT BCHVER` write their destination register `rd` and nothing else,
or fault and change STATUS and EINFO alone. -/
def Obligations.ScalarCommandFrame : Prop :=
  ∀ (i : Instr) (rd : SReg) (s t : State), scalarDest i = some rd → exec i s = .next t →
    SameScalarsBut rd s t ∧ SamePolys s t ∧ SameLists s t ∧ SameBytes s t ∧ SameOutside s t ∧ CleanOrLatched i s t

/-- 41_polynomial.md R116, 42_rs_codewords.md R141, 44_system.md R201, R203: `PLD PMUL PMOD PSHL PGEN` write their destination
polynomial register and nothing else; `SETVER` writes VERSION, `BDCLR BDADD` the descriptor list, `BBCLR BBPUT SEGADD FRAME`
the bit buffer, and nothing else; `NOP` writes nothing; or the command faults and changes STATUS and EINFO alone. -/
def Obligations.PolyAndListCommandFrame : Prop :=
  (∀ (i : Instr) (pd : PReg) (s t : State), polyDest i = some pd → exec i s = .next t →
    SameScalars s t ∧ SamePolysBut pd s t ∧ SameLists s t ∧ SameBytes s t ∧ SameOutside s t ∧ CleanOrLatched i s t) ∧
  (∀ (i : Instr) (s t : State), i.mnemonic ∈ [.nop, .setver, .bdclr, .bdadd, .bbclr, .bbput, .segadd, .frame] →
    exec i s = .next t →
    SameScalars s t ∧ SamePolys s t ∧ SameBytes s t ∧ SameOutside s t ∧ CleanOrLatched i s t ∧
    (i.mnemonic ≠ .setver → t.version = s.version) ∧ (i.mnemonic ∉ [.bdclr, .bdadd] → t.bd = s.bd) ∧
    (i.mnemonic ∉ [.bbclr, .bbput, .segadd, .frame] → t.bb = s.bb))

/-- 20_memory.md R62, 41_polynomial.md R116, 42_rs_codewords.md R141: `PST BBST RSECC CWGEN` store in the range their operands
and the state give, and change no register, no list and no byte outside that range; or they fault and change STATUS and EINFO
alone. -/
def Obligations.StoreCommandFrame : Prop :=
  ∀ (i : Instr) (s t : State) (a n : Nat), ValidConfig s.config → Memory.wf s.mem → (∀ b ∈ s.bd, LegalBlock b) →
    storeRange s i = some (a, n) → exec i s = .next t →
    SameScalars s t ∧ SamePolys s t ∧ SameLists s t ∧ SameOutside s t ∧ SameBytesOutside a n s t ∧ CleanOrLatched i s t
end

