-- ==== Sys2Proof/Laws/Memory.lean ====
section
/-! SUPPORT. The laws of the scratchpad: a byte reads as what was last written to it and every other byte as before; every
operation keeps the canonical form; a stored list reads back. -/

namespace Sys2Proof.Machine

/-- In a list whose addresses all lie above `a`, `a` is unlisted. -/
theorem Memory.read_below {m : Memory} {a : Nat} (h : ∀ p ∈ m, a < p.1) : m.read a = Memory.unlisted := by
  induction m with
  | nil => rfl
  | cons p m ih =>
    obtain ⟨b, v⟩ := p
    have hb : a ≠ b := Nat.ne_of_lt (h (b, v) (by simp))
    simp only [Memory.read, if_neg hb]
    exact ih fun p hp => h p (by simp [hp])

/-- The addresses of a written memory are those it had and the one written. -/
theorem Memory.mem_write {m : Memory} {a : Nat} {v : Byte} {p : Host.Cell} (h : p ∈ m.write a v) :
    p ∈ m ∨ (p = (a, v) ∧ v ≠ Memory.unlisted) := by
  induction m with
  | nil =>
    simp only [Memory.write] at h
    split at h
    · simp at h
    · exact .inr ⟨by simpa using h, ‹_›⟩
  | cons q m ih =>
    obtain ⟨b, u⟩ := q
    simp only [Memory.write] at h
    split at h
    · split at h
      · exact .inl h
      · rcases List.mem_cons.1 h with h | h
        · exact .inr ⟨h, ‹_›⟩
        · exact .inl h
    · split at h
      · split at h
        · exact .inl (List.mem_cons_of_mem _ h)
        · rcases List.mem_cons.1 h with h | h
          · exact .inr ⟨h, ‹_›⟩
          · exact .inl (List.mem_cons_of_mem _ h)
      · rcases List.mem_cons.1 h with h | h
        · exact .inl (by simp [h])
        · rcases ih h with h | h
          · exact .inl (List.mem_cons_of_mem _ h)
          · exact .inr h

/-- A byte reads as what was last written to it, and every other byte as before. -/
theorem Memory.read_write {m : Memory} (hs : m.Pairwise fun p q => p.1 < q.1) (a x : Nat) (v : Byte) :
    (m.write a v).read x = if x = a then v else m.read x := by
  induction m with
  | nil =>
    by_cases hv : v = Memory.unlisted <;> simp [Memory.write, hv, Memory.read]
  | cons p m ih =>
    obtain ⟨b, u⟩ := p
    obtain ⟨hb, hm⟩ := List.pairwise_cons.1 hs
    have hbelow : ∀ y, y ≤ b → Memory.read m y = Memory.unlisted :=
      fun y hy => Memory.read_below fun q hq => Nat.lt_of_le_of_lt hy (hb q hq)
    simp only [Memory.write]
    rcases Nat.lt_trichotomy a b with hab | rfl | hab
    · rw [if_pos hab]
      by_cases hv : v = Memory.unlisted
      · simp only [hv, if_true, Memory.read]
        by_cases hx : x = a
        · subst hx; simp [Nat.ne_of_lt hab, hbelow x (Nat.le_of_lt hab)]
        · simp [hx]
      · simp [hv, Memory.read]
    · rw [if_neg (Nat.lt_irrefl a), if_pos rfl]
      by_cases hv : v = Memory.unlisted
      · simp only [hv, if_true, Memory.read]
        by_cases hx : x = a
        · subst hx; simp [hbelow x (Nat.le_refl x)]
        · simp [hx]
      · simp only [hv, if_false, Memory.read]
        by_cases hx : x = a <;> simp [hx]
    · rw [if_neg (Nat.not_lt.2 (Nat.le_of_lt hab)), if_neg (Nat.ne_of_gt hab)]
      simp only [Memory.read, ih hm]
      by_cases hx : x = b
      · subst hx; simp [Nat.ne_of_lt hab]
      · simp [hx]

/-- A write inside the scratchpad keeps the canonical form. -/
theorem Memory.write_wf {m : Memory} (h : m.wf) {a : Nat} (ha : a < Config.msize) (v : Byte) : (m.write a v).wf := by
  refine ⟨?_, fun p hp => ?_⟩
  · have hs := h.1
    clear h
    induction m with
    | nil => simp only [Memory.write]; split <;> simp
    | cons p m ih =>
      obtain ⟨b, u⟩ := p
      obtain ⟨hb, hm⟩ := List.pairwise_cons.1 hs
      simp only [Memory.write]
      split
      · split
        · exact hs
        · refine List.pairwise_cons.2 ⟨fun q hq => ?_, hs⟩
          rcases List.mem_cons.1 hq with rfl | hq
          · assumption
          · exact Nat.lt_trans ‹a < b› (hb q hq)
      · split
        · split
          · exact hm
          · subst_vars; exact List.pairwise_cons.2 ⟨hb, hm⟩
        · refine List.pairwise_cons.2 ⟨fun q hq => ?_, ih hm⟩
          rcases Memory.mem_write hq with hq | ⟨rfl, -⟩
          · exact hb q hq
          · have h1 : ¬ a < b := ‹_›
            have h2 : ¬ a = b := ‹_›
            exact Nat.lt_of_le_of_ne (Nat.not_lt.1 h1) (Ne.symm h2)
  · rcases Memory.mem_write hp with hp | ⟨rfl, hv⟩
    · exact h.2 p hp
    · exact ⟨ha, hv⟩

/-- A list stored inside the scratchpad keeps the canonical form. -/
theorem Memory.writeBytes_wf {m : Memory} (h : m.wf) {a : Nat} {bs : List Byte} (ha : inScratchpad a bs.length) :
    (m.writeBytes a bs).wf := by
  induction bs generalizing m a with
  | nil => exact h
  | cons v bs ih =>
    simp only [inScratchpad, List.length_cons, Config.msize] at ha
    exact ih (Memory.write_wf h (by simp only [Config.msize]; omega) v) (by simp only [inScratchpad, Config.msize]; omega)

/-- Writing keeps the addresses rising, wherever it writes. -/
theorem Memory.write_sorted {m : Memory} (hs : m.Pairwise fun p q => p.1 < q.1) (a : Nat) (v : Byte) :
    (m.write a v).Pairwise fun p q => p.1 < q.1 := by
  induction m with
  | nil => simp only [Memory.write]; split <;> simp
  | cons p m ih =>
    obtain ⟨b, u⟩ := p
    obtain ⟨hb, hm⟩ := List.pairwise_cons.1 hs
    simp only [Memory.write]
    split
    · split
      · exact hs
      · refine List.pairwise_cons.2 ⟨fun q hq => ?_, hs⟩
        rcases List.mem_cons.1 hq with rfl | hq
        · assumption
        · exact Nat.lt_trans ‹a < b› (hb q hq)
    · split
      · split
        · exact hm
        · subst_vars; exact List.pairwise_cons.2 ⟨hb, hm⟩
      · refine List.pairwise_cons.2 ⟨fun q hq => ?_, ih hm⟩
        rcases Memory.mem_write hq with hq | ⟨rfl, -⟩
        · exact hb q hq
        · have h1 : ¬ a < b := ‹_›
          have h2 : ¬ a = b := ‹_›
          exact Nat.lt_of_le_of_ne (Nat.not_lt.1 h1) (Ne.symm h2)

/-- After a list is stored from `a` up, the byte at `x` is the list's element `x - a`, or as before outside it. -/
theorem Memory.read_writeBytes {m : Memory} (hs : m.Pairwise fun p q => p.1 < q.1) (a x : Nat) (bs : List Byte) :
    (m.writeBytes a bs).read x = if a ≤ x ∧ x < a + bs.length then bs.getD (x - a) 0 else m.read x := by
  induction bs generalizing m a with
  | nil => simp only [Memory.writeBytes, List.length_nil]; rw [if_neg (by omega)]
  | cons v bs ih =>
    rw [Memory.writeBytes, ih (Memory.write_sorted hs a v), Memory.read_write hs]
    simp only [List.length_cons]
    rcases Nat.lt_trichotomy x a with h | rfl | h
    · rw [if_neg (by omega), if_neg (by omega), if_neg (by omega)]
    · rw [if_neg (by omega), if_pos rfl, if_pos (by omega)]; simp
    · obtain ⟨k, rfl⟩ : ∃ k, x = a + 1 + k := ⟨x - (a + 1), by omega⟩
      have e1 : a + 1 + k - (a + 1) = k := by omega
      have e2 : a + 1 + k - a = k + 1 := by omega
      by_cases hk : k < bs.length
      · rw [if_pos (by omega), if_pos (by omega), e1, e2, List.getD_cons_succ]
      · rw [if_neg (by omega), if_neg (by omega), if_neg (by omega)]

@[simp] theorem Memory.length_readBytes (m : Memory) (a n : Nat) : (m.readBytes a n).length = n := by
  induction n generalizing a with
  | zero => rfl
  | succ n ih => simp [Memory.readBytes, ih]

/-- The `k`-th byte of a list read from `a` up is `M[a + k]`. -/
theorem Memory.getElem_readBytes (m : Memory) (a n k : Nat) (h : k < (m.readBytes a n).length) :
    (m.readBytes a n)[k] = m.read (a + k) := by
  induction n generalizing a k with
  | zero => simp [Memory.readBytes] at h
  | succ n ih =>
    cases k with
    | zero => simp [Memory.readBytes]
    | succ k =>
      simp only [Memory.readBytes, List.getElem_cons_succ]
      rw [ih (a + 1) k (by simpa [Memory.readBytes] using h)]
      congr 1; omega

/-- The list read from `a` up, as a map over its places. -/
theorem Memory.readBytes_eq_map (m : Memory) (a n : Nat) :
    m.readBytes a n = (List.range n).map fun k => m.read (a + k) := by
  apply List.ext_getElem (by simp)
  intro k h1 h2
  rw [Memory.getElem_readBytes]; simp

/-- A list that was stored reads back. -/
theorem Memory.readBytes_writeBytes {m : Memory} (hs : m.Pairwise fun p q => p.1 < q.1) (a : Nat) (bs : List Byte) :
    (m.writeBytes a bs).readBytes a bs.length = bs := by
  apply List.ext_getElem (by simp)
  intro k h1 h2
  rw [Memory.getElem_readBytes, Memory.read_writeBytes hs, if_pos ⟨by omega, by omega⟩]
  simp [h2]

/-- A byte read in a state after a list was stored. -/
theorem State.byteAt_setBytes {s : State} (hs : s.mem.wf) (a x : Nat) (bs : List Byte) :
    (s.setBytes a bs).byteAt x = if a ≤ x ∧ x < a + bs.length then bs.getD (x - a) 0 else s.byteAt x :=
  Memory.read_writeBytes hs.1 a x bs

/-- The memory after reset has the canonical form. -/
theorem Memory.reset_wf : Memory.wf State.reset.mem := ⟨.nil, by simp [State.reset]⟩

/-- Every byte of the scratchpad reads 0 after reset. -/
@[simp] theorem State.reset_byteAt (a : Nat) : State.reset.byteAt a = 0 := rfl

@[simp] theorem State.resetUnit_byteAt (s : State) (a : Nat) : s.resetUnit.byteAt a = 0 := rfl

end Sys2Proof.Machine
end

