-- ==== Sys2Proof/Laws/State.lean ====
section
/-! SUPPORT. What each update of State does to each field and to each view of it, once: no proof has to unfold a record
update. -/

namespace Sys2Proof.Machine

variable (s : State)

@[simp] theorem State.setReg_config (i : SReg) (v : Word) : (s.setReg i v).config = s.config := rfl
@[simp] theorem State.setReg_regs (i : SReg) (v : Word) : (s.setReg i v).regs = s.regs.set i v := rfl
@[simp] theorem State.setReg_polys (i : SReg) (v : Word) : (s.setReg i v).polys = s.polys := rfl
@[simp] theorem State.setReg_bb (i : SReg) (v : Word) : (s.setReg i v).bb = s.bb := rfl
@[simp] theorem State.setReg_bd (i : SReg) (v : Word) : (s.setReg i v).bd = s.bd := rfl
@[simp] theorem State.setReg_version (i : SReg) (v : Word) : (s.setReg i v).version = s.version := rfl
@[simp] theorem State.setReg_err (i : SReg) (v : Word) : (s.setReg i v).err = s.err := rfl
@[simp] theorem State.setReg_cause (i : SReg) (v : Word) : (s.setReg i v).cause = s.cause := rfl
@[simp] theorem State.setReg_einfo (i : SReg) (v : Word) : (s.setReg i v).einfo = s.einfo := rfl
@[simp] theorem State.setReg_mem (i : SReg) (v : Word) : (s.setReg i v).mem = s.mem := rfl
@[simp] theorem State.setReg_pending (i : SReg) (v : Word) : (s.setReg i v).pending = s.pending := rfl
@[simp] theorem State.setReg_reply (i : SReg) (v : Word) : (s.setReg i v).reply = s.reply := rfl
@[simp] theorem State.setReg_poly (i : SReg) (v : Word) (q : PReg) : (s.setReg i v).poly q = s.poly q := rfl
@[simp] theorem State.setReg_byteAt (i : SReg) (v : Word) (x : Nat) : (s.setReg i v).byteAt x = s.byteAt x := rfl
@[simp] theorem State.setReg_bdcnt (i : SReg) (v : Word) : (s.setReg i v).bdcnt = s.bdcnt := rfl
@[simp] theorem State.setReg_tdc (i : SReg) (v : Word) : (s.setReg i v).tdc = s.tdc := rfl
@[simp] theorem State.setReg_tcw (i : SReg) (v : Word) : (s.setReg i v).tcw = s.tcw := rfl

@[simp] theorem State.setPoly_config (i : PReg) (p : Poly) : (s.setPoly i p).config = s.config := rfl
@[simp] theorem State.setPoly_regs (i : PReg) (p : Poly) : (s.setPoly i p).regs = s.regs := rfl
@[simp] theorem State.setPoly_polys (i : PReg) (p : Poly) : (s.setPoly i p).polys = s.polys.set i p := rfl
@[simp] theorem State.setPoly_bb (i : PReg) (p : Poly) : (s.setPoly i p).bb = s.bb := rfl
@[simp] theorem State.setPoly_bd (i : PReg) (p : Poly) : (s.setPoly i p).bd = s.bd := rfl
@[simp] theorem State.setPoly_version (i : PReg) (p : Poly) : (s.setPoly i p).version = s.version := rfl
@[simp] theorem State.setPoly_err (i : PReg) (p : Poly) : (s.setPoly i p).err = s.err := rfl
@[simp] theorem State.setPoly_cause (i : PReg) (p : Poly) : (s.setPoly i p).cause = s.cause := rfl
@[simp] theorem State.setPoly_einfo (i : PReg) (p : Poly) : (s.setPoly i p).einfo = s.einfo := rfl
@[simp] theorem State.setPoly_mem (i : PReg) (p : Poly) : (s.setPoly i p).mem = s.mem := rfl
@[simp] theorem State.setPoly_pending (i : PReg) (p : Poly) : (s.setPoly i p).pending = s.pending := rfl
@[simp] theorem State.setPoly_reply (i : PReg) (p : Poly) : (s.setPoly i p).reply = s.reply := rfl
@[simp] theorem State.setPoly_reg (i : PReg) (p : Poly) (r : SReg) : (s.setPoly i p).reg r = s.reg r := rfl
@[simp] theorem State.setPoly_byteAt (i : PReg) (p : Poly) (x : Nat) : (s.setPoly i p).byteAt x = s.byteAt x := rfl
@[simp] theorem State.setPoly_bdcnt (i : PReg) (p : Poly) : (s.setPoly i p).bdcnt = s.bdcnt := rfl
@[simp] theorem State.setPoly_tdc (i : PReg) (p : Poly) : (s.setPoly i p).tdc = s.tdc := rfl
@[simp] theorem State.setPoly_tcw (i : PReg) (p : Poly) : (s.setPoly i p).tcw = s.tcw := rfl
@[simp] theorem State.setPoly_num (i : PReg) (p : Poly) (r : SReg) : (s.setPoly i p).num r = s.num r := rfl
@[simp] theorem State.setPoly_signedNum (i : PReg) (p : Poly) (r : SReg) : (s.setPoly i p).signedNum r = s.signedNum r := rfl
@[simp] theorem State.setPoly_element (i : PReg) (p : Poly) (r : SReg) : (s.setPoly i p).element r = s.element r := rfl

@[simp] theorem State.setBb_config (l : List Bool) : (s.setBb l).config = s.config := rfl
@[simp] theorem State.setBb_regs (l : List Bool) : (s.setBb l).regs = s.regs := rfl
@[simp] theorem State.setBb_polys (l : List Bool) : (s.setBb l).polys = s.polys := rfl
@[simp] theorem State.setBb_bb (l : List Bool) : (s.setBb l).bb = l := rfl
@[simp] theorem State.setBb_bd (l : List Bool) : (s.setBb l).bd = s.bd := rfl
@[simp] theorem State.setBb_version (l : List Bool) : (s.setBb l).version = s.version := rfl
@[simp] theorem State.setBb_err (l : List Bool) : (s.setBb l).err = s.err := rfl
@[simp] theorem State.setBb_cause (l : List Bool) : (s.setBb l).cause = s.cause := rfl
@[simp] theorem State.setBb_einfo (l : List Bool) : (s.setBb l).einfo = s.einfo := rfl
@[simp] theorem State.setBb_mem (l : List Bool) : (s.setBb l).mem = s.mem := rfl
@[simp] theorem State.setBb_pending (l : List Bool) : (s.setBb l).pending = s.pending := rfl
@[simp] theorem State.setBb_reply (l : List Bool) : (s.setBb l).reply = s.reply := rfl
@[simp] theorem State.setBb_reg (l : List Bool) (r : SReg) : (s.setBb l).reg r = s.reg r := rfl
@[simp] theorem State.setBb_poly (l : List Bool) (q : PReg) : (s.setBb l).poly q = s.poly q := rfl
@[simp] theorem State.setBb_byteAt (l : List Bool) (x : Nat) : (s.setBb l).byteAt x = s.byteAt x := rfl
@[simp] theorem State.setBb_bdcnt (l : List Bool) : (s.setBb l).bdcnt = s.bdcnt := rfl
@[simp] theorem State.setBb_tdc (l : List Bool) : (s.setBb l).tdc = s.tdc := rfl
@[simp] theorem State.setBb_tcw (l : List Bool) : (s.setBb l).tcw = s.tcw := rfl
@[simp] theorem State.setBb_num (l : List Bool) (r : SReg) : (s.setBb l).num r = s.num r := rfl
@[simp] theorem State.setBb_signedNum (l : List Bool) (r : SReg) : (s.setBb l).signedNum r = s.signedNum r := rfl
@[simp] theorem State.setBb_element (l : List Bool) (r : SReg) : (s.setBb l).element r = s.element r := rfl

@[simp] theorem State.setBd_config (l : List Block) : (s.setBd l).config = s.config := rfl
@[simp] theorem State.setBd_regs (l : List Block) : (s.setBd l).regs = s.regs := rfl
@[simp] theorem State.setBd_polys (l : List Block) : (s.setBd l).polys = s.polys := rfl
@[simp] theorem State.setBd_bb (l : List Block) : (s.setBd l).bb = s.bb := rfl
@[simp] theorem State.setBd_bd (l : List Block) : (s.setBd l).bd = l := rfl
@[simp] theorem State.setBd_version (l : List Block) : (s.setBd l).version = s.version := rfl
@[simp] theorem State.setBd_err (l : List Block) : (s.setBd l).err = s.err := rfl
@[simp] theorem State.setBd_cause (l : List Block) : (s.setBd l).cause = s.cause := rfl
@[simp] theorem State.setBd_einfo (l : List Block) : (s.setBd l).einfo = s.einfo := rfl
@[simp] theorem State.setBd_mem (l : List Block) : (s.setBd l).mem = s.mem := rfl
@[simp] theorem State.setBd_pending (l : List Block) : (s.setBd l).pending = s.pending := rfl
@[simp] theorem State.setBd_reply (l : List Block) : (s.setBd l).reply = s.reply := rfl
@[simp] theorem State.setBd_reg (l : List Block) (r : SReg) : (s.setBd l).reg r = s.reg r := rfl
@[simp] theorem State.setBd_poly (l : List Block) (q : PReg) : (s.setBd l).poly q = s.poly q := rfl
@[simp] theorem State.setBd_byteAt (l : List Block) (x : Nat) : (s.setBd l).byteAt x = s.byteAt x := rfl
@[simp] theorem State.setBd_num (l : List Block) (r : SReg) : (s.setBd l).num r = s.num r := rfl
@[simp] theorem State.setBd_signedNum (l : List Block) (r : SReg) : (s.setBd l).signedNum r = s.signedNum r := rfl
@[simp] theorem State.setBd_element (l : List Block) (r : SReg) : (s.setBd l).element r = s.element r := rfl

@[simp] theorem State.setVersion_config (v : BitVec 6) : (s.setVersion v).config = s.config := rfl
@[simp] theorem State.setVersion_regs (v : BitVec 6) : (s.setVersion v).regs = s.regs := rfl
@[simp] theorem State.setVersion_polys (v : BitVec 6) : (s.setVersion v).polys = s.polys := rfl
@[simp] theorem State.setVersion_bb (v : BitVec 6) : (s.setVersion v).bb = s.bb := rfl
@[simp] theorem State.setVersion_bd (v : BitVec 6) : (s.setVersion v).bd = s.bd := rfl
@[simp] theorem State.setVersion_version (v : BitVec 6) : (s.setVersion v).version = v := rfl
@[simp] theorem State.setVersion_err (v : BitVec 6) : (s.setVersion v).err = s.err := rfl
@[simp] theorem State.setVersion_cause (v : BitVec 6) : (s.setVersion v).cause = s.cause := rfl
@[simp] theorem State.setVersion_einfo (v : BitVec 6) : (s.setVersion v).einfo = s.einfo := rfl
@[simp] theorem State.setVersion_mem (v : BitVec 6) : (s.setVersion v).mem = s.mem := rfl
@[simp] theorem State.setVersion_pending (v : BitVec 6) : (s.setVersion v).pending = s.pending := rfl
@[simp] theorem State.setVersion_reply (v : BitVec 6) : (s.setVersion v).reply = s.reply := rfl
@[simp] theorem State.setVersion_reg (v : BitVec 6) (r : SReg) : (s.setVersion v).reg r = s.reg r := rfl
@[simp] theorem State.setVersion_poly (v : BitVec 6) (q : PReg) : (s.setVersion v).poly q = s.poly q := rfl
@[simp] theorem State.setVersion_byteAt (v : BitVec 6) (x : Nat) : (s.setVersion v).byteAt x = s.byteAt x := rfl
@[simp] theorem State.setVersion_bdcnt (v : BitVec 6) : (s.setVersion v).bdcnt = s.bdcnt := rfl
@[simp] theorem State.setVersion_tdc (v : BitVec 6) : (s.setVersion v).tdc = s.tdc := rfl
@[simp] theorem State.setVersion_tcw (v : BitVec 6) : (s.setVersion v).tcw = s.tcw := rfl
@[simp] theorem State.setVersion_num (v : BitVec 6) (r : SReg) : (s.setVersion v).num r = s.num r := rfl
@[simp] theorem State.setVersion_signedNum (v : BitVec 6) (r : SReg) : (s.setVersion v).signedNum r = s.signedNum r := rfl
@[simp] theorem State.setVersion_element (v : BitVec 6) (r : SReg) : (s.setVersion v).element r = s.element r := rfl

@[simp] theorem State.setBytes_config (a : Nat) (bs : List Byte) : (s.setBytes a bs).config = s.config := rfl
@[simp] theorem State.setBytes_regs (a : Nat) (bs : List Byte) : (s.setBytes a bs).regs = s.regs := rfl
@[simp] theorem State.setBytes_polys (a : Nat) (bs : List Byte) : (s.setBytes a bs).polys = s.polys := rfl
@[simp] theorem State.setBytes_bb (a : Nat) (bs : List Byte) : (s.setBytes a bs).bb = s.bb := rfl
@[simp] theorem State.setBytes_bd (a : Nat) (bs : List Byte) : (s.setBytes a bs).bd = s.bd := rfl
@[simp] theorem State.setBytes_version (a : Nat) (bs : List Byte) : (s.setBytes a bs).version = s.version := rfl
@[simp] theorem State.setBytes_err (a : Nat) (bs : List Byte) : (s.setBytes a bs).err = s.err := rfl
@[simp] theorem State.setBytes_cause (a : Nat) (bs : List Byte) : (s.setBytes a bs).cause = s.cause := rfl
@[simp] theorem State.setBytes_einfo (a : Nat) (bs : List Byte) : (s.setBytes a bs).einfo = s.einfo := rfl
@[simp] theorem State.setBytes_mem (a : Nat) (bs : List Byte) : (s.setBytes a bs).mem = s.mem.writeBytes a bs := rfl
@[simp] theorem State.setBytes_pending (a : Nat) (bs : List Byte) : (s.setBytes a bs).pending = s.pending := rfl
@[simp] theorem State.setBytes_reply (a : Nat) (bs : List Byte) : (s.setBytes a bs).reply = s.reply := rfl
@[simp] theorem State.setBytes_reg (a : Nat) (bs : List Byte) (r : SReg) : (s.setBytes a bs).reg r = s.reg r := rfl
@[simp] theorem State.setBytes_poly (a : Nat) (bs : List Byte) (q : PReg) : (s.setBytes a bs).poly q = s.poly q := rfl
@[simp] theorem State.setBytes_bdcnt (a : Nat) (bs : List Byte) : (s.setBytes a bs).bdcnt = s.bdcnt := rfl
@[simp] theorem State.setBytes_tdc (a : Nat) (bs : List Byte) : (s.setBytes a bs).tdc = s.tdc := rfl
@[simp] theorem State.setBytes_tcw (a : Nat) (bs : List Byte) : (s.setBytes a bs).tcw = s.tcw := rfl
@[simp] theorem State.setBytes_num (a : Nat) (bs : List Byte) (r : SReg) : (s.setBytes a bs).num r = s.num r := rfl
@[simp] theorem State.setBytes_signedNum (a : Nat) (bs : List Byte) (r : SReg) : (s.setBytes a bs).signedNum r = s.signedNum r := rfl
@[simp] theorem State.setBytes_element (a : Nat) (bs : List Byte) (r : SReg) : (s.setBytes a bs).element r = s.element r := rfl

@[simp] theorem State.latch_config (c : Cause) (w : Word) : (s.latch c w).config = s.config := rfl
@[simp] theorem State.latch_regs (c : Cause) (w : Word) : (s.latch c w).regs = s.regs := rfl
@[simp] theorem State.latch_polys (c : Cause) (w : Word) : (s.latch c w).polys = s.polys := rfl
@[simp] theorem State.latch_bb (c : Cause) (w : Word) : (s.latch c w).bb = s.bb := rfl
@[simp] theorem State.latch_bd (c : Cause) (w : Word) : (s.latch c w).bd = s.bd := rfl
@[simp] theorem State.latch_version (c : Cause) (w : Word) : (s.latch c w).version = s.version := rfl
@[simp] theorem State.latch_err (c : Cause) (w : Word) : (s.latch c w).err = true := rfl
@[simp] theorem State.latch_cause (c : Cause) (w : Word) : (s.latch c w).cause = c.code := rfl
@[simp] theorem State.latch_einfo (c : Cause) (w : Word) : (s.latch c w).einfo = w := rfl
@[simp] theorem State.latch_mem (c : Cause) (w : Word) : (s.latch c w).mem = s.mem := rfl
@[simp] theorem State.latch_pending (c : Cause) (w : Word) : (s.latch c w).pending = s.pending := rfl
@[simp] theorem State.latch_reply (c : Cause) (w : Word) : (s.latch c w).reply = s.reply := rfl
@[simp] theorem State.latch_reg (c : Cause) (w : Word) (r : SReg) : (s.latch c w).reg r = s.reg r := rfl
@[simp] theorem State.latch_poly (c : Cause) (w : Word) (q : PReg) : (s.latch c w).poly q = s.poly q := rfl
@[simp] theorem State.latch_byteAt (c : Cause) (w : Word) (x : Nat) : (s.latch c w).byteAt x = s.byteAt x := rfl
@[simp] theorem State.latch_bdcnt (c : Cause) (w : Word) : (s.latch c w).bdcnt = s.bdcnt := rfl
@[simp] theorem State.latch_tdc (c : Cause) (w : Word) : (s.latch c w).tdc = s.tdc := rfl
@[simp] theorem State.latch_tcw (c : Cause) (w : Word) : (s.latch c w).tcw = s.tcw := rfl
@[simp] theorem State.latch_num (c : Cause) (w : Word) (r : SReg) : (s.latch c w).num r = s.num r := rfl
@[simp] theorem State.latch_signedNum (c : Cause) (w : Word) (r : SReg) : (s.latch c w).signedNum r = s.signedNum r := rfl
@[simp] theorem State.latch_element (c : Cause) (w : Word) (r : SReg) : (s.latch c w).element r = s.element r := rfl

@[simp] theorem State.took_config (rest : List Event) : (s.took rest).config = s.config := rfl
@[simp] theorem State.took_regs (rest : List Event) : (s.took rest).regs = s.regs := rfl
@[simp] theorem State.took_polys (rest : List Event) : (s.took rest).polys = s.polys := rfl
@[simp] theorem State.took_bb (rest : List Event) : (s.took rest).bb = s.bb := rfl
@[simp] theorem State.took_bd (rest : List Event) : (s.took rest).bd = s.bd := rfl
@[simp] theorem State.took_version (rest : List Event) : (s.took rest).version = s.version := rfl
@[simp] theorem State.took_err (rest : List Event) : (s.took rest).err = s.err := rfl
@[simp] theorem State.took_cause (rest : List Event) : (s.took rest).cause = s.cause := rfl
@[simp] theorem State.took_einfo (rest : List Event) : (s.took rest).einfo = s.einfo := rfl
@[simp] theorem State.took_mem (rest : List Event) : (s.took rest).mem = s.mem := rfl
@[simp] theorem State.took_pending (rest : List Event) : (s.took rest).pending = rest := rfl
@[simp] theorem State.took_reply (rest : List Event) : (s.took rest).reply = none := rfl
@[simp] theorem State.took_reg (rest : List Event) (r : SReg) : (s.took rest).reg r = s.reg r := rfl
@[simp] theorem State.took_poly (rest : List Event) (q : PReg) : (s.took rest).poly q = s.poly q := rfl
@[simp] theorem State.took_byteAt (rest : List Event) (x : Nat) : (s.took rest).byteAt x = s.byteAt x := rfl
@[simp] theorem State.took_bdcnt (rest : List Event) : (s.took rest).bdcnt = s.bdcnt := rfl
@[simp] theorem State.took_tdc (rest : List Event) : (s.took rest).tdc = s.tdc := rfl
@[simp] theorem State.took_tcw (rest : List Event) : (s.took rest).tcw = s.tcw := rfl
@[simp] theorem State.took_num (rest : List Event) (r : SReg) : (s.took rest).num r = s.num r := rfl
@[simp] theorem State.took_signedNum (rest : List Event) (r : SReg) : (s.took rest).signedNum r = s.signedNum r := rfl
@[simp] theorem State.took_element (rest : List Event) (r : SReg) : (s.took rest).element r = s.element r := rfl

@[simp] theorem State.resetUnit_config : s.resetUnit.config = s.config := rfl
@[simp] theorem State.resetUnit_regs : s.resetUnit.regs = State.reset.regs := rfl
@[simp] theorem State.resetUnit_polys : s.resetUnit.polys = State.reset.polys := rfl
@[simp] theorem State.resetUnit_bb : s.resetUnit.bb = State.reset.bb := rfl
@[simp] theorem State.resetUnit_bd : s.resetUnit.bd = State.reset.bd := rfl
@[simp] theorem State.resetUnit_version : s.resetUnit.version = State.reset.version := rfl
@[simp] theorem State.resetUnit_err : s.resetUnit.err = State.reset.err := rfl
@[simp] theorem State.resetUnit_cause : s.resetUnit.cause = State.reset.cause := rfl
@[simp] theorem State.resetUnit_einfo : s.resetUnit.einfo = State.reset.einfo := rfl
@[simp] theorem State.resetUnit_mem : s.resetUnit.mem = State.reset.mem := rfl
@[simp] theorem State.resetUnit_pending : s.resetUnit.pending = s.pending := rfl
@[simp] theorem State.resetUnit_reply : s.resetUnit.reply = s.reply := rfl

/-- A scalar register reads as what was last written to it, and every other one as before. -/
theorem State.reg_setReg (i r : SReg) (v : Word) : (s.setReg i v).reg r = if r = i then v else s.reg r := by
  simp only [State.reg, State.setReg, Fin.getElem_fin, Vector.getElem_set, Fin.ext_iff, eq_comm]

@[simp] theorem State.reg_setReg_same (i : SReg) (v : Word) : (s.setReg i v).reg i = v := by
  simp [State.reg_setReg]

theorem State.reg_setReg_other {i r : SReg} (h : r ≠ i) (v : Word) : (s.setReg i v).reg r = s.reg r := by
  simp [State.reg_setReg, h]

/-- A polynomial register reads as what was last written to it, and every other one as before. -/
theorem State.poly_setPoly (i q : PReg) (p : Poly) : (s.setPoly i p).poly q = if q = i then p else s.poly q := by
  simp only [State.poly, State.setPoly, Fin.getElem_fin, Vector.getElem_set, Fin.ext_iff, eq_comm]

@[simp] theorem State.poly_setPoly_same (i : PReg) (p : Poly) : (s.setPoly i p).poly i = p := by
  simp [State.poly_setPoly]

theorem State.poly_setPoly_other {i q : PReg} (h : q ≠ i) (p : Poly) : (s.setPoly i p).poly q = s.poly q := by
  simp [State.poly_setPoly, h]

/-- Every scalar register is 0 after reset. -/
@[simp] theorem State.reset_reg (r : SReg) : State.reset.reg r = 0 := by
  simp [State.reg, State.reset]

/-- Every polynomial register is the zero polynomial after reset. -/
@[simp] theorem State.reset_poly (q : PReg) : State.reset.poly q = [0] := by
  simp [State.poly, State.reset]

@[simp] theorem State.resetUnit_reg (r : SReg) : s.resetUnit.reg r = 0 := State.reset_reg r

@[simp] theorem State.resetUnit_poly (q : PReg) : s.resetUnit.poly q = [0] := State.reset_poly q

end Sys2Proof.Machine
end

