-- ==== Sys2Proof/Laws/Ops.lean ====
section
/-! SUPPORT. What each shared operation can do, once: the range-checked load and store, the fault entry, the reset, and
the issue of a command word. -/

namespace Sys2Proof.Machine

/-- A load inside the scratchpad hands its bytes to the rest of the command. -/
theorem loadBytes_of_in {s : State} {a n : Nat} (h : inScratchpad a n) (rest : List Byte → Result) :
    loadBytes s a n rest = rest (s.mem.readBytes a n) := if_pos h

/-- A load answers a next state only inside the scratchpad, and then as the rest of the command does. -/
theorem loadBytes_next {s t : State} {a n : Nat} {rest : List Byte → Result} (h : loadBytes s a n rest = .next t) :
    inScratchpad a n ∧ rest (s.mem.readBytes a n) = .next t := by
  unfold loadBytes at h
  split at h
  · exact ⟨‹_›, h⟩
  · simp at h

/-- A store inside the scratchpad changes its bytes and nothing else. -/
theorem storeBytes_of_in {s : State} {a : Nat} {bs : List Byte} (h : inScratchpad a bs.length) :
    storeBytes s a bs = .next (s.setBytes a bs) := if_pos h

/-- A store answers a next state only inside the scratchpad, and then it has changed the stored bytes only. -/
theorem storeBytes_next {s t : State} {a : Nat} {bs : List Byte} (h : storeBytes s a bs = .next t) :
    inScratchpad a bs.length ∧ t = s.setBytes a bs := by
  unfold storeBytes at h
  split at h
  · exact ⟨‹_›, by simpa using h.symm⟩
  · simp at h

/-- Fault entry answers the latched state. -/
theorem raise_next {s t : State} {c : Cause} {w : Word} (h : raise c w s = .next t) : t = s.latch c w := by
  simpa [raise] using h.symm

@[simp] theorem raise_eq (c : Cause) (w : Word) (s : State) : raise c w s = .next (s.latch c w) := rfl

/-- A cause's code is 1..6. -/
theorem Cause.code_range (c : Cause) : 1 ≤ c.code.toNat ∧ c.code.toNat ≤ 6 := by cases c <;> decide

/-- Two causes have two codes. -/
theorem Cause.code_inj {c d : Cause} (h : c.code = d.code) : c = d := by revert h; cases c <;> cases d <;> decide

/-- The three things a command word can do, in the order of 60_exceptions.md R227. -/
theorem issueCommand_cases (w : Word) (s : State) :
    (s.err = true ∧ w ≠ resetWord ∧ issueCommand w s = .next s) ∨
    ((s.err = false ∨ w = resetWord) ∧
      ((∃ i, decode w = .ok i ∧ issueCommand w s = exec i s) ∨
       (∃ e, decode w = .error e ∧ issueCommand w s = .next (s.latch .illegalCommand w)))) := by
  unfold issueCommand
  split
  · rename_i h; exact .inl ⟨h.1, h.2, rfl⟩
  · rename_i h
    refine .inr ⟨?_, ?_⟩
    · cases he : s.err
      · exact .inl rfl
      · exact .inr (Classical.byContradiction fun hw => h ⟨he, hw⟩)
    · cases hd : decode w with
      | ok i => exact .inl ⟨i, rfl, rfl⟩
      | error e => exact .inr ⟨e, rfl, rfl⟩

/-- What one step can do: idle, hardware reset, one of the four host accesses, or the refusal of another access. -/
theorem step_cases (s : State) :
    (s.pending = [] ∧ step s = .next s) ∨
    ∃ e rest, s.pending = e :: rest ∧
      ((e = .hardwareReset ∧ step s = .next (s.took rest).resetUnit) ∨
       (∃ b, e = .access b ∧ classify b = none ∧ step s = .refused .hostAccessOutsideInterface) ∨
       (∃ b a, e = .access b ∧ classify b = some a ∧ step s = hostAccess a (s.took rest))) := by
  unfold step stepUnit
  cases hp : s.pending with
  | nil => exact .inl ⟨rfl, rfl⟩
  | cons e rest =>
    refine .inr ⟨e, rest, rfl, ?_⟩
    cases e with
    | hardwareReset => exact .inl ⟨rfl, rfl⟩
    | access b =>
      cases hc : classify b with
      | none => exact .inr (.inl ⟨b, rfl, hc, by simp [serveEvent, hc]⟩)
      | some a => exact .inr (.inr ⟨b, a, rfl, hc, by simp [serveEvent, hc]⟩)

/-- A classified memory read lies in the scratchpad. -/
theorem classify_readMem {b : BusAccess} {a : Nat} (h : classify b = some (.readMem a)) : a < Config.msize := by
  unfold classify at h
  split at h
  all_goals try split at h
  all_goals simp only [Option.some.injEq, HostAccess.readMem.injEq, reduceCtorEq, Option.map_eq_some_iff, and_false,
    exists_false] at h
  simp only [Config.msize] at *
  omega

/-- A classified memory write lies in the scratchpad. -/
theorem classify_writeMem {b : BusAccess} {a : Nat} {v : Byte} (h : classify b = some (.writeMem a v)) :
    a < Config.msize := by
  unfold classify at h
  split at h
  all_goals try split at h
  all_goals simp only [Option.some.injEq, HostAccess.writeMem.injEq, reduceCtorEq, Option.map_eq_some_iff, and_false,
    exists_false] at h
  simp only [Config.msize] at *
  omega

end Sys2Proof.Machine
end

