-- ==== Sys2Proof/Laws/Pure.lean ====
section
/-! SUPPORT. What the pure functions answer, as far as lengths and the normalised form go: lemmas about GF(256) lists,
polynomials, bit lists, the codeword stream. -/

namespace Sys2Proof.Machine

/-! ### Polynomials -/

/-- `pnorm` gives a normalised list (41_polynomial.md R110). -/
theorem pnorm_normalised (p : Poly) : Normalised (pnorm p) := by
  induction p with
  | nil => exact ⟨by simp [pnorm], by simp [pnorm]⟩
  | cons x t ih =>
    cases t with
    | nil => exact ⟨by simp [pnorm], by simp [pnorm]⟩
    | cons y t =>
      simp only [pnorm]
      split
      · exact ih
      · exact ⟨by simp, fun _ => by simpa⟩

/-- `pnorm` leaves a normalised list unchanged (41_polynomial.md R110). -/
theorem pnorm_of_normalised {p : Poly} (h : Normalised p) : pnorm p = p := by
  match p, h with
  | [], h => exact absurd rfl h.1
  | [x], _ => rfl
  | x :: y :: t, h =>
    have : x ≠ 0 := by simpa using h.2
    simp only [pnorm, if_neg this]

/-- `pnorm` adds no element, but to the empty list. -/
theorem length_pnorm_le (p : Poly) : (pnorm p).length ≤ max 1 p.length := by
  induction p with
  | nil => simp [pnorm]
  | cons x t ih =>
    cases t with
    | nil => simp [pnorm]
    | cons y t =>
      simp only [pnorm]
      split
      · refine Nat.le_trans ih ?_
        simp only [List.length_cons]; omega
      · exact Nat.le_max_right ..

theorem length_pnorm_pos (p : Poly) : 1 ≤ (pnorm p).length :=
  List.length_pos_of_ne_nil (pnorm_normalised p).1

/-- A leading zero before a non-empty list does not count. -/
@[simp] theorem pnorm_zero_cons {t : Poly} (h : t ≠ []) : pnorm (0 :: t) = pnorm t := by
  cases t with
  | nil => exact absurd rfl h
  | cons y t => simp [pnorm]

@[simp] theorem length_xorFront (row w : Poly) : (xorFront row w).length = w.length := by
  induction row generalizing w with
  | nil => rfl
  | cons x row ih =>
    cases w with
    | nil => rfl
    | cons y w => simp [xorFront, ih]

/-- The convolution of non-empty lists has length `len(a) + len(b) - 1` (41_polynomial.md R111). -/
theorem length_convolve (c : Config) (a b : Poly) (hb : b ≠ []) :
    (convolve c a b).length = a.length + b.length - 1 := by
  have := List.length_pos_of_ne_nil hb
  induction a with
  | nil => simp [convolve]
  | cons x a ih => simp only [convolve, length_xorFront, List.length_cons, ih]; omega

/-- A product is normalised and no longer than `len(a) + len(b) - 1`. -/
theorem pmul_normalised (c : Config) (a b : Poly) : Normalised (pmul c a b) := pnorm_normalised _

theorem length_pmul_le (c : Config) {a b : Poly} (ha : a ≠ []) (hb : b ≠ []) :
    (pmul c a b).length ≤ a.length + b.length - 1 := by
  have h1 := List.length_pos_of_ne_nil ha
  have h2 := List.length_pos_of_ne_nil hb
  refine Nat.le_trans (length_pnorm_le _) ?_
  rw [length_convolve c a b hb]
  omega

@[simp] theorem length_scaleRow (c : Config) (r : Int) (b : Poly) : (scaleRow c r b).length = b.length := by
  simp [scaleRow]

/-- The remainder of a normalised list is normalised and no longer than it. -/
theorem pmodLoop_normalised (c : Config) (n : Nat) {a : Poly} (ha : Normalised a) (b : Poly) :
    Normalised (pmodLoop c n a b) ∧ (pmodLoop c n a b).length ≤ a.length := by
  have h1 := List.length_pos_of_ne_nil ha.1
  induction n generalizing a with
  | zero => exact ⟨ha, Nat.le_refl _⟩
  | succ n ih =>
    have hz : Normalised ([0] : Poly) ∧ ([0] : Poly).length ≤ a.length := ⟨⟨by simp, by simp⟩, h1⟩
    simp only [pmodLoop]
    split
    · exact ⟨ha, Nat.le_refl _⟩
    · split
      · exact hz
      · split
        · rename_i la lb _ _
          have hl := length_pnorm_le (xorFront (scaleRow c ((la : Int) - lb) b) a)
          refine ⟨(ih (pnorm_normalised _) (length_pnorm_pos _)).1,
            Nat.le_trans (ih (pnorm_normalised _) (length_pnorm_pos _)).2 (Nat.le_trans hl ?_)⟩
          simp only [length_xorFront]; omega
        · exact hz

theorem pmod_normalised (c : Config) {a : Poly} (ha : Normalised a) (b : Poly) : Normalised (pmod c a b) :=
  (pmodLoop_normalised c _ ha b).1

theorem length_pmod_le (c : Config) {a : Poly} (ha : Normalised a) (b : Poly) : (pmod c a b).length ≤ a.length :=
  (pmodLoop_normalised c _ ha b).2

/-- A shifted normalised list is normalised (41_polynomial.md R113). -/
theorem pshl_normalised {a : Poly} (ha : Normalised a) (n : Nat) : Normalised (pshl a n) := by
  unfold pshl
  split
  · exact ⟨by simp, by simp⟩
  · rename_i h
    match a, ha, h with
    | [], ha, _ => exact absurd rfl ha.1
    | [x], _, h => exact ⟨by simp, fun _ => by simpa using h⟩
    | x :: y :: t, ha, _ => exact ⟨by simp, fun _ => by simpa using ha.2⟩

theorem pgen_normalised (c : Config) (n : Nat) : Normalised (pgen c n) := by
  cases n with
  | zero => exact ⟨by simp [pgen], by simp [pgen]⟩
  | succ n => exact pmul_normalised c _ _

theorem length_pgen_le (c : Config) (n : Nat) : (pgen c n).length ≤ n + 1 := by
  induction n with
  | zero => simp [pgen]
  | succ n ih =>
    have := length_pmul_le c (pgen_normalised c n).1 (b := [1, gexp c n]) (by simp)
    simp only [pgen, List.length_cons, List.length_nil] at *
    omega

/-! ### Bits -/

@[simp] theorem length_bitsOf (v k : Nat) : (bitsOf v k).length = k := by
  induction k with
  | zero => rfl
  | succ k ih => simp [bitsOf, ih]

@[simp] theorem length_byteBits (b : Byte) : (byteBits b).length = 8 := length_bitsOf _ _

theorem length_flatMap_byteBits (bs : List Byte) : (bs.flatMap byteBits).length = 8 * bs.length := by
  induction bs with
  | nil => rfl
  | cons b bs ih => simp only [List.flatMap_cons, List.length_append, length_byteBits, ih, List.length_cons]; omega

/-- A segment of `n` bytes has `4 + w + 8 n` bits (42_rs_codewords.md R146). -/
theorem length_segmentBits (c : Config) (w : Nat) (bs : List Byte) :
    (segmentBits c w bs).length = 4 + w + 8 * bs.length := by
  simp only [segmentBits, List.length_append, length_bitsOf, length_flatMap_byteBits]

@[simp] theorem length_padBits (k : Nat) (e : Bool) : (padBits k e).length = 8 * k := by
  induction k generalizing e with
  | zero => rfl
  | succ k ih => simp only [padBits, List.length_append, length_byteBits, ih]; omega

theorem length_alignBits (bits : List Bool) : (alignBits bits).length = (bits.length + 7) / 8 * 8 := by
  simp only [alignBits, List.length_append, List.length_replicate]; omega

/-- A framed buffer has exactly `8 T` bits (42_rs_codewords.md R151). -/
theorem length_frame {bits : List Bool} {T : Nat} (h : bits.length ≤ 8 * T) : (frame bits T).length = 8 * T := by
  have h1 : (withTerminator bits T).length ≤ 8 * T := by
    unfold withTerminator
    split
    · simp only [List.length_append, List.length_replicate]; omega
    · exact h
  have h2 := length_alignBits (withTerminator bits T)
  simp only [frame, List.length_append, length_padBits]
  omega

@[simp] theorem length_packBits (n : Nat) (bits : List Bool) : (packBits n bits).length = n := by
  induction n generalizing bits with
  | zero => rfl
  | succ n ih => simp [packBits, ih]

/-! ### Blocks -/

@[simp] theorem length_splitData (bd : List Block) (data : List Byte) : (splitData bd data).length = bd.length := by
  induction bd generalizing data with
  | nil => rfl
  | cons b bd ih => simp [splitData, ih]

/-- With enough data every block receives its `data` codewords (42_rs_codewords.md R156). -/
theorem splitData_lengths (bd : List Block) (data : List Byte)
    (h : (bd.map fun b => b.data.toNat).sum ≤ data.length) :
    (splitData bd data).map List.length = bd.map fun b => b.data.toNat := by
  induction bd generalizing data with
  | nil => rfl
  | cons b bd ih =>
    simp only [List.map_cons, List.sum_cons] at h
    simp only [splitData, List.map_cons, List.length_take]
    rw [ih _ (by simp only [List.length_drop]; omega)]
    congr 1; omega

/-- The blocks together are the data (42_rs_codewords.md R156). -/
theorem splitData_flatten (bd : List Block) (data : List Byte)
    (h : data.length = (bd.map fun b => b.data.toNat).sum) : (splitData bd data).flatten = data := by
  induction bd generalizing data with
  | nil => exact (List.length_eq_zero_iff.1 h).symm
  | cons b bd ih =>
    simp only [List.map_cons, List.sum_cons] at h
    simp only [splitData, List.flatten_cons]
    rw [ih _ (by simp only [List.length_drop]; omega), List.take_append_drop]

/-! ### The tables alone: configurations with the same `EXP` and `LOG` compute the same (00_scope.md R11) -/

section SameTables

variable {c d : Config} (he : d.exp = c.exp) (hl : d.log = c.log)

include hl in
theorem glog_congr : glog d = glog c := by
  funext x
  rw [glog, glog, hl]

include he in
theorem gexp_congr : gexp d = gexp c := by
  funext n
  rw [gexp, gexp, he]

include he hl

theorem gmul_congr : gmul d = gmul c := by
  funext x y
  rw [gmul, gmul, glog_congr hl, gexp_congr he]

theorem pmul_congr : pmul d = pmul c := by
  have h : ∀ a b, convolve d a b = convolve c a b := fun a b => by
    induction a with
    | nil => rfl
    | cons x a ih => rw [convolve, convolve, ih, gmul_congr he hl]
  funext a b
  rw [pmul, pmul, h]

theorem pmodLoop_congr (n : Nat) : pmodLoop d n = pmodLoop c n := by
  have hs : scaleRow d = scaleRow c := by
    funext ratio b
    rw [scaleRow, scaleRow, glog_congr hl, gexp_congr he]
  induction n with
  | zero => rfl
  | succ n ih =>
    funext a b
    rw [pmodLoop, pmodLoop, ih, glog_congr hl, hs]

theorem pmod_congr : pmod d = pmod c := by
  funext a b
  rw [pmod, pmod, pmodLoop_congr he hl]

theorem pgen_congr (n : Nat) : pgen d n = pgen c n := by
  induction n with
  | zero => rfl
  | succ n ih => rw [pgen, pgen, ih, pmul_congr he hl, gexp_congr he]

theorem rsecc_congr : rsecc d = rsecc c := by
  funext data e
  rw [rsecc, rsecc, pmod_congr he hl, pgen_congr he hl]

/-- The codeword stream is a function of the tables, the descriptors and the data (42_rs_codewords.md R166). -/
theorem codewordStream_congr : codewordStream d = codewordStream c := by
  funext bd data
  rw [codewordStream, codewordStream, eccData, eccData, rsecc_congr he hl]

end SameTables

end Sys2Proof.Machine
end

