-- ==== Sys2Proof/Laws/Commands.lean ====
section
/-! SUPPORT. What a command can do, said once for all 25: every proof about `exec` splits these cases instead of unfolding
the meanings. -/

namespace Sys2Proof.Machine

open Sys2Proof.Reference

/-- The shapes of a command's answer, each with what every such answer satisfies. -/
inductive Effect (i : Instr) (s : State) : Result → Prop where
  /-- a fault is latched and nothing else changes (60_exceptions.md R222) -/
  | latched (c : Cause) : Effect i s (.next (s.latch c (encode i)))
  /-- `NOP` -/
  | nothing (h : i = .nop) : Effect i s (.next s)
  /-- `RESET` -/
  | reset (h : i = .reset) : Effect i s (.next s.resetUnit)
  /-- the commands of 10_state.md R26 write their scalar register -/
  | scalar (rd : SReg) (v : Word) (h : scalarDest i = some rd) : Effect i s (.next (s.setReg rd v))
  /-- the commands of 10_state.md R29 write their polynomial register, with a legal content -/
  | poly (pd : PReg) (p : Poly) (h : polyDest i = some pd)
      (hp : (∀ q, PolyRegister (s.poly q)) → PolyRegister p) : Effect i s (.next (s.setPoly pd p))
  /-- `SETVER` writes a legal version -/
  | version (imm : BitVec 16) (v : BitVec 6) (h : i = .setver imm) (hv : v.toNat ≤ Config.vmax) :
      Effect i s (.next (s.setVersion v))
  /-- `BDCLR` and `BDADD` write the descriptor list, which stays legal -/
  | blocks (l : List Block) (h : i = .bdclr ∨ ∃ c t d, i = .bdadd c t d) (hl : l.length ≤ Config.nbmax)
      (hb : ∀ b ∈ l, b ∈ s.bd ∨ LegalBlock b) : Effect i s (.next (s.setBd l))
  /-- `BBCLR`, `BBPUT`, `SEGADD` and `FRAME` write the bit buffer, which stays within its capacity -/
  | bits (l : List Bool) (h : i = .bbclr ∨ i = .frame ∨ (∃ v n, i = .bbput v n) ∨ ∃ a n, i = .segadd a n)
      (hl : l.length ≤ Config.bbmax) : Effect i s (.next (s.setBb l))
  /-- the commands of 20_memory.md R62 store bytes in a range of the scratchpad -/
  | store (a n : Nat) (bs : List Byte) (h : storeRange s i = some (a, n)) (hin : inScratchpad a n) :
      Effect i s (storeBytes s a bs)

/-- Every command's answer has one of these shapes. -/
theorem exec_effect (i : Instr) (s : State) : Effect i s (exec i s) := by
  cases i with
  | nop => exact .nothing rfl
  | reset => exact .reset rfl
  | setver imm =>
    simp only [exec, execSetver, raise_eq]
    split
    · exact .latched _
    · rename_i h
      refine .version imm _ rfl ?_
      simp only [Config.vmax] at *
      rw [BitVec.toNat_ofNat, Nat.mod_eq_of_lt (by omega)]; omega
  | li rd imm => exact .scalar rd _ rfl
  | gflog rd rs =>
    simp only [exec, execGflog, raise_eq]
    split
    · exact .latched _
    · split
      · exact .latched _
      · exact .scalar rd _ rfl
  | gfexp rd rs => exact .scalar rd _ rfl
  | gfmul rd rs1 rs2 =>
    simp only [exec, execGfmul, raise_eq]
    split
    · exact .latched _
    · split
      · exact .latched _
      · exact .scalar rd _ rfl
  | pld pd ra rn =>
    simp only [exec, execPld, raise_eq]
    split
    · exact .latched _
    · split
      · exact .latched _
      · split
        · exact .latched _
        · rename_i h1 h2 h3
          rw [loadBytes_of_in (Classical.not_not.1 h3)]
          refine .poly pd _ rfl fun _ => ⟨pnorm_normalised _, ?_⟩
          have := length_pnorm_le (s.mem.readBytes (s.num ra) (s.num rn))
          simp only [Memory.length_readBytes, Config.pmax] at *
          omega
  | pst ra ps rn =>
    simp only [exec, execPst, raise_eq]
    split
    · exact .latched _
    · split
      · exact .latched _
      · rename_i h; exact .store _ _ _ rfl (Classical.not_not.1 h)
  | plen rd ps => exact .scalar rd _ rfl
  | pmul pd pa pb =>
    simp only [exec, execPmul, raise_eq]
    split
    · exact .latched _
    · rename_i h
      refine .poly pd _ rfl fun hq => ⟨pmul_normalised .., Nat.le_trans (length_pmul_le _ (hq pa).1.1 (hq pb).1.1) ?_⟩
      exact Nat.le_of_not_lt h
  | pmod pd pa pb =>
    simp only [exec, execPmod, raise_eq]
    split
    · exact .latched _
    · exact .poly pd _ rfl fun hq => ⟨pmod_normalised _ (hq pa).1 _, Nat.le_trans (length_pmod_le _ (hq pa).1 _) (hq pa).2⟩
  | pshl pd pa rn =>
    simp only [exec, execPshl, raise_eq]
    split
    · exact .latched _
    · rename_i h
      refine .poly pd _ rfl fun hq => ⟨pshl_normalised (hq pa).1 _, ?_⟩
      unfold pshl
      split
      · simp
      · rename_i hz
        simp only [List.length_append, List.length_replicate]
        exact Nat.le_of_not_lt fun hlt => h ⟨hz, hlt⟩
  | pgen pd rn =>
    simp only [exec, execPgen, raise_eq]
    split
    · exact .latched _
    · rename_i h
      exact .poly pd _ rfl fun _ => ⟨pgen_normalised .., Nat.le_trans (length_pgen_le ..) (Nat.le_of_not_lt h)⟩
  | bdclr => exact .blocks _ (.inl rfl) (Nat.zero_le _) (by simp)
  | bdadd count total data =>
    simp only [exec, execBdadd, raise_eq]
    split
    · exact .latched _
    · split
      · exact .latched _
      · split
        · exact .latched _
        · split
          · exact .latched _
          · rename_i h1 h2 h3 h4
            refine .blocks _ (.inr ⟨_, _, _, rfl⟩) ?_ fun b hb => ?_
            · simpa [State.bdcnt] using h4
            · rcases List.mem_append.1 hb with hb | hb
              · exact .inl hb
              · obtain ⟨-, rfl⟩ := List.mem_replicate.1 hb
                exact .inr ⟨Nat.pos_of_ne_zero h2, Nat.lt_of_not_le h3⟩
  | bbclr => exact .bits _ (.inl rfl) (Nat.zero_le _)
  | bbput rv rn =>
    simp only [exec, execBbput, raise_eq]
    split
    · exact .latched _
    · split
      · exact .latched _
      · split
        · exact .latched _
        · rename_i h
          exact .bits _ (.inr (.inr (.inl ⟨_, _, rfl⟩))) (by simpa using h)
  | segadd ra rn =>
    simp only [exec, execSegadd, raise_eq]
    split
    · exact .latched _
    · split
      · exact .latched _
      · split
        · exact .latched _
        · split
          · exact .latched _
          · rename_i h1 h2 h3 h4
            rw [loadBytes_of_in (Classical.not_not.1 h4)]
            refine .bits _ (.inr (.inr (.inr ⟨_, _, rfl⟩))) ?_
            simp only [List.length_append, length_segmentBits, Memory.length_readBytes, Config.bbmax] at *
            omega
  | frame =>
    simp only [exec, execFrame, raise_eq]
    split
    · exact .latched _
    · split
      · exact .latched _
      · split
        · exact .latched _
        · rename_i h1 h2 h3
          exact .bits _ (.inr (.inl rfl)) (by rw [length_frame (Nat.le_of_not_lt h3)]; exact Nat.le_of_not_lt h2)
  | bbst ra =>
    simp only [exec, execBbst, raise_eq]
    split
    · exact .latched _
    · rename_i h; exact .store _ _ _ rfl (Classical.not_not.1 h)
  | rsecc rdst rsrc rk re =>
    simp only [exec, execRsecc, raise_eq]
    split
    · exact .latched _
    · split
      · exact .latched _
      · split
        · exact .latched _
        · split
          · exact .latched _
          · split
            · exact .latched _
            · rename_i h1 h2
              rw [loadBytes_of_in (Classical.not_not.1 h1)]
              exact .store _ _ _ rfl (Classical.not_not.1 h2)
  | cwgen rdst rsrc =>
    simp only [exec, execCwgen, raise_eq]
    split
    · exact .latched _
    · split
      · exact .latched _
      · split
        · exact .latched _
        · rename_i h1 h2
          rw [loadBytes_of_in (Classical.not_not.1 h1)]
          exact .store _ _ _ rfl (Classical.not_not.1 h2)
  | bchfmt rd rl rm =>
    simp only [exec, execBchfmt, raise_eq]
    split
    · exact .latched _
    · split
      · exact .latched _
      · exact .scalar rd _ rfl
  | bchver rd =>
    simp only [exec, execBchver, raise_eq]
    split
    · exact .latched _
    · exact .scalar rd _ rfl

end Sys2Proof.Machine
end

