-- ==== Sys2Proof/Laws/Config.lean ====
section
/-! SUPPORT. The default parameters and tables are valid ones (10_state.md R21, R22, R25). The two table checks are one pass
over `EXP` each, `LOG` packed into one number for the second, so that the kernel evaluates them quickly. -/

namespace Sys2Proof.Machine

/-- Each element of the list is the one before it times `g`. -/
def stepsOk (p : BitVec 9) (g : Byte) : List Byte → Bool
  | x :: y :: t => (y == clmul p x g) && stepsOk p g (y :: t)
  | _ => true

theorem getD_succ_of_stepsOk {p : BitVec 9} {g : Byte} {l : List Byte} (h : stepsOk p g l = true) (i : Nat)
    (hi : i + 1 < l.length) : l.getD (i + 1) 0 = clmul p (l.getD i 0) g := by
  induction l generalizing i with
  | nil => simp at hi
  | cons x t ih =>
    cases t with
    | nil => simp at hi
    | cons y t =>
      simp only [stepsOk, Bool.and_eq_true, beq_iff_eq] at h
      cases i with
      | zero => simpa using h.1
      | succ i => simpa using ih h.2 i (by simpa using hi)

/-- The list as one number, its first element the least significant byte. -/
def packBytes : List Byte → Nat
  | [] => 0
  | x :: t => x.toNat + 256 * packBytes t

theorem getElem?_of_packBytes (l : List Byte) (i : Nat) (h : i < l.length) :
    (l[i]?).map BitVec.toNat = some ((packBytes l >>> (8 * i)) % 256) := by
  induction l generalizing i with
  | nil => simp at h
  | cons x t ih =>
    cases i with
    | zero =>
      have := x.isLt
      simp [packBytes]
      omega
    | succ i =>
      rw [List.getElem?_cons_succ, ih i (by simpa using h), packBytes, show 8 * (i + 1) = 8 + 8 * i by omega,
        Nat.shiftRight_add]
      congr 3
      have := x.isLt
      simp only [Nat.shiftRight_eq_div_pow]
      omega

/-- The packed table holds at the place of the list's element `j`, which is not 0, the number `i + j`. -/
def logsOk (P : Nat) : Nat → List Byte → Bool
  | _, [] => true
  | i, x :: t => Nat.beq ((P >>> (8 * (x.toNat - 1))) % 256) i && (!Nat.beq x.toNat 0 && logsOk P (i + 1) t)

theorem glog_of_logsOk {c : Config} (hc : c.log.length = 255) {k : Nat} {l : List Byte}
    (h : logsOk (packBytes c.log) k l = true) (i : Nat) (hi : i < l.length) : glog c (l.getD i 0) = some (k + i) := by
  induction l generalizing i k with
  | nil => simp at hi
  | cons x t ih =>
    simp only [logsOk, Bool.and_eq_true, Bool.not_eq_true'] at h
    cases i with
    | zero =>
      have h0 : x ≠ 0 := by
        rintro rfl
        simp at h
      have := x.isLt
      simp only [List.getD_cons_zero, glog, h0, if_false]
      rw [getElem?_of_packBytes _ _ (by omega), Nat.eq_of_beq_eq_true h.1]
      rfl
    | succ i =>
      rw [List.getD_cons_succ, ih h.2.2 i (by simpa using hi)]
      congr 1
      omega

theorem expTable_stepsOk : stepsOk 0x11D 2 expTable = true := by decide +kernel

theorem expTable_logsOk : logsOk (packBytes logTable) 0 (expTable.take 255) = true := by decide +kernel

theorem expTable_length : expTable.length = 256 := by decide +kernel

theorem logTable_length : logTable.length = 255 := by decide +kernel

theorem defaultConfig_valid : ValidConfig defaultConfig where
  exp_length := expTable_length
  log_length := logTable_length
  exp_zero := rfl
  exp_step := fun i hi => getD_succ_of_stepsOk expTable_stepsOk i (by rw [expTable_length]; omega)
  exp_last := rfl
  log_exp := fun i hi => by
    have h := glog_of_logsOk (c := defaultConfig) logTable_length expTable_logsOk i
      (by rw [List.length_take, expTable_length]; omega)
    rw [Nat.zero_add] at h
    rwa [List.getD_eq_getElem?_getD, List.getElem?_take_of_lt hi, ← List.getD_eq_getElem?_getD] at h

/-- The configuration of the state after reset is a valid one. -/
theorem reset_config_valid : ValidConfig State.reset.config := defaultConfig_valid

end Sys2Proof.Machine
end

