-- ==== Sys2Proof/Laws/Encoding.lean ====
section
/-! SUPPORT. The fields of the words of each format, one lemma per field (30_encoding.md R71): what the decoder's field
functions read from a word the encoder laid out, and which bits of it are zero. -/

namespace Sys2Proof

@[simp] theorem opField_encR (op : BitVec 8) (a b c d : Fin 8) : opField (encR op a b c d) = op := by
  apply BitVec.eq_of_getElem_eq
  intro i hi
  simp only [opField, encR, regBits, BitVec.getElem_extractLsb', BitVec.getLsbD_append]
  interval_cases i <;> simp

theorem encR_bits21 (op : BitVec 8) (a b c d : Fin 8) : (encR op a b c d).extractLsb' 21 3 = regBits a := by
  apply BitVec.eq_of_getElem_eq
  intro i hi
  simp only [encR, regBits, BitVec.getElem_extractLsb', BitVec.getLsbD_append]
  interval_cases i <;> simp

@[simp] theorem aField_encR (op : BitVec 8) (a b c d : Fin 8) : aField (encR op a b c d) = a := by
  simp [aField, encR_bits21, regBits]

theorem encR_bits18 (op : BitVec 8) (a b c d : Fin 8) : (encR op a b c d).extractLsb' 18 3 = regBits b := by
  apply BitVec.eq_of_getElem_eq
  intro i hi
  simp only [encR, regBits, BitVec.getElem_extractLsb', BitVec.getLsbD_append]
  interval_cases i <;> simp

@[simp] theorem bField_encR (op : BitVec 8) (a b c d : Fin 8) : bField (encR op a b c d) = b := by
  simp [bField, encR_bits18, regBits]

theorem encR_bits15 (op : BitVec 8) (a b c d : Fin 8) : (encR op a b c d).extractLsb' 15 3 = regBits c := by
  apply BitVec.eq_of_getElem_eq
  intro i hi
  simp only [encR, regBits, BitVec.getElem_extractLsb', BitVec.getLsbD_append]
  interval_cases i <;> simp

@[simp] theorem cField_encR (op : BitVec 8) (a b c d : Fin 8) : cField (encR op a b c d) = c := by
  simp [cField, encR_bits15, regBits]

theorem encR_bits12 (op : BitVec 8) (a b c d : Fin 8) : (encR op a b c d).extractLsb' 12 3 = regBits d := by
  apply BitVec.eq_of_getElem_eq
  intro i hi
  simp only [encR, regBits, BitVec.getElem_extractLsb', BitVec.getLsbD_append]
  interval_cases i <;> simp

@[simp] theorem dField_encR (op : BitVec 8) (a b c d : Fin 8) : dField (encR op a b c d) = d := by
  simp [dField, encR_bits12, regBits]

@[simp] theorem opField_encI (op : BitVec 8) (a : Fin 8) (imm : BitVec 16) : opField (encI op a imm) = op := by
  apply BitVec.eq_of_getElem_eq
  intro i hi
  simp only [opField, encI, regBits, BitVec.getElem_extractLsb', BitVec.getLsbD_append]
  interval_cases i <;> simp

theorem encI_bits21 (op : BitVec 8) (a : Fin 8) (imm : BitVec 16) : (encI op a imm).extractLsb' 21 3 = regBits a := by
  apply BitVec.eq_of_getElem_eq
  intro i hi
  simp only [encI, regBits, BitVec.getElem_extractLsb', BitVec.getLsbD_append]
  interval_cases i <;> simp

@[simp] theorem aField_encI (op : BitVec 8) (a : Fin 8) (imm : BitVec 16) : aField (encI op a imm) = a := by
  simp [aField, encI_bits21, regBits]

@[simp] theorem immField_encI (op : BitVec 8) (a : Fin 8) (imm : BitVec 16) : immField (encI op a imm) = imm := by
  apply BitVec.eq_of_getElem_eq
  intro i hi
  simp only [immField, encI, regBits, BitVec.getElem_extractLsb', BitVec.getLsbD_append]
  interval_cases i <;> simp

@[simp] theorem opField_encV (op : BitVec 8) (imm : BitVec 16) : opField (encV op imm) = op := by
  apply BitVec.eq_of_getElem_eq
  intro i hi
  simp only [opField, encV, BitVec.getElem_extractLsb', BitVec.getLsbD_append]
  interval_cases i <;> simp

@[simp] theorem immField_encV (op : BitVec 8) (imm : BitVec 16) : immField (encV op imm) = imm := by
  apply BitVec.eq_of_getElem_eq
  intro i hi
  simp only [immField, encV, BitVec.getElem_extractLsb', BitVec.getLsbD_append]
  interval_cases i <;> simp

@[simp] theorem opField_encB (op : BitVec 8) (count total data : Byte) : opField (encB op count total data) = op := by
  apply BitVec.eq_of_getElem_eq
  intro i hi
  simp only [opField, encB, BitVec.getElem_extractLsb', BitVec.getLsbD_append]
  interval_cases i <;> simp

@[simp] theorem countField_encB (op : BitVec 8) (count total data : Byte) : countField (encB op count total data) = count := by
  apply BitVec.eq_of_getElem_eq
  intro i hi
  simp only [countField, encB, BitVec.getElem_extractLsb', BitVec.getLsbD_append]
  interval_cases i <;> simp

@[simp] theorem totalField_encB (op : BitVec 8) (count total data : Byte) : totalField (encB op count total data) = total := by
  apply BitVec.eq_of_getElem_eq
  intro i hi
  simp only [totalField, encB, BitVec.getElem_extractLsb', BitVec.getLsbD_append]
  interval_cases i <;> simp

@[simp] theorem dataField_encB (op : BitVec 8) (count total data : Byte) : dataField (encB op count total data) = data := by
  apply BitVec.eq_of_getElem_eq
  intro i hi
  simp only [dataField, encB, BitVec.getElem_extractLsb', BitVec.getLsbD_append]
  interval_cases i <;> simp

/-- Format Z: the opcode and the must-be-zero bits of a word of the format. -/
theorem encZ_mask (op : BitVec 8) : encR op 0 0 0 0 &&& 0xFFFFFFFF = op ++ 0#24 := by
  apply BitVec.eq_of_getElem_eq
  intro i hi
  simp only [encR, regBits, BitVec.getElem_and, BitVec.getElem_append]
  interval_cases i <;> simp

@[simp] theorem encZ_mbz (op : BitVec 8) : encR op 0 0 0 0 &&& Format.mbz .Z = 0 := by
  apply BitVec.eq_of_getElem_eq
  intro i hi
  simp only [Format.mbz, encR, regBits, BitVec.getElem_and, BitVec.getElem_append]
  interval_cases i <;> simp

/-- Format R1: the opcode and the must-be-zero bits of a word of the format. -/
theorem encR1_mask (op : BitVec 8) (a : Fin 8) : encR op a 0 0 0 &&& 0xFF1FFFFF = op ++ 0#24 := by
  apply BitVec.eq_of_getElem_eq
  intro i hi
  simp only [encR, regBits, BitVec.getElem_and, BitVec.getElem_append]
  interval_cases i <;> simp

@[simp] theorem encR1_mbz (op : BitVec 8) (a : Fin 8) : encR op a 0 0 0 &&& Format.mbz .R1 = 0 := by
  apply BitVec.eq_of_getElem_eq
  intro i hi
  simp only [Format.mbz, encR, regBits, BitVec.getElem_and, BitVec.getElem_append]
  interval_cases i <;> simp

/-- Format R2: the opcode and the must-be-zero bits of a word of the format. -/
theorem encR2_mask (op : BitVec 8) (a b : Fin 8) : encR op a b 0 0 &&& 0xFF03FFFF = op ++ 0#24 := by
  apply BitVec.eq_of_getElem_eq
  intro i hi
  simp only [encR, regBits, BitVec.getElem_and, BitVec.getElem_append]
  interval_cases i <;> simp

@[simp] theorem encR2_mbz (op : BitVec 8) (a b : Fin 8) : encR op a b 0 0 &&& Format.mbz .R2 = 0 := by
  apply BitVec.eq_of_getElem_eq
  intro i hi
  simp only [Format.mbz, encR, regBits, BitVec.getElem_and, BitVec.getElem_append]
  interval_cases i <;> simp

/-- Format R3: the opcode and the must-be-zero bits of a word of the format. -/
theorem encR3_mask (op : BitVec 8) (a b c : Fin 8) : encR op a b c 0 &&& 0xFF007FFF = op ++ 0#24 := by
  apply BitVec.eq_of_getElem_eq
  intro i hi
  simp only [encR, regBits, BitVec.getElem_and, BitVec.getElem_append]
  interval_cases i <;> simp

@[simp] theorem encR3_mbz (op : BitVec 8) (a b c : Fin 8) : encR op a b c 0 &&& Format.mbz .R3 = 0 := by
  apply BitVec.eq_of_getElem_eq
  intro i hi
  simp only [Format.mbz, encR, regBits, BitVec.getElem_and, BitVec.getElem_append]
  interval_cases i <;> simp

/-- Format R4: the opcode and the must-be-zero bits of a word of the format. -/
theorem encR4_mask (op : BitVec 8) (a b c d : Fin 8) : encR op a b c d &&& 0xFF000FFF = op ++ 0#24 := by
  apply BitVec.eq_of_getElem_eq
  intro i hi
  simp only [encR, regBits, BitVec.getElem_and, BitVec.getElem_append]
  interval_cases i <;> simp

@[simp] theorem encR4_mbz (op : BitVec 8) (a b c d : Fin 8) : encR op a b c d &&& Format.mbz .R4 = 0 := by
  apply BitVec.eq_of_getElem_eq
  intro i hi
  simp only [Format.mbz, encR, regBits, BitVec.getElem_and, BitVec.getElem_append]
  interval_cases i <;> simp

/-- Format I: the opcode and the must-be-zero bits of a word of the format. -/
theorem encI_mask (op : BitVec 8) (a : Fin 8) (imm : BitVec 16) : encI op a imm &&& 0xFF1F0000 = op ++ 0#24 := by
  apply BitVec.eq_of_getElem_eq
  intro i hi
  simp only [encI, regBits, BitVec.getElem_and, BitVec.getElem_append]
  interval_cases i <;> simp

@[simp] theorem encI_mbz (op : BitVec 8) (a : Fin 8) (imm : BitVec 16) : encI op a imm &&& Format.mbz .I = 0 := by
  apply BitVec.eq_of_getElem_eq
  intro i hi
  simp only [Format.mbz, encI, regBits, BitVec.getElem_and, BitVec.getElem_append]
  interval_cases i <;> simp

/-- Format V: the opcode and the must-be-zero bits of a word of the format. -/
theorem encV_mask (op : BitVec 8) (imm : BitVec 16) : encV op imm &&& 0xFFFF0000 = op ++ 0#24 := by
  apply BitVec.eq_of_getElem_eq
  intro i hi
  simp only [encV, BitVec.getElem_and, BitVec.getElem_append]
  interval_cases i <;> simp

@[simp] theorem encV_mbz (op : BitVec 8) (imm : BitVec 16) : encV op imm &&& Format.mbz .V = 0 := by
  apply BitVec.eq_of_getElem_eq
  intro i hi
  simp only [Format.mbz, encV, BitVec.getElem_and, BitVec.getElem_append]
  interval_cases i <;> simp

/-- Format B: the opcode and the must-be-zero bits of a word of the format. -/
theorem encB_mask (op : BitVec 8) (count total data : Byte) : encB op count total data &&& 0xFF000000 = op ++ 0#24 := by
  apply BitVec.eq_of_getElem_eq
  intro i hi
  simp only [encB, BitVec.getElem_and, BitVec.getElem_append]
  interval_cases i <;> simp

@[simp] theorem encB_mbz (op : BitVec 8) (count total data : Byte) : encB op count total data &&& Format.mbz .B = 0 := by simp [Format.mbz]

end Sys2Proof
end

