-- ==== Sys2Proof/Laws/PerInstr.lean ====
section
/-! SUPPORT. One family per instruction, about the instruction as syntax: the word of a command is in its own row of the
opcode table (30_encoding.md R74, R75). -/

namespace Sys2Proof.Laws.TableRow

/-- The word of the command matches a row of the opcode table that has the command's mnemonic. -/
def Statement (i : Instr) : Prop := ∃ r ∈ opcodeTable, r.mnemonic = i.mnemonic ∧ r.selects (encode i)

theorem nop : Statement .nop :=
  ⟨⟨.nop, 0x00000000, 0xFFFFFFFF⟩, by simp [opcodeTable], rfl, (encZ_mask _).trans (by decide)⟩

theorem reset : Statement .reset :=
  ⟨⟨.reset, 0x01000000, 0xFFFFFFFF⟩, by simp [opcodeTable], rfl, (encZ_mask _).trans (by decide)⟩

theorem setver (imm : BitVec 16) : Statement (.setver imm) :=
  ⟨⟨.setver, 0x02000000, 0xFFFF0000⟩, by simp [opcodeTable], rfl, (encV_mask _ _).trans (by decide)⟩

theorem li (rd : SReg) (imm : BitVec 16) : Statement (.li rd imm) :=
  ⟨⟨.li, 0x03000000, 0xFF1F0000⟩, by simp [opcodeTable], rfl, (encI_mask _ _ _).trans (by decide)⟩

theorem gflog (rd rs : SReg) : Statement (.gflog rd rs) :=
  ⟨⟨.gflog, 0x10000000, 0xFF03FFFF⟩, by simp [opcodeTable], rfl, (encR2_mask _ _ _).trans (by decide)⟩

theorem gfexp (rd rs : SReg) : Statement (.gfexp rd rs) :=
  ⟨⟨.gfexp, 0x11000000, 0xFF03FFFF⟩, by simp [opcodeTable], rfl, (encR2_mask _ _ _).trans (by decide)⟩

theorem gfmul (rd rs1 rs2 : SReg) : Statement (.gfmul rd rs1 rs2) :=
  ⟨⟨.gfmul, 0x12000000, 0xFF007FFF⟩, by simp [opcodeTable], rfl, (encR3_mask _ _ _ _).trans (by decide)⟩

theorem pld (pd : PReg) (ra rn : SReg) : Statement (.pld pd ra rn) :=
  ⟨⟨.pld, 0x20000000, 0xFF007FFF⟩, by simp [opcodeTable], rfl, (encR3_mask _ _ _ _).trans (by decide)⟩

theorem pst (ra : SReg) (ps : PReg) (rn : SReg) : Statement (.pst ra ps rn) :=
  ⟨⟨.pst, 0x21000000, 0xFF007FFF⟩, by simp [opcodeTable], rfl, (encR3_mask _ _ _ _).trans (by decide)⟩

theorem plen (rd : SReg) (ps : PReg) : Statement (.plen rd ps) :=
  ⟨⟨.plen, 0x22000000, 0xFF03FFFF⟩, by simp [opcodeTable], rfl, (encR2_mask _ _ _).trans (by decide)⟩

theorem pmul (pd pa pb : PReg) : Statement (.pmul pd pa pb) :=
  ⟨⟨.pmul, 0x23000000, 0xFF007FFF⟩, by simp [opcodeTable], rfl, (encR3_mask _ _ _ _).trans (by decide)⟩

theorem pmod (pd pa pb : PReg) : Statement (.pmod pd pa pb) :=
  ⟨⟨.pmod, 0x24000000, 0xFF007FFF⟩, by simp [opcodeTable], rfl, (encR3_mask _ _ _ _).trans (by decide)⟩

theorem pshl (pd pa : PReg) (rn : SReg) : Statement (.pshl pd pa rn) :=
  ⟨⟨.pshl, 0x25000000, 0xFF007FFF⟩, by simp [opcodeTable], rfl, (encR3_mask _ _ _ _).trans (by decide)⟩

theorem pgen (pd : PReg) (rn : SReg) : Statement (.pgen pd rn) :=
  ⟨⟨.pgen, 0x26000000, 0xFF03FFFF⟩, by simp [opcodeTable], rfl, (encR2_mask _ _ _).trans (by decide)⟩

theorem bdclr : Statement .bdclr :=
  ⟨⟨.bdclr, 0x30000000, 0xFFFFFFFF⟩, by simp [opcodeTable], rfl, (encZ_mask _).trans (by decide)⟩

theorem bdadd (count total data : Byte) : Statement (.bdadd count total data) :=
  ⟨⟨.bdadd, 0x31000000, 0xFF000000⟩, by simp [opcodeTable], rfl, (encB_mask _ _ _ _).trans (by decide)⟩

theorem bbclr : Statement .bbclr :=
  ⟨⟨.bbclr, 0x32000000, 0xFFFFFFFF⟩, by simp [opcodeTable], rfl, (encZ_mask _).trans (by decide)⟩

theorem bbput (rv rn : SReg) : Statement (.bbput rv rn) :=
  ⟨⟨.bbput, 0x33000000, 0xFF03FFFF⟩, by simp [opcodeTable], rfl, (encR2_mask _ _ _).trans (by decide)⟩

theorem segadd (ra rn : SReg) : Statement (.segadd ra rn) :=
  ⟨⟨.segadd, 0x34000000, 0xFF03FFFF⟩, by simp [opcodeTable], rfl, (encR2_mask _ _ _).trans (by decide)⟩

theorem frame : Statement .frame :=
  ⟨⟨.frame, 0x35000000, 0xFFFFFFFF⟩, by simp [opcodeTable], rfl, (encZ_mask _).trans (by decide)⟩

theorem bbst (ra : SReg) : Statement (.bbst ra) :=
  ⟨⟨.bbst, 0x36000000, 0xFF1FFFFF⟩, by simp [opcodeTable], rfl, (encR1_mask _ _).trans (by decide)⟩

theorem rsecc (rdst rsrc rk re : SReg) : Statement (.rsecc rdst rsrc rk re) :=
  ⟨⟨.rsecc, 0x37000000, 0xFF000FFF⟩, by simp [opcodeTable], rfl, (encR4_mask _ _ _ _ _).trans (by decide)⟩

theorem cwgen (rdst rsrc : SReg) : Statement (.cwgen rdst rsrc) :=
  ⟨⟨.cwgen, 0x38000000, 0xFF03FFFF⟩, by simp [opcodeTable], rfl, (encR2_mask _ _ _).trans (by decide)⟩

theorem bchfmt (rd rl rm : SReg) : Statement (.bchfmt rd rl rm) :=
  ⟨⟨.bchfmt, 0x40000000, 0xFF007FFF⟩, by simp [opcodeTable], rfl, (encR3_mask _ _ _ _).trans (by decide)⟩

theorem bchver (rd : SReg) : Statement (.bchver rd) :=
  ⟨⟨.bchver, 0x41000000, 0xFF1FFFFF⟩, by simp [opcodeTable], rfl, (encR1_mask _ _).trans (by decide)⟩

end Sys2Proof.Laws.TableRow
end

