-- ==== Sys2Proof/Tests/Slice0.lean ====
section
/-! SUPPORT. The model's own tests: words against 30_encoding.md R81 and 95_test_vectors.md, ill-formed written commands, one
step at a time against 95_test_vectors.md, and for each statement with hypotheses a state and operands that meet them. -/

namespace Sys2Proof.Tests

open Sys2Proof.Machine Sys2Proof.Reference

/-! ### Helpers -/

/-- The answer is a next state, and it passes the check. -/
def after (o : Result) (check : State → Bool) : Bool :=
  match o with
  | .next t => check t
  | _ => false

theorem next_of_after {o : Result} {check : State → Bool} (h : after o check = true) : ∃ t, o = .next t := by
  cases o with
  | next t => exact ⟨t, rfl⟩
  | fault _ => simp [after] at h
  | refused _ => simp [after] at h

/-- The state after reset with some scalar registers set. -/
def regs (l : List (Fin 8 × Nat)) : State := l.foldl (fun s p => s.setReg p.1 (wordOf p.2)) State.reset

/-- The state after reset with some polynomial registers set. -/
def polys (l : List (Fin 8 × Poly)) : State := l.foldl (fun s p => s.setPoly p.1 p.2) State.reset

/-- The host's next accesses. -/
def pend (s : State) (l : List Event) : State := { s with pending := l }

/-- The host's next access writes this word to `CMD`. -/
def cmd (s : State) (w : Word) : State := pend s [.access (.write 0x000 (.word w))]

/-- `n` blocks `{total, data}`. -/
def blocks (n : Nat) (total data : Byte) : List Block := List.replicate n ⟨total, data⟩

/-! ### Written commands that the assembler refuses (R79) -/

theorem test_ill_formed_count : (AsmCommand.mk .li [.scalar 1]).countOk = false ∧
    (AsmCommand.mk .li [.scalar 1]).wellFormed = false ∧ assemble ⟨.li, [.scalar 1]⟩ = none := by decide

theorem test_ill_formed_kind : (AsmCommand.mk .pld [.scalar 0, .scalar 1, .scalar 2]).kindsOk = false ∧
    (AsmCommand.mk .pld [.scalar 0, .scalar 1, .scalar 2]).wellFormed = false ∧
    (AsmCommand.mk .setver [.scalar 1]).wellFormed = false := by decide

theorem test_ill_formed_register : (AsmCommand.mk .gflog [.scalar 8, .scalar 0]).numbersFit = false ∧
    (AsmCommand.mk .gflog [.scalar 8, .scalar 0]).wellFormed = false ∧
    (AsmCommand.mk .plen [.scalar 0, .poly 8]).wellFormed = false := by decide

theorem test_ill_formed_immediate : (AsmCommand.mk .li [.scalar 0, .number 32768]).numbersFit = false ∧
    (AsmCommand.mk .li [.scalar 0, .number (-32769)]).wellFormed = false ∧
    (AsmCommand.mk .setver [.number 65536]).wellFormed = false ∧
    (AsmCommand.mk .setver [.number (-1)]).wellFormed = false ∧
    (AsmCommand.mk .bdadd [.number 256, .number 0, .number 0]).wellFormed = false := by decide

/-- Lines of R81, in either case, with a comment. -/
theorem test_assemble_lines : assembleLine "LI r3, -1".toList = some 0x0360FFFF ∧
    assembleLine "li r7, 0x100 ; an address".toList = some 0x03E00100 ∧
    readLine "  ; nothing".toList = .blank := by decide

/-- R79: a range error assembles, and faults when executed (`test_setver_fault`). -/
theorem test_range_error_assembles : assemble ⟨.setver, [.number 41]⟩ = some (.setver 41) := by decide

/-! ### Decoding: a word of 30_encoding.md R81 or of a program of 95_test_vectors.md for every command -/

theorem test_decode_system : decode 0x00000000 = .ok .nop ∧ decode 0x01000000 = .ok .reset ∧
    decode 0x02000007 = .ok (.setver 7) ∧ decode 0x032000C8 = .ok (.li 1 200) := by decide

theorem test_decode_scalar : decode 0x10440000 = .ok (.gflog 2 1) ∧ decode 0x118C0000 = .ok (.gfexp 4 3) ∧
    decode 0x12C68000 = .ok (.gfmul 6 1 5) := by decide

theorem test_decode_poly : decode 0x20050000 = .ok (.pld 0 1 2) ∧ decode 0x215D8000 = .ok (.pst 2 7 3) ∧
    decode 0x22C80000 = .ok (.plen 6 2) ∧ decode 0x23408000 = .ok (.pmul 2 0 1) ∧
    decode 0x24688000 = .ok (.pmod 3 2 1) ∧ decode 0x25C28000 = .ok (.pshl 6 0 5) ∧
    decode 0x26340000 = .ok (.pgen 1 5) := by decide

theorem test_decode_blocks : decode 0x30000000 = .ok .bdclr ∧ decode 0x31011A10 = .ok (.bdadd 1 26 16) ∧
    decode 0x32000000 = .ok .bbclr ∧ decode 0x33280000 = .ok (.bbput 1 2) ∧ decode 0x34040000 = .ok (.segadd 0 1) ∧
    decode 0x35000000 = .ok .frame ∧ decode 0x36400000 = .ok (.bbst 2) ∧
    decode 0x376A5000 = .ok (.rsecc 3 2 4 5) ∧ decode 0x38680000 = .ok (.cwgen 3 2) := by decide

theorem test_decode_bch : decode 0x40D28000 = .ok (.bchfmt 6 4 5) ∧ decode 0x41E00000 = .ok (.bchver 7) := by decide

/-- 95_test_vectors.md 2.1. -/
theorem test_decode_refuses : decode 0x00000001 = .error .mustBeZero ∧ decode 0x04000000 = .error .reservedOpcode ∧
    decode 0xFF000000 = .error .reservedOpcode ∧ decode 0x10440001 = .error .mustBeZero ∧
    decode 0x02010001 = .error .mustBeZero ∧ decode 0x03210000 = .error .mustBeZero ∧
    decode 0x41E00800 = .error .mustBeZero ∧ decode 0x37000800 = .error .mustBeZero ∧
    decode 0x31FFFFFF = .ok (.bdadd 255 255 255) := by decide

theorem test_decode_table_word : decodeTableWord 32 0x12C68000 = some (.gfmul 6 1 5) ∧
    decodeTableWord 32 0x00000001 = none := by decide

/-! ### One step of each command -/

/-- The step runs a command placed as the host's next write. -/
theorem test_fetch_word_runs : after (step (State.reset.withFetchWord 32 0x032000C8)) (fun t =>
    t.reg 1 == 200 && t.pending == []) = true := by decide

theorem test_nop : after (exec .nop (regs [(3, 9)])) (fun t => t.reg 3 == 9 && t.status == 0) = true := by decide

/-- 95_test_vectors.md 2.7: RESET clears the latch and the scratchpad. -/
theorem test_reset : after (exec .reset (((regs [(1, 7)]).latch .logOfZero 0x10440000).setBytes 5 [0xAA])) (fun t =>
    t.status == 0 && t.einfo == 0 && t.mem == [] && t.reg 1 == 0 && t.poly 7 == [0]) = true := by decide

/-- 2.6. -/
theorem test_setver : after (exec (.setver 40) State.reset) (fun t => t.version == 40 && !t.err) = true := by decide
/-- 2.6. -/
theorem test_setver_fault : after (exec (.setver 41) State.reset) (fun t =>
    t.version == 0 && t.status == 0x21 && t.einfo == 0x02000029) = true := by decide

/-- 2.6. -/
theorem test_li : after (exec (.li 1 0x8000) State.reset) (fun t => t.reg 1 == 0xFFFF8000) = true := by decide

/-- 2.2. -/
theorem test_gflog : after (exec (.gflog 2 1) (regs [(1, 200)])) (fun t => t.reg 2 == 196) = true := by decide
/-- 2.2, 2.7. -/
theorem test_gflog_zero : after (exec (.gflog 2 1) State.reset) (fun t =>
    t.status == 0x31 && t.einfo == 0x10440000 && t.reg 2 == 0) = true := by decide

/-- 2.2. -/
theorem test_gfexp_negative : after (exec (.gfexp 2 1) (regs [(1, 0x80000000)])) (fun t => t.reg 2 == 204) = true := by
  decide
/-- 2.2. -/
theorem test_gfexp_wraps : after (exec (.gfexp 2 1) (regs [(1, 255)])) (fun t => t.reg 2 == 1) = true := by decide

/-- 2.2. -/
theorem test_gfmul : after (exec (.gfmul 1 1 2) (regs [(1, 255), (2, 255)])) (fun t => t.reg 1 == 226) = true := by
  decide
/-- 2.2, 2.7. -/
theorem test_gfmul_fault_before_zero : after (exec (.gfmul 1 1 2) (regs [(1, 256)])) (fun t =>
    t.status == 0x21 && t.reg 1 == 256) = true := by decide

/-- 2.3. -/
theorem test_pld : after (exec (.pld 0 1 2) ((regs [(1, 16), (2, 4)]).setBytes 16 [0, 0, 5, 9])) (fun t =>
    t.poly 0 == [5, 9]) = true := by decide
/-- 2.3: LengthOverflow before AddressRange. -/
theorem test_pld_order : after (exec (.pld 0 0 1) (regs [(0, 0xFFFFFFFF), (1, 300)])) (fun t => t.status == 0x61) = true := by
  decide

/-- 2.3. -/
theorem test_pst : after (exec (.pst 3 2 4) ((regs [(3, 32), (4, 4)]).setPoly 2 [7, 6])) (fun t =>
    t.mem.readBytes 31 6 == [0, 0, 0, 7, 6, 0]) = true := by decide
/-- 2.3. -/
theorem test_pst_short : after (exec (.pst 0 0 1) State.reset) (fun t => t.status == 0x21) = true := by decide

theorem test_plen : after (exec (.plen 4 2) (polys [(2, [4, 13, 6, 15])])) (fun t => t.reg 4 == 4) = true := by decide

/-- 2.3: the destination equals both sources. -/
theorem test_pmul : after (exec (.pmul 0 0 0) (polys [(0, [1, 2, 3])])) (fun t => t.poly 0 == [1, 0, 4, 0, 5]) = true := by
  decide
/-- 2.3: 399 coefficients. -/
theorem test_pmul_too_long : after (exec (.pmul 1 0 0) (polys [(0, List.replicate 200 1)])) (fun t =>
    t.status == 0x61) = true := by decide +kernel

/-- 2.3: the divisor has a zero coefficient and is not monic. -/
theorem test_pmod : after (exec (.pmod 2 0 1) (polys [(0, [9, 8, 7, 6]), (1, [2, 0, 5])])) (fun t =>
    t.poly 2 == [159, 18]) = true := by decide
/-- 2.3. -/
theorem test_pmod_zero : after (exec (.pmod 1 0 2) State.reset) (fun t =>
    t.status == 0x31 && t.einfo == 0x24210000) = true := by decide

/-- 2.3. -/
theorem test_pshl : after (exec (.pshl 1 0 2) ((regs [(2, 3)]).setPoly 0 [5, 9])) (fun t =>
    t.poly 1 == [5, 9, 0, 0, 0]) = true := by decide
/-- 2.3: no fault for the zero polynomial. -/
theorem test_pshl_zero : after (exec (.pshl 1 0 2) (regs [(2, 0xFFFFFFFF)])) (fun t => t.poly 1 == [0] && !t.err) = true := by
  decide

/-- 2.3. -/
theorem test_pgen : after (exec (.pgen 0 1) (regs [(1, 3)])) (fun t =>
    t.poly 0 == [1, 7, 14, 8]) = true := by decide
/-- 2.3. -/
theorem test_pgen_fault : after (exec (.pgen 0 1) (regs [(1, 256)])) (fun t => t.status == 0x61) = true := by decide

theorem test_bdclr : after (exec .bdclr (State.reset.setBd (blocks 2 33 15))) (fun t => t.bdcnt == 0 && t.tcw == 0) = true := by
  decide

/-- 2.8. -/
theorem test_bdadd : after (exec (.bdadd 2 34 16) (State.reset.setBd (blocks 2 33 15))) (fun t =>
    t.bdcnt == 4 && t.tdc == 62 && t.tcw == 134 && hostRegValue t (.block 2) == 0x2210) = true := by decide
/-- 2.4 (n). -/
theorem test_bdadd_full : after (exec (.bdadd 29 26 16) (State.reset.setBd (blocks 100 26 16))) (fun t =>
    t.status == 0x61 && t.bdcnt == 100) = true := by decide

theorem test_bbclr : after (exec .bbclr (State.reset.setBb [true, false])) (fun t => t.bb == []) = true := by decide

/-- 2.4 (a). -/
theorem test_bbput : after (exec (.bbput 1 2) ((regs [(1, 1), (2, 1)]).setBb [false, true, false, true])) (fun t =>
    t.bb == [false, true, false, true, true]) = true := by decide
/-- 2.4 (c): 16 does not fit in 4 bits. -/
theorem test_bbput_fault : after (exec (.bbput 1 2) (regs [(1, 16), (2, 4)])) (fun t => t.status == 0x21) = true := by decide

/-- 2.4 (e): the 16-bit length field of version 10. -/
theorem test_segadd : after (exec (.segadd 0 1) (((regs [(1, 1)]).setVersion 10).setBytes 0 [0x41])) (fun t =>
    t.bb == [false, true, false, false] ++ List.replicate 15 false ++ [true] ++
      [false, true, false, false, false, false, false, true]) = true := by decide
/-- 2.4 (g). -/
theorem test_segadd_order : after (exec (.segadd 0 1) (regs [(0, 0xFFFFFFFF)])) (fun t => t.status == 0x21) = true := by
  decide

/-- 2.4 (h), n = 8: FF 00 EC. -/
theorem test_frame : after (exec .frame ((State.reset.setBd (blocks 1 5 3)).setBb (List.replicate 8 true))) (fun t =>
    packBits 3 t.bb == [0xFF, 0x00, 0xEC] && t.bb.length == 24) = true := by decide
/-- 2.4 (h), n = 25. -/
theorem test_frame_capacity : after (exec .frame ((State.reset.setBd (blocks 1 5 3)).setBb (List.replicate 25 true)))
    (fun t => t.status == 0x11 && t.bb.length == 25 && t.einfo == 0x35000000) = true := by decide

/-- 2.4 (a). -/
theorem test_bbst : after (exec (.bbst 0) ((regs [(0, 16)]).setBb [false, true, false, true, true])) (fun t =>
    t.mem == [(16, 0x58)]) = true := by decide

/-- 2.4 (o). -/
theorem test_rsecc : after (exec (.rsecc 3 2 4 5) ((regs [(3, 1), (4, 3), (5, 2)]).setBytes 0 [1, 2, 3])) (fun t =>
    t.mem == [(0, 1), (1, 4), (2, 4)]) = true := by decide
/-- 2.4 (o). -/
theorem test_rsecc_fault : after (exec (.rsecc 0 1 2 3) (regs [(2, 200), (3, 56)])) (fun t => t.status == 0x21) = true := by
  decide

/-- 2.4 (p). -/
theorem test_cwgen : after (exec (.cwgen 1 0) (((regs [(1, 64)]).setBd (blocks 1 5 3 ++ blocks 1 6 4)).setBytes 0
    [1, 2, 3, 4, 5, 6, 7])) (fun t => t.mem.readBytes 64 11 == [1, 4, 2, 5, 3, 6, 7, 4, 84, 4, 84]) = true := by
  decide
/-- 2.4 (p). -/
theorem test_cwgen_fault : after (exec (.cwgen 0 1) ((regs [(1, 8177)]).setBd (blocks 1 26 16))) (fun t =>
    t.status == 0x51 && t.mem == []) = true := by decide

/-- 2.5. -/
theorem test_bchfmt : after (exec (.bchfmt 0 1 2) (regs [(1, 3), (2, 7)])) (fun t => t.reg 0 == 0x2BED) = true := by
  decide
/-- 2.5. -/
theorem test_bchfmt_fault : after (exec (.bchfmt 0 1 2) (regs [(2, 8)])) (fun t => t.status == 0x21) = true := by
  decide

/-- 2.5. -/
theorem test_bchver : after (exec (.bchver 7) (State.reset.setVersion 40)) (fun t => t.reg 7 == 0x28C69) = true := by
  decide
/-- 2.5. -/
theorem test_bchver_fault : after (exec (.bchver 7) (State.reset.setVersion 6)) (fun t => t.status == 0x21) = true := by
  decide

/-- 2.7: a latched unit drops a reserved word and a word close to RESET's. -/
theorem test_latched_drops : after (step (cmd (State.reset.latch .logOfZero 0x10440000) 0x01000001)) (fun t =>
    t.status == 0x31 && t.einfo == 0x10440000) = true := by decide
/-- 2.7: the same word on a unit just reset. -/
theorem test_illegal_word : after (step (cmd State.reset 0x01000001)) (fun t =>
    t.status == 0x41 && t.einfo == 0x01000001) = true := by decide

/-- 2.8: the window's last byte. -/
theorem test_window : after (step (pend State.reset [.access (.write 0x3FFF (.byte 0x7F))])) (fun t =>
    t.byteAt 8191 == 0x7F && t.pending == []) = true := by decide
/-- 2.8: `PLEN7` reads 1 after reset. -/
theorem test_read_plen : after (step (pend State.reset [.access (.read 0x05C .word)])) (fun t =>
    t.reply == some (.word 1)) = true := by decide

/-- 70_reset_and_hazards.md R245: the reset input resets a latched unit. -/
theorem test_hardware_reset : after (step (pend (State.reset.latch .logOfZero 0x10440000) [.hardwareReset])) (fun t =>
    t.status == 0 && t.einfo == 0) = true := by decide

/-! ### Witnesses: for each statement with hypotheses, concrete data that meet them, each clause at a boundary -/

/-- A state that keeps the invariant and is not the reset state. -/
def sample : State :=
  { State.reset with
    regs := #v[8176, 8166, 255, 0, 256, 3, 7, 1], polys := #v[[1, 2, 3], [4, 5], [9], [0], [1, 0, 1], [2, 0, 5], [0], [1]],
    bb := List.replicate 9 true, bd := [⟨3, 2⟩], version := 7, err := true, cause := 3, einfo := 0x10440000,
    mem := [(0, 1), (8191, 2)] }

theorem sample_inv : Inv sample where
  config_valid := defaultConfig_valid
  polys := by unfold PolyRegister Normalised; decide
  bb_length := by decide
  bd_length := by decide
  bd_legal := by unfold LegalBlock; decide
  version_legal := by decide
  latch_clear := by decide
  latch_set := by decide
  mem_wf := by decide

/-- The last clause of `EncodingOf`: a word with a nonzero must-be-zero bit for each format that has such bits. -/
theorem witness_EncodingOf : State.reset.err = false ∧
    (opField 0x00000001 = 0x00 ∧ (0x00000001 : Word) &&& Format.mbz .Z ≠ 0) ∧
    (opField 0x41100000 = 0x41 ∧ (0x41100000 : Word) &&& Format.mbz .R1 ≠ 0) ∧
    (opField 0x10020000 = 0x10 ∧ (0x10020000 : Word) &&& Format.mbz .R2 ≠ 0) ∧
    (opField 0x12004000 = 0x12 ∧ (0x12004000 : Word) &&& Format.mbz .R3 ≠ 0) ∧
    (opField 0x37000800 = 0x37 ∧ (0x37000800 : Word) &&& Format.mbz .R4 ≠ 0) ∧
    (opField 0x03100000 = 0x03 ∧ (0x03100000 : Word) &&& Format.mbz .I ≠ 0) ∧
    (opField 0x02010000 = 0x02 ∧ (0x02010000 : Word) &&& Format.mbz .V ≠ 0) := by decide

/-- The premise of `Latches`: a word that is the command. -/
theorem witness_Latches : decode 0x10440000 = .ok (.gflog 2 1) := by decide

theorem witness_ResetCommandRestoresResetState : sample.err = true ∧ (0x01000001 : Word) ≠ 0x01000000 := by decide

theorem witness_SetverAcceptsOneToForty : (0#16).toNat < 1 ∧ (41#16).toNat > 40 ∧
    (1 ≤ (1#16).toNat ∧ (1#16).toNat ≤ 40) ∧ (1 ≤ (40#16).toNat ∧ (40#16).toNat ≤ 40) := by decide

theorem witness_GflogWritesTheLogarithm : ValidConfig (regs [(0, 1), (1, 255), (2, 256)]).config ∧
    (let s := regs [(0, 1), (1, 255), (2, 256)]
     s.num 2 > 255 ∧ s.num 3 = 0 ∧ (1 ≤ s.num 0 ∧ s.num 0 ≤ 255) ∧ 1 ≤ s.num 1 ∧ s.num 1 ≤ 255) :=
  ⟨defaultConfig_valid, by decide⟩

theorem witness_GfexpWritesThePower : ValidConfig (regs [(1, 0x80000000)]).config := defaultConfig_valid

theorem witness_GfmulWritesTheProduct : ValidConfig (regs [(1, 255), (2, 256)]).config ∧
    (let s := regs [(1, 255), (2, 256)]
     s.num 2 > 255 ∧ (s.num 1 ≤ 255 ∧ s.num 0 ≤ 255 ∧ s.num 0 = 0) ∧
     ((s.config.exp.getD 175 0).toNat = s.num 1 ∧ (175 : Nat) < 255)) :=
  ⟨defaultConfig_valid, by decide, by decide, rfl, by decide⟩

theorem witness_PldLoadsNormalisedBytes :
    let s := regs [(0, 8191), (1, 1), (2, 257), (3, 256), (4, 7936), (5, 2)]
    s.num 7 = 0 ∧ s.num 2 > 256 ∧ (1 ≤ s.num 5 ∧ s.num 5 ≤ 256 ∧ s.num 0 + s.num 5 > 8192) ∧
    (1 ≤ s.num 1 ∧ s.num 1 ≤ 256 ∧ s.num 0 + s.num 1 ≤ 8192) ∧
    (1 ≤ s.num 3 ∧ s.num 3 ≤ 256 ∧ s.num 4 + s.num 3 ≤ 8192) := by decide

theorem witness_PstStoresRightAligned :
    let s := (regs [(0, 8190), (1, 2), (2, 3), (3, 1)]).setPoly 2 [7, 6]
    Memory.wf s.mem ∧ (s.poly 2).length > s.num 3 ∧ ((s.poly 2).length ≤ s.num 2 ∧ s.num 0 + s.num 2 > 8192) ∧
    ((s.poly 2).length ≤ s.num 1 ∧ s.num 0 + s.num 1 ≤ 8192) := by decide

theorem witness_PlenWritesTheLength : PolyRegister ((polys [(0, 1 :: List.replicate 255 0)]).poly 0) := by
  unfold PolyRegister Normalised; decide +kernel

theorem witness_PmulWritesTheLoopsProduct :
    let s := polys [(0, 1 :: List.replicate 127 0), (1, 1 :: List.replicate 128 0), (2, 1 :: List.replicate 129 0)]
    ValidConfig s.config ∧ (PolyRegister (s.poly 0) ∧ PolyRegister (s.poly 1) ∧ PolyRegister (s.poly 2)) ∧
    (s.poly 0).length + (s.poly 2).length - 1 > 256 ∧ (s.poly 0).length + (s.poly 1).length - 1 ≤ 256 :=
  ⟨defaultConfig_valid, by unfold PolyRegister Normalised; decide +kernel⟩

theorem witness_PmodWritesTheLoopsRemainder :
    let s := polys [(0, [1, 2, 3]), (1, [1])]
    ValidConfig s.config ∧ (PolyRegister (s.poly 0) ∧ PolyRegister (s.poly 1) ∧ PolyRegister (s.poly 2)) ∧
      s.poly 2 = [0] ∧ s.poly 1 ≠ [0] :=
  ⟨defaultConfig_valid, by unfold PolyRegister Normalised; decide⟩

theorem witness_PshlAppendsZeros :
    let s := (regs [(1, 255), (2, 256), (3, 0xFFFFFFFF)]).setPoly 0 [9]
    (s.poly 0 ≠ [0] ∧ (s.poly 0).length + s.num 2 > 256) ∧ (s.poly 0 ≠ [0] ∧ (s.poly 0).length + s.num 1 ≤ 256) ∧
    s.poly 1 = [0] := by decide

theorem witness_PgenWritesTheGenerator : ValidConfig (regs [(1, 255), (2, 256)]).config ∧
    (let s := regs [(1, 255), (2, 256)]; s.num 2 > 255 ∧ s.num 1 ≤ 255 ∧ s.num 0 ≤ 255) :=
  ⟨defaultConfig_valid, by decide⟩

theorem witness_BdaddAppendsDescriptors :
    let s := State.reset.setBd (blocks 100 26 16)
    (0#8).toNat = 0 ∧ (16#8).toNat ≥ (16#8).toNat ∧
    (1 ≤ (29#8).toNat ∧ 1 ≤ (1#8).toNat ∧ (1#8).toNat < (2#8).toNat ∧ s.bd.length + (29#8).toNat > 128) ∧
    (1 ≤ (28#8).toNat ∧ 1 ≤ (254#8).toNat ∧ (254#8).toNat < (255#8).toNat ∧ s.bd.length + (28#8).toNat ≤ 128) := by
  decide

theorem witness_BbputAppendsBits :
    let s := (regs [(0, 16), (1, 15), (2, 4), (3, 33), (4, 32), (5, 0xFFFFFFFF)]).setBb (List.replicate 32736 true)
    s.num 3 > 32 ∧ (s.num 2 ≤ 32 ∧ s.num 0 ≥ 2 ^ s.num 2) ∧
    (s.num 4 ≤ 32 ∧ s.num 5 < 2 ^ s.num 4 ∧ s.bb.length + s.num 4 ≤ 32768) ∧
    (s.num 4 ≤ 32 ∧ s.num 5 < 2 ^ s.num 4 ∧ (true :: s.bb).length + s.num 4 > 32768) := by
  intro s
  have hb : s.bb.length = 32736 := List.length_replicate
  have h4 : s.num 4 = 32 := by decide
  refine ⟨by decide, by decide, ⟨by decide, by decide, by omega⟩, by decide, by decide, ?_⟩
  rw [List.length_cons, hb, h4]
  omega

theorem witness_SegaddAppendsASegment :
    let s := regs [(0, 8000), (1, 192), (2, 193), (3, 256), (4, 4094), (5, 255), (6, 65536)]
    let t := s.setVersion 10
    let u := s.setVersion 9
    8 = (if u.version.toNat ≤ 9 then 8 else 16) ∧ 16 = (if t.version.toNat ≤ 9 then 8 else 16) ∧ s.version = 0 ∧
    (u.version ≠ 0 ∧ u.num 3 ≥ 2 ^ 8) ∧ (t.version ≠ 0 ∧ t.num 6 ≥ 2 ^ 16) ∧
    (t.version ≠ 0 ∧ t.num 4 < 2 ^ 16 ∧ t.bb.length + 4 + 16 + 8 * t.num 4 > 32768) ∧
    (t.version ≠ 0 ∧ t.num 2 < 2 ^ 16 ∧ t.bb.length + 4 + 16 + 8 * t.num 2 ≤ 32768 ∧ t.num 0 + t.num 2 > 8192) ∧
    (t.version ≠ 0 ∧ t.num 1 < 2 ^ 16 ∧ t.bb.length + 4 + 16 + 8 * t.num 1 ≤ 32768 ∧ t.num 0 + t.num 1 ≤ 8192) ∧
    (u.version ≠ 0 ∧ u.num 5 < 2 ^ 8 ∧ u.bb.length + 4 + 8 + 8 * u.num 5 ≤ 32768 ∧ u.num 7 + u.num 5 ≤ 8192) := by
  decide

theorem witness_FramePadsToCapacity :
    State.reset.bdcnt = 0 ∧
    (let s := State.reset.setBd (blocks 16 255 254 ++ blocks 1 34 33); s.bdcnt ≠ 0 ∧ 8 * s.tdc > 32768) ∧
    (let s := State.reset.setBd (blocks 16 255 254 ++ blocks 1 33 32)
     s.bdcnt ≠ 0 ∧ 8 * s.tdc ≤ 32768 ∧ s.bb.length ≤ 8 * s.tdc) ∧
    (let s := (State.reset.setBd (blocks 1 5 3)).setBb (List.replicate 25 true)
     s.bdcnt ≠ 0 ∧ 8 * s.tdc ≤ 32768 ∧ s.bb.length > 8 * s.tdc) ∧
    (let s := (State.reset.setBd (blocks 1 5 3)).setBb (List.replicate 24 true)
     s.bdcnt ≠ 0 ∧ 8 * s.tdc ≤ 32768 ∧ s.bb.length ≤ 8 * s.tdc) ∧
    (let s := (State.reset.setBd (blocks 1 5 3)).setBb (List.replicate 9 true)
     (s.bdcnt ≠ 0 ∧ 8 * s.tdc ≤ 32768 ∧ s.bb.length ≤ 8 * s.tdc) ∧
     (s.bb.length ≤ 9 ∧ 9 < padStart s.bb.length s.tdc) ∧ padStart s.bb.length s.tdc / 8 + 0 < s.tdc) := by
  decide

theorem witness_BbstStoresTheBits :
    let s := (regs [(0, 8190), (1, 8191)]).setBb (List.replicate 9 true)
    Memory.wf s.mem ∧ 2 = (s.bb.length + 7) / 8 ∧ s.num 1 + 2 > 8192 ∧ s.num 0 + 2 ≤ 8192 := by decide

theorem witness_RseccStoresTheRemainder :
    let s := regs [(0, 254), (1, 1), (2, 2), (3, 8191), (4, 7938), (5, 7939)]
    ValidConfig s.config ∧ Memory.wf s.mem ∧ (s.num 6 = 0 ∧ s.num 0 + s.num 2 > 255) ∧
    (1 ≤ s.num 0 ∧ 1 ≤ s.num 1 ∧ s.num 0 + s.num 1 ≤ 255 ∧ s.num 5 + s.num 0 > 8192) ∧
    (1 ≤ s.num 1 ∧ 1 ≤ s.num 2 ∧ s.num 1 + s.num 2 ≤ 255 ∧ s.num 3 + s.num 2 > 8192) ∧
    (1 ≤ s.num 0 ∧ 1 ≤ s.num 1 ∧ s.num 0 + s.num 1 ≤ 255 ∧ s.num 4 + s.num 0 ≤ 8192 ∧ s.num 3 + s.num 1 ≤ 8192) :=
  ⟨defaultConfig_valid, by decide⟩

theorem witness_CwgenStoresTheStream :
    let s := (regs [(0, 8176), (1, 8177), (2, 8166), (3, 8167)]).setBd (blocks 1 26 16)
    ValidConfig s.config ∧ Memory.wf s.mem ∧ (∀ b ∈ s.bd, LegalBlock b) ∧ State.reset.bdcnt = 0 ∧
    (s.bdcnt ≠ 0 ∧ s.num 1 + s.tdc > 8192) ∧ (s.bdcnt ≠ 0 ∧ s.num 3 + s.tcw > 8192) ∧
    (s.bdcnt ≠ 0 ∧ s.num 0 + s.tdc ≤ 8192 ∧ s.num 2 + s.tcw ≤ 8192) :=
  ⟨defaultConfig_valid, by unfold LegalBlock; decide⟩

theorem witness_BchfmtWritesTheFormatField :
    let s := regs [(0, 3), (1, 4), (2, 7), (3, 8)]
    s.num 1 > 3 ∧ s.num 3 > 7 ∧ (s.num 0 ≤ 3 ∧ s.num 2 ≤ 7) ∧ s.num 4 ≤ 3 ∧ s.num 4 ≤ 7 := by decide

theorem witness_BchverWritesTheVersionField :
    (State.reset.setVersion 40).version.toNat ≤ 40 ∧ (State.reset.setVersion 6).version.toNat < 7 ∧
    7 ≤ (State.reset.setVersion 7).version.toNat ∧ 7 ≤ (State.reset.setVersion 40).version.toNat := by decide

theorem witness_DecodeFollowsTheOpcodeTable :
    decode 0x12C68000 = .ok (.gfmul 6 1 5) ∧
    ∃ r ∈ opcodeTable, r.selects 0x12C68000 ∧ r.mnemonic = .gfmul := by decide

theorem witness_StepRunsTheDecodedCommand :
    CommandNext (cmd (regs [(1, 200)]) 0x10440000) 0x10440000 [] ∧ (cmd (regs [(1, 200)]) 0x10440000).err = false ∧
    decode 0x10440000 = .ok (.gflog 2 1) := ⟨rfl, rfl, by decide⟩

theorem witness_IllegalWordsLatchIllegalCommand : State.reset.err = false ∧
    (ReservedOpcode ((0xFF000000 : Word).toNat / 2 ^ 24) ∧ ReservedOpcode ((0x04000000 : Word).toNat / 2 ^ 24)) ∧
    (∀ r ∈ opcodeTable, ¬ r.selects 0xFF000000) ∧ (∀ r ∈ opcodeTable, ¬ r.selects 0x00000001) :=
  ⟨rfl, by unfold ReservedOpcode; decide, by decide, by decide⟩

theorem witness_LatchedUnitDropsCommands :
    CommandNext (cmd sample 0x01000001) 0x01000001 [] ∧ (cmd sample 0x01000001).err = true ∧
    (0x01000001 : Word) ≠ 0x01000000 := ⟨rfl, rfl, by decide⟩

theorem witness_BothResetCausesResetTheUnit :
    cmd sample 0x01000000 = { sample with pending := .access (.write 0x000 (.word 0x01000000)) :: [] } ∧
    pend sample [.hardwareReset] = { sample with pending := .hardwareReset :: [] } := ⟨rfl, rfl⟩

theorem witness_HostReadsTheRegisterMap :
    (0 < sample.bd.length ∧ (0 : Nat) < 128) ∧ (sample.bd.length ≤ 1 ∧ (1 : Nat) < 128) ∧
    (127 < (sample.setBd (blocks 128 26 16)).bd.length) ∧ sample.bd.length ≤ 127 := by decide +kernel

theorem witness_HostWindowReadsAndWritesBytes : Memory.wf sample.mem ∧ 0 < 8192 ∧ 8191 < 8192 ∧ (0 : Nat) ≠ 8191 := by
  decide

theorem witness_OtherHostAccessesAreRefused :
    (pend sample [.access (.read 0x000 .word)]).pending = .access (.read 0x000 .word) :: [] ∧
    ¬ HostAllowed (.read 0x000 .word) ∧ ¬ HostAllowed (.write 0x004 (.word 0)) ∧ ¬ HostAllowed (.read 0x300 .word) ∧
    ¬ HostAllowed (.read 0x4000 .byte) ∧ ¬ HostAllowed (.write 0x1FFF (.byte 0)) ∧ ¬ HostAllowed (.read 0x2000 .half) := by
  refine ⟨rfl, ?_, by simp [HostAllowed], ?_, ?_, ?_, id⟩
  · rintro (h | ⟨i, _, h⟩ | ⟨i, _, h⟩ | ⟨j, _, h⟩)
    · revert h; decide
    all_goals omega
  · rintro (h | ⟨i, _, h⟩ | ⟨i, _, h⟩ | ⟨j, _, h⟩)
    · revert h; decide
    all_goals omega
  all_goals
    rintro ⟨a, _, h⟩
    omega

theorem witness_IdleUnitHoldsItsState : sample.pending = [] := rfl

theorem witness_FaultsArePrecise :
    (∃ t, exec (.gflog 2 1) State.reset = .next t) ∧ ∃ t, exec (.li 2 1) sample = .next t := ⟨⟨_, rfl⟩, ⟨_, rfl⟩⟩

theorem witness_EveryCommandEnds : Inv sample := sample_inv

/-- Also of StepKeepsTheInvariant and StepKeepsTheConstants: a host access inside the interface and one outside it. -/
theorem witness_StepStopsOnlyOutsideTheInterface :
    (∃ s, Inv s ∧ ∃ t, step s = .next t) ∧
    ∃ s b rest, Inv s ∧ s.pending = .access b :: rest ∧ ¬ HostAllowed b :=
  ⟨⟨sample, sample_inv, _, rfl⟩, pend sample [.access (.read 0 .half)], .read 0 .half, [],
    { config_valid := sample_inv.config_valid, polys := sample_inv.polys, bb_length := sample_inv.bb_length,
      bd_length := sample_inv.bd_length, bd_legal := sample_inv.bd_legal, version_legal := sample_inv.version_legal,
      latch_clear := sample_inv.latch_clear, latch_set := sample_inv.latch_set, mem_wf := sample_inv.mem_wf },
    rfl, id⟩

theorem witness_StepKeepsTheInvariant : ∃ t, Inv sample ∧ step sample = .next t := ⟨_, sample_inv, rfl⟩

theorem witness_StepKeepsTheConstants : ∃ t, step (cmd sample 0x032000C8) = .next t :=
  next_of_after (check := fun t => t.pending == []) (by decide)

theorem witness_GaloisTablesAreInverse : ValidConfig defaultConfig ∧ (1 : Byte) ≠ 0 ∧ (255 : Byte) ≠ 0 :=
  ⟨defaultConfig_valid, by decide⟩

theorem witness_GmulObeysTheFieldLaws : ValidConfig defaultConfig ∧ gmul defaultConfig 0 7 = 0 ∧ (142 : Byte) ≠ 0 :=
  ⟨defaultConfig_valid, by decide, by decide⟩

theorem witness_PnormRemovesLeadingZeros : (5 : Byte) ≠ 0 ∧ Normalised [5, 0] ∧ Normalised [0] := by
  unfold Normalised; decide

/-- 95_test_vectors.md 2.3: a divisor of length 3, one of length 1, and a dividend shorter than its divisor. -/
theorem witness_PmodIsDivisionRemainder : ValidConfig defaultConfig ∧
    (Normalised [9, 8, 7, 6] ∧ Normalised [2, 0, 5] ∧ ([2, 0, 5] : Poly) ≠ [0] ∧ 2 ≤ ([2, 0, 5] : Poly).length) ∧
    (Normalised [7, 7] ∧ Normalised [3] ∧ ([3] : Poly) ≠ [0] ∧ ([3] : Poly).length = 1) ∧
    Normalised [5] ∧ Normalised [1, 3, 2] ∧ ([5] : Poly).length < ([1, 3, 2] : Poly).length :=
  ⟨defaultConfig_valid, by unfold Normalised; decide⟩

theorem witness_MultiplesHaveZeroRemainder :
    ValidConfig defaultConfig ∧ Normalised [1, 2, 3] ∧ Normalised [4, 5] ∧ ([4, 5] : Poly) ≠ [0] :=
  ⟨defaultConfig_valid, by unfold Normalised; decide⟩

theorem witness_CodewordsAreMultiplesOfTheGenerator :
    ValidConfig defaultConfig ∧ ([0] : List Byte) ≠ [] ∧ 1 ≤ 1 ∧ 1 ≤ 254 := ⟨defaultConfig_valid, by decide⟩

theorem witness_FrameSucceedsExactlyWithinCapacity :
    let s := (State.reset.setBd (blocks 1 5 3)).setBb (List.replicate 24 true)
    s.err = false ∧ 1 ≤ s.bdcnt ∧ 8 * s.tdc ≤ 32768 ∧ s.bb.length ≤ 8 * s.tdc := by decide

theorem witness_StreamIsDataThenEcc :
    ValidConfig defaultConfig ∧ (∀ b ∈ blocks 1 5 3 ++ blocks 1 6 4, LegalBlock b) ∧
    ([1, 2, 3, 4, 5, 6, 7] : List Byte).length = ((blocks 1 5 3 ++ blocks 1 6 4).map fun b => b.data.toNat).sum :=
  ⟨defaultConfig_valid, by unfold LegalBlock; decide⟩

theorem witness_StreamDependsOnItsInputsAlone :
    let s := ((regs [(1, 64)]).setBd (blocks 1 5 3)).setBytes 0 [1, 2, 3]
    let t := { (((regs [(2, 100), (3, 200)]).setBd (blocks 1 5 3)).setBytes 100 [1, 2, 3]).setVersion 7 with
      config := { defaultConfig with modeByte := 1 } }
    ValidConfig s.config ∧ (∀ b ∈ s.bd, LegalBlock b) ∧ Memory.wf s.mem ∧ Memory.wf t.mem ∧
    t.config.exp = s.config.exp ∧ t.config.log = s.config.log ∧ t.config ≠ s.config ∧ t.bd = s.bd ∧ s.bdcnt ≠ 0 ∧ s.num 0 + s.tdc ≤ 8192 ∧ s.num 1 + s.tcw ≤ 8192 ∧ t.num 2 + s.tdc ≤ 8192 ∧
    t.num 3 + s.tcw ≤ 8192 ∧ ∀ k < s.tdc, t.byteAt (t.num 2 + k) = s.byteAt (s.num 0 + k) :=
  ⟨defaultConfig_valid, by unfold LegalBlock; decide, by decide, by decide, rfl, rfl,
    fun h => absurd (congrArg Config.modeByte h) (by decide), rfl, by decide⟩

theorem witness_BchremIsTheBinaryRemainder : 1 ≤ 1 ∧ 1 ≤ 1335 := by decide

theorem witness_BchFieldsAreCodewords :
    (let s := regs [(0, 3), (1, 7)]; s.num 0 ≤ 3 ∧ s.num 1 ≤ 7) ∧ (State.reset.num 0 ≤ 3 ∧ State.reset.num 1 ≤ 7) ∧
    (let s := State.reset.setVersion 7; 7 ≤ s.version.toNat ∧ s.version.toNat ≤ 40) ∧
    (let s := State.reset.setVersion 40; 7 ≤ s.version.toNat ∧ s.version.toNat ≤ 40) ∧
    bitlen 1335 = 10 + 1 ∧ bitlen 1 = 0 + 1 := by decide

theorem witness_ScalarCommandFrame :
    (scalarDest (.li 2 7) = some 2 ∧ ∃ t, exec (.li 2 7) sample = .next t) ∧
    (scalarDest (.gflog 2 4) = some 2 ∧ ∃ t, exec (.gflog 2 4) sample = .next t) :=
  ⟨⟨rfl, _, rfl⟩, rfl, next_of_after (check := fun t => t.status == 0x21) (by decide)⟩

theorem witness_PolyAndListCommandFrame :
    (polyDest (.pshl 1 3 2) = some 1 ∧ ∃ t, exec (.pshl 1 3 2) sample = .next t) ∧
    (Instr.mnemonic .bbclr ∈ [Mnemonic.nop, .setver, .bdclr, .bdadd, .bbclr, .bbput, .segadd, .frame] ∧
      ∃ t, exec .bbclr sample = .next t) :=
  ⟨⟨rfl, next_of_after (check := fun t => t.poly 1 == [0]) (by decide)⟩, by decide, _, rfl⟩

theorem witness_StoreCommandFrame :
    ValidConfig sample.config ∧ Memory.wf sample.mem ∧ (∀ b ∈ sample.bd, LegalBlock b) ∧
    (storeRange sample (.pst 0 1 6) = some (8176, 7) ∧ ∃ t, exec (.pst 0 1 6) sample = .next t) ∧
    (storeRange sample (.bbst 0) = some (8176, 2) ∧ ∃ t, exec (.bbst 0) sample = .next t) ∧
    (storeRange sample (.rsecc 1 0 5 7) = some (8166, 1) ∧ ∃ t, exec (.rsecc 1 0 5 7) sample = .next t) ∧
    (storeRange sample (.cwgen 1 0) = some (8166, 3) ∧ ∃ t, exec (.cwgen 1 0) sample = .next t) :=
  ⟨sample_inv.config_valid, sample_inv.mem_wf, sample_inv.bd_legal,
    ⟨by decide, next_of_after (check := fun t => !t.mem.isEmpty) (by decide)⟩,
    ⟨by decide, next_of_after (check := fun t => !t.mem.isEmpty) (by decide)⟩,
    ⟨by decide, next_of_after (check := fun t => !t.mem.isEmpty) (by decide)⟩,
    by decide, next_of_after (check := fun t => !t.mem.isEmpty) (by decide)⟩

end Sys2Proof.Tests
end

section
/-! PROOFS. The lemmas the two scope statements rest on: the tables of a valid configuration are inverse to each other, a
division by a nonzero divisor ends below its length, so `rsecc` and the codeword stream have exactly their lengths; and what
follows of it, that every store stays inside the range its command has tested. -/

namespace Sys2Proof.Machine

open Sys2Proof.Reference

/-! ### Valid tables (10_state.md R21 to R23) -/

theorem glog_zero (c : Config) : glog c 0 = none := rfl

section ValidTables

variable {c : Config} (hc : ValidConfig c)
include hc

/-- Each of the 255 powers has its exponent as logarithm. -/
theorem glog_gexp {i : Nat} (hi : i < 255) : glog c (gexp c i) = some i := by
  have hmod : ((i : Int) % 255).toNat = i := by omega
  rw [gexp, hmod]
  exact hc.log_exp i hi

theorem gexp_ne_zero {i : Nat} (hi : i < 255) : gexp c i ≠ 0 := by
  intro h
  have hlog := glog_gexp hc hi
  rw [h, glog_zero] at hlog
  cases hlog

/-- Every element but 0 is a power: 255 different powers among 255 elements. -/
theorem exists_gexp_eq {x : Byte} (hx : x ≠ 0) : ∃ i : Nat, i < 255 ∧ gexp c i = x := by
  have hinj : Set.InjOn (fun i : Nat => (gexp c i).toNat) (Finset.range 255) := by
    intro i hi j hj hij
    have hlog := glog_gexp hc (Finset.mem_range.1 hi)
    rw [BitVec.eq_of_toNat_eq hij, glog_gexp hc (Finset.mem_range.1 hj)] at hlog
    exact (Option.some.inj hlog).symm
  have hpos {y : Byte} (hy : y ≠ 0) : y.toNat ∈ Finset.Icc 1 255 :=
    Finset.mem_Icc.2 ⟨Nat.pos_of_ne_zero fun h => hy (BitVec.eq_of_toNat_eq h), Nat.le_of_lt_succ y.isLt⟩
  have hsub : (Finset.range 255).image (fun i : Nat => (gexp c i).toNat) ⊆ Finset.Icc 1 255 :=
    Finset.image_subset_iff.2 fun i hi => hpos (gexp_ne_zero hc (Finset.mem_range.1 hi))
  have hall := Finset.eq_of_subset_of_card_le hsub (by rw [Finset.card_image_of_injOn hinj]; simp)
  obtain ⟨i, hi, hix⟩ := Finset.mem_image.1 (hall ▸ hpos hx)
  exact ⟨i, Finset.mem_range.1 hi, BitVec.eq_of_toNat_eq hix⟩

/-- Every element but 0 has a logarithm, and is that power. -/
theorem exists_glog_eq {x : Byte} (hx : x ≠ 0) : ∃ l : Nat, l < 255 ∧ glog c x = some l ∧ gexp c l = x := by
  obtain ⟨l, hl, rfl⟩ := exists_gexp_eq hc hx
  exact ⟨l, hl, glog_gexp hc hl, rfl⟩

theorem gmul_one_one : gmul c 1 1 = 1 := by
  have hone : gexp c (0 : Nat) = 1 := hc.exp_zero
  have hlog : glog c 1 = some 0 := hone ▸ glog_gexp hc (by omega)
  rw [gmul, hlog]
  exact hone

/-! ### The generator polynomial and the remainder (41_polynomial.md R112, R114) -/

/-- `pgen(n)` is monic of length `n + 1`. -/
theorem pgen_eq_one_cons (n : Nat) : ∃ t, pgen c n = 1 :: t ∧ t.length = n := by
  induction n with
  | zero => exact ⟨[], rfl, rfl⟩
  | succ n ih =>
    obtain ⟨t, hpgen, hlen⟩ := ih
    have hhead : gadd 0 (gmul c 1 1) = 1 := by rw [gmul_one_one hc]; rfl
    have hconv : convolve c (1 :: t) [1, gexp c n] =
        1 :: xorFront [gmul c 1 (gexp c n)] (convolve c t [1, gexp c n]) := by
      rw [convolve, List.map_cons, xorFront, hhead]; rfl
    refine ⟨xorFront [gmul c 1 (gexp c n)] (convolve c t [1, gexp c n]), ?_, ?_⟩
    · rw [pgen, hpgen, pmul, hconv, pnorm_of_normalised ⟨by simp, by simp⟩]
    · simp [length_convolve, hlen]

end ValidTables

/-- One round of the division (point (a) of R112) cancels the leading coefficient of the dividend. -/
theorem xorFront_scaleRow_cancels {c : Config} {x y : Byte} {lx ly : Nat} (hx : gexp c lx = x)
    (hy : glog c y = some ly) (b a : Poly) :
    xorFront (scaleRow c ((lx : Int) - ly) (y :: b)) (x :: a) = 0 :: xorFront (scaleRow c ((lx : Int) - ly) b) a := by
  have hlead : gexp c ((ly : Int) + ((lx : Int) - ly)) = x := by rw [← hx]; congr 1; omega
  rw [scaleRow, List.map_cons, hy, xorFront]
  simp only [hlead, gadd, BitVec.xor_self]
  rfl

/-- Without its leading zero a list of at least two coefficients is shorter, and a single zero is the zero polynomial. -/
theorem pnorm_zero_cons_shorter (w : Poly) : pnorm (0 :: w) = [0] ∨ (pnorm (0 :: w)).length < (0 :: w).length := by
  cases w with
  | nil => exact .inl rfl
  | cons y w =>
    rw [pnorm_zero_cons (by simp)]
    exact .inr (Nat.lt_succ_of_le (by simpa using length_pnorm_le (y :: w)))

/-- A normalised polynomial other than `[0]` has a leading coefficient other than 0. -/
theorem exists_cons_of_normalised {p : Poly} (hp : Normalised p) (hz : p ≠ [0]) : ∃ x t, p = x :: t ∧ x ≠ 0 := by
  match p, hp with
  | [], hp => exact absurd rfl hp.1
  | [x], _ => exact ⟨x, [], rfl, fun h => hz (by rw [h])⟩
  | x :: y :: t, hp => exact ⟨x, y :: t, rfl, hp.2 (by simp)⟩

@[simp] theorem pmodLoop_zero (c : Config) (n : Nat) (b : Poly) : pmodLoop c n [0] b = [0] := by
  cases n with
  | zero => rfl
  | succ n =>
    rw [pmodLoop]
    split
    · rfl
    · exact if_pos rfl

/-- The remainder is the zero polynomial or shorter than the divisor, whenever the bound on the rounds exceeds the length
of the dividend (R112: each round shortens the dividend). -/
theorem pmodLoop_shorter {c : Config} (hc : ValidConfig c) {b : Poly} (hb : Normalised b) (hbz : b ≠ [0]) {n : Nat}
    {a : Poly} (ha : Normalised a) (hn : a.length < n) :
    pmodLoop c n a b = [0] ∨ (pmodLoop c n a b).length < b.length := by
  induction n generalizing a with
  | zero => omega
  | succ n ih =>
    rw [pmodLoop]
    split
    · exact .inr ‹_›
    · split
      · exact .inl rfl
      · rename_i haz
        obtain ⟨x, a, rfl, hx⟩ := exists_cons_of_normalised ha haz
        obtain ⟨y, b, rfl, hy⟩ := exists_cons_of_normalised hb hbz
        obtain ⟨lx, -, hlx, hxe⟩ := exists_glog_eq hc hx
        obtain ⟨ly, -, hly, -⟩ := exists_glog_eq hc hy
        simp only [List.headD_cons, hlx, hly]
        rw [xorFront_scaleRow_cancels hxe hly]
        rcases pnorm_zero_cons_shorter (xorFront (scaleRow c ((lx : Int) - ly) b) a) with hzero | hshort
        · exact .inl (by rw [hzero, pmodLoop_zero])
        · simp only [List.length_cons, length_xorFront] at hshort hn
          exact ih (pnorm_normalised _) (by omega)

theorem pmod_shorter {c : Config} (hc : ValidConfig c) {a b : Poly} (ha : Normalised a) (hb : Normalised b)
    (hbz : b ≠ [0]) : pmod c a b = [0] ∨ (pmod c a b).length < b.length :=
  pmodLoop_shorter hc hb hbz ha (Nat.lt_succ_self _)

/-! ### The lengths of the codeword stream (42_rs_codewords.md R158, R159, R165) -/

/-- `rsecc(D, e)` has exactly `e` codewords. -/
theorem length_rsecc {c : Config} (hc : ValidConfig c) (data : List Byte) {e : Nat} (he : 1 ≤ e) :
    (rsecc c data e).length = e := by
  obtain ⟨t, hpgen, hlen⟩ := pgen_eq_one_cons hc e
  have hrem : (pmod c (pshl (pnorm data) e) (pgen c e)).length ≤ e := by
    rcases pmod_shorter hc (pshl_normalised (pnorm_normalised data) e) (pgen_normalised c e) (by simp [hpgen])
      with hzero | hshort
    · rw [hzero]; exact he
    · have hgen : (pgen c e).length = e + 1 := by rw [hpgen, List.length_cons, hlen]
      omega
  simp only [rsecc, List.length_append, List.length_replicate]
  omega

/-- Index `m` of every list that has one, counted together with the indices below it. -/
theorem sum_min_length_succ (B : List (List Byte)) (m : Nat) :
    (B.map fun b => min b.length (m + 1)).sum =
      (B.map fun b => min b.length m).sum + (B.filterMap fun b => b[m]?).length := by
  induction B with
  | nil => rfl
  | cons b B ih =>
    simp only [List.map_cons, List.sum_cons, List.filterMap_cons, ih]
    rcases Nat.lt_or_ge m b.length with h | h
    · simp only [List.getElem?_eq_getElem h, List.length_cons]; omega
    · simp only [List.getElem?_eq_none h]; omega

/-- The first `m` rounds of `interleave` take the first `m` elements of every list. -/
theorem length_interleave_rounds (B : List (List Byte)) (m : Nat) :
    ((List.range m).flatMap fun i => B.filterMap fun b => b[i]?).length = (B.map fun b => min b.length m).sum := by
  induction m with
  | zero => simp
  | succ m ih => simp [List.range_succ, ih, sum_min_length_succ]

theorem length_le_maxLength {B : List (List Byte)} {b : List Byte} (h : b ∈ B) : b.length ≤ maxLength B := by
  induction B with
  | nil => cases h
  | cons d B ih =>
    rcases List.mem_cons.1 h with rfl | h
    · exact Nat.le_max_left ..
    · exact Nat.le_trans (ih h) (Nat.le_max_right ..)

/-- Interleaving loses no element. -/
theorem length_interleave (B : List (List Byte)) : (interleave B).length = (B.map List.length).sum := by
  rw [interleave, length_interleave_rounds]
  congr 1
  exact List.map_congr_left fun b hb => Nat.min_eq_left (length_le_maxLength hb)

/-- Every legal block receives `total - data` error-correction codewords. -/
theorem eccData_lengths {c : Config} (hc : ValidConfig c) {bd : List Block} (hbd : ∀ b ∈ bd, LegalBlock b)
    (data : List Byte) :
    (eccData c bd data).map List.length = bd.map fun b => b.total.toNat - b.data.toNat := by
  induction bd generalizing data with
  | nil => rfl
  | cons b bd ih =>
    obtain ⟨hb, hrest⟩ := List.forall_mem_cons.1 hbd
    have hecc : 1 ≤ b.total.toNat - b.data.toNat := Nat.sub_pos_of_lt hb.2
    have htail := ih hrest (data.drop b.data.toNat)
    rw [eccData] at htail ⊢
    simp only [splitData, List.zipWith_cons_cons, List.map_cons, length_rsecc hc _ hecc, htail]

/-- The stream of legal blocks has the sum of their totals, TCW, as its length (42_rs_codewords.md R166). -/
theorem length_codewordStream {c : Config} (hc : ValidConfig c) {bd : List Block} (hbd : ∀ b ∈ bd, LegalBlock b)
    {data : List Byte} (hdata : (bd.map fun b => b.data.toNat).sum ≤ data.length) :
    (codewordStream c bd data).length = (bd.map fun b => b.total.toNat).sum := by
  rw [codewordStream, List.length_append, length_interleave, length_interleave, splitData_lengths _ _ hdata,
    eccData_lengths hc hbd, ← List.sum_map_add]
  congr 1
  exact List.map_congr_left fun b hb => Nat.add_sub_cancel' (Nat.le_of_lt (hbd b hb).2)

/-! ### The commands that store (20_memory.md R55, R62) -/

/-- What a command that stores `n` bytes from address `a` up can answer: a latched fault, or exactly those bytes stored,
all of them inside the scratchpad. -/
inductive StoreAnswer (i : Instr) (s : State) (a n : Nat) : Result → Prop where
  | latched (c : Cause) : StoreAnswer i s a n (.next (s.latch c (encode i)))
  | stored (bs : List Byte) (hlen : bs.length = n) (hin : inScratchpad a n) :
      StoreAnswer i s a n (.next (s.setBytes a bs))

theorem StoreAnswer.ends {i : Instr} {s : State} {a n : Nat} {r : Result} (h : StoreAnswer i s a n r) :
    ∃ t, r = .next t := by
  cases h with
  | latched c => exact ⟨_, rfl⟩
  | stored bs hlen hin => exact ⟨_, rfl⟩

/-- The last act of such a command, once its range has been tested. -/
theorem StoreAnswer.storeBytes {i : Instr} {s : State} {a n : Nat} {bs : List Byte} (hin : ¬¬ inScratchpad a n)
    (hlen : bs.length = n) : StoreAnswer i s a n (storeBytes s a bs) := by
  have hin := Classical.not_not.1 hin
  rw [storeBytes_of_in (hlen ▸ hin)]
  exact .stored bs hlen hin

/-- `PST` pads its polynomial to `n` bytes (41_polynomial.md R118). -/
theorem execPst_storeAnswer (ra : SReg) (ps : PReg) (rn : SReg) (s : State) :
    StoreAnswer (.pst ra ps rn) s (s.num ra) (s.num rn) (execPst ra ps rn s) := by
  simp only [execPst, raise_eq]
  split
  · exact .latched _
  · split
    · exact .latched _
    · rename_i hlong hin
      exact .storeBytes hin (by simp only [List.length_append, List.length_replicate]; omega)

/-- `BBST` packs the bit buffer into its number of bytes (42_rs_codewords.md R155). -/
theorem execBbst_storeAnswer (ra : SReg) (s : State) :
    StoreAnswer (.bbst ra) s (s.num ra) ((s.bb.length + 7) / 8) (execBbst ra s) := by
  simp only [execBbst, raise_eq]
  split
  · exact .latched _
  · rename_i hin
    exact .storeBytes hin (length_packBits ..)

/-- `RSECC` stores the `e` codewords of `rsecc` (42_rs_codewords.md R160). -/
theorem execRsecc_storeAnswer {s : State} (hc : ValidConfig s.config) (rdst rsrc rk re : SReg) :
    StoreAnswer (.rsecc rdst rsrc rk re) s (s.num rdst) (s.num re) (execRsecc rdst rsrc rk re s) := by
  simp only [execRsecc, raise_eq]
  split
  · exact .latched _
  · split
    · exact .latched _
    · split
      · exact .latched _
      · split
        · exact .latched _
        · split
          · exact .latched _
          · rename_i _ he _ hsrc hdst
            rw [loadBytes_of_in (Classical.not_not.1 hsrc)]
            exact .storeBytes hdst (length_rsecc hc _ (Nat.pos_of_ne_zero he))

/-- `CWGEN` stores a stream of TCW bytes (42_rs_codewords.md R165). -/
theorem execCwgen_storeAnswer {s : State} (hs : Inv s) (rdst rsrc : SReg) :
    StoreAnswer (.cwgen rdst rsrc) s (s.num rdst) s.tcw (execCwgen rdst rsrc s) := by
  simp only [execCwgen, raise_eq]
  split
  · exact .latched _
  · split
    · exact .latched _
    · split
      · exact .latched _
      · rename_i hsrc hdst
        rw [loadBytes_of_in (Classical.not_not.1 hsrc)]
        refine .storeBytes hdst (length_codewordStream hs.config_valid hs.bd_legal ?_)
        rw [Memory.length_readBytes, State.tdc]

/-- Every store of a command fills exactly the range that `storeRange` names. -/
theorem exec_storeAnswer {i : Instr} {s : State} {a n : Nat} (hs : Inv s) (h : storeRange s i = some (a, n)) :
    StoreAnswer i s a n (exec i s) := by
  cases i with
  | pst ra ps rn => cases h; exact execPst_storeAnswer ..
  | bbst ra => cases h; exact execBbst_storeAnswer ..
  | rsecc rdst rsrc rk re => cases h; exact execRsecc_storeAnswer hs.config_valid ..
  | cwgen rdst rsrc => cases h; exact execCwgen_storeAnswer hs ..
  | _ => cases h

/-- 00_scope.md R19: a command either stores nothing, and ends by the shape of its answer, or its store is inside the range
it has tested. -/
theorem exec_ends {s : State} (hs : Inv s) (i : Instr) : ∃ t, exec i s = .next t := by
  cases hr : storeRange s i with
  | some range => exact (exec_storeAnswer hs hr).ends
  | none =>
    have heffect := exec_effect i s
    generalize exec i s = answer at heffect ⊢
    cases heffect with
    | store a n bs h _ => rw [hr] at h; cases h
    | _ => exact ⟨_, rfl⟩

/-! ### The host's accesses (20_memory.md R56, R57, R61) -/

/-- The listed offsets are the word offsets of two ranges (20_memory.md R57). -/
theorem listedOffset_iff (off : Nat) :
    ListedOffset off ↔ off % 4 = 0 ∧ (0x004 ≤ off ∧ off < 0x060 ∨ 0x100 ≤ off ∧ off < 0x300) := by
  simp only [ListedOffset, List.mem_cons, List.not_mem_nil, or_false]
  constructor
  · rintro (hfixed | ⟨i, hi, rfl⟩ | ⟨i, hi, rfl⟩ | ⟨j, hj, rfl⟩) <;> omega
  · rintro ⟨hword, hrange⟩
    rcases Nat.lt_or_ge off 0x020 with hfixed | hscalar
    · exact .inl (by omega)
    rcases Nat.lt_or_ge off 0x040 with hbelow | hplen
    · exact .inr (.inl ⟨(off - 0x020) / 4, by omega⟩)
    rcases Nat.lt_or_ge off 0x060 with hbelow | hblock
    · exact .inr (.inr (.inl ⟨(off - 0x040) / 4, by omega⟩))
    · exact .inr (.inr (.inr ⟨(off - 0x100) / 4, by omega⟩))

/-- No register stands exactly at the offsets that are not listed. -/
theorem hostRegAt_eq_none_iff (off : Nat) : hostRegAt off = none ↔ ¬ ListedOffset off := by
  rw [listedOffset_iff]
  by_cases hword : off % 4 = 0
  · simp only [hostRegAt, hword, ne_eq, not_true_eq_false, if_false, true_and, ite_eq_iff, reduceCtorEq, and_false,
      false_or, and_true]
    omega
  · simp [hostRegAt, hword]

/-- The window is the 8192 byte offsets from 0x2000 up (20_memory.md R57). -/
theorem inWindow_iff (off : Nat) :
    (windowOffset ≤ off ∧ off < windowOffset + Config.msize) ↔ ∃ a < 8192, off = 0x2000 + a := by
  simp only [windowOffset, Config.msize]
  constructor
  · rintro ⟨hlow, hhigh⟩
    exact ⟨off - 0x2000, by omega⟩
  · rintro ⟨a, ha, rfl⟩
    omega

/-- An access has no meaning exactly when the host cannot perform it (20_memory.md R61). -/
theorem classify_eq_none_iff (b : BusAccess) : classify b = none ↔ ¬ HostAllowed b := by
  cases b with
  | read off width =>
    cases width with
    | byte => simp only [classify, HostAllowed, inWindow_iff, ite_eq_right_iff, reduceCtorEq, imp_false]
    | half => simp only [classify, HostAllowed, not_false_iff]
    | word => simp only [classify, HostAllowed, Option.map_eq_none_iff, hostRegAt_eq_none_iff]
  | write off value =>
    cases value with
    | byte v => simp only [classify, HostAllowed, inWindow_iff, ite_eq_right_iff, reduceCtorEq, imp_false]
    | half v => simp only [classify, HostAllowed, not_false_iff]
    | word w =>
      simp only [classify, HostAllowed, ite_eq_right_iff, reduceCtorEq, imp_false]
      rfl

/-- The host's next access is taken off the sequence without a change to the unit, so the invariant stays. -/
theorem Inv.took {s : State} (hs : Inv s) (rest : List Event) : Inv (s.took rest) where
  config_valid := hs.config_valid
  polys := hs.polys
  bb_length := hs.bb_length
  bd_length := hs.bd_length
  bd_legal := hs.bd_legal
  version_legal := hs.version_legal
  latch_clear := hs.latch_clear
  latch_set := hs.latch_set
  mem_wf := hs.mem_wf

theorem issueCommand_ends {s : State} (hs : Inv s) (w : Word) : ∃ t, issueCommand w s = .next t := by
  rcases issueCommand_cases w s with ⟨-, -, hdrop⟩ | ⟨-, ⟨i, -, hexec⟩ | ⟨e, -, hillegal⟩⟩
  · exact ⟨_, hdrop⟩
  · rw [hexec]; exact exec_ends hs i
  · exact ⟨_, hillegal⟩

/-- Every access of the four kinds ends, the two of the window because it is as long as the scratchpad. -/
theorem hostAccess_ends {s : State} (hs : Inv s) {b : BusAccess} {a : HostAccess} (h : classify b = some a) :
    ∃ t, hostAccess a s = .next t := by
  cases a with
  | writeCmd w => exact issueCommand_ends hs w
  | readReg r => exact ⟨_, rfl⟩
  | readMem x =>
    have hin : inScratchpad x 1 := Nat.succ_le_of_lt (classify_readMem h)
    rw [hostAccess, loadBytes_of_in hin]
    exact ⟨_, rfl⟩
  | writeMem x v => exact ⟨_, storeBytes_of_in (Nat.succ_le_of_lt (classify_writeMem h))⟩

/-! ### The statements -/

/-- Settles O37: what a command stores has the length of the range it has tested, so none reaches `scratchpadHole`. -/
theorem everyCommandEnds : Obligations.EveryCommandEnds := fun i _ hs => exec_ends hs i

/-- Settles O38, by the cases of a step: all of them end but the refusal of an access that the host cannot perform. -/
theorem stepStopsOnlyOutsideTheInterface : Obligations.StepStopsOnlyOutsideTheInterface := by
  intro s hs
  rcases step_cases s with ⟨-, hidle⟩ | ⟨e, rest, hpending, hserve⟩
  · exact .inl ⟨_, hidle⟩
  · rcases hserve with ⟨-, hreset⟩ | ⟨b, rfl, hout, hrefused⟩ | ⟨b, a, -, hin, haccess⟩
    · exact .inl ⟨_, hreset⟩
    · exact .inr ⟨hrefused, b, rest, hpending, (classify_eq_none_iff b).1 hout⟩
    · rw [haccess]; exact .inl (hostAccess_ends (hs.took rest) hin)

end Sys2Proof.Machine
end

section
/-! PROOFS. The invariant of the unit's state, the constants no step changes, the tables, the reset state, and the frame of
the commands that write a scalar register. What each update of State does to the invariant stands first, once; then what an
access that answers a next state has done; the statements follow from the two. -/

namespace Sys2Proof.Machine

open Sys2Proof.Reference

/-! ### The updates that keep the invariant -/

section Updates

variable {s : State} (hs : Inv s)
include hs

theorem Inv.setReg (i : SReg) (v : Word) : Inv (s.setReg i v) := { hs with }

theorem Inv.setPoly (i : PReg) {p : Poly} (hp : PolyRegister p) : Inv (s.setPoly i p) where
  __ := hs
  polys := fun q => by
    rw [State.poly_setPoly]
    split
    · exact hp
    · exact hs.polys q

theorem Inv.setBb {bits : List Bool} (hlen : bits.length ≤ Config.bbmax) : Inv (s.setBb bits) :=
  { hs with bb_length := hlen }

theorem Inv.setBd {bd : List Block} (hlen : bd.length ≤ Config.nbmax) (hlegal : ∀ b ∈ bd, LegalBlock b) :
    Inv (s.setBd bd) :=
  { hs with bd_length := hlen, bd_legal := hlegal }

theorem Inv.setVersion {v : BitVec 6} (hv : v.toNat ≤ Config.vmax) : Inv (s.setVersion v) :=
  { hs with version_legal := hv }

theorem Inv.setBytes {a : Nat} {bs : List Byte} (hin : inScratchpad a bs.length) : Inv (s.setBytes a bs) :=
  { hs with mem_wf := Memory.writeBytes_wf hs.mem_wf hin }

/-- Fault entry sets the latch together with a cause (60_exceptions.md R216, R222). -/
theorem Inv.latch (c : Cause) (w : Word) : Inv (s.latch c w) :=
  { hs with
    latch_clear := fun h => Bool.noConfusion h
    latch_set := fun _ => c.code_range }

theorem Inv.withReply (r : Option Reply) : Inv { s with reply := r } := { hs with }

end Updates

/-! ### The reset state (10_state.md R40) -/

theorem polyRegister_zero : PolyRegister [0] := ⟨⟨by simp, by simp⟩, by simp⟩

/-- A reset needs no more of the state before it than its constants, which it keeps. -/
theorem inv_resetUnit {s : State} (hc : ValidConfig s.config) : Inv s.resetUnit where
  config_valid := hc
  polys := fun q => by rw [State.resetUnit_poly]; exact polyRegister_zero
  bb_length := Nat.zero_le _
  bd_length := Nat.zero_le _
  bd_legal := fun _ hb => nomatch hb
  version_legal := Nat.zero_le _
  latch_clear := fun _ => ⟨rfl, rfl⟩
  latch_set := fun h => Bool.noConfusion h
  mem_wf := Memory.reset_wf

theorem reset_status : State.reset.status = 0 := by decide

theorem atReset_resetUnit (s : State) : AtReset s.resetUnit where
  scalars := State.resetUnit_reg s
  polys := State.resetUnit_poly s
  bb := rfl
  bd := rfl
  counts := ⟨rfl, rfl, rfl⟩
  version := rfl
  latch := ⟨rfl, rfl, reset_status⟩
  einfo := rfl
  memory := State.resetUnit_byteAt s

/-- The state after reset is a fixed point of the reset. -/
theorem resetUnit_reset : State.reset.resetUnit = State.reset := rfl

/-! ### What a command that answers a next state keeps -/

/-- No command changes the machine's constants or the model's own two fields. -/
theorem exec_sameOutside {i : Instr} {s t : State} (h : exec i s = .next t) : SameOutside s t := by
  have heffect := exec_effect i s
  generalize exec i s = answer at heffect h
  cases heffect with
  | store a n bs _ _ =>
    obtain ⟨-, rfl⟩ := storeBytes_next h
    exact ⟨rfl, rfl, rfl⟩
  | _ =>
    cases h
    exact ⟨rfl, rfl, rfl⟩

/-- Every command keeps the invariant. -/
theorem exec_inv {i : Instr} {s t : State} (hs : Inv s) (h : exec i s = .next t) : Inv t := by
  have heffect := exec_effect i s
  generalize exec i s = answer at heffect h
  cases heffect with
  | latched c => cases h; exact hs.latch c _
  | nothing _ => cases h; exact hs
  | reset _ => cases h; exact inv_resetUnit hs.config_valid
  | scalar rd v _ => cases h; exact hs.setReg rd v
  | poly pd p _ hp => cases h; exact hs.setPoly pd (hp hs.polys)
  | version imm v _ hv => cases h; exact hs.setVersion hv
  | blocks bd _ hlen hlegal => cases h; exact hs.setBd hlen fun b hb => (hlegal b hb).elim (hs.bd_legal b) id
  | bits bits _ hlen => cases h; exact hs.setBb hlen
  | store a n bs _ _ =>
    obtain ⟨hin, rfl⟩ := storeBytes_next h
    exact hs.setBytes hin

/-! ### What a host access and a step that answer a next state have done -/

/-- A host access that answers a next state: a command has executed, an illegal word is latched, a word is dropped, a read
has returned its value, or one byte of the window is written (20_memory.md R56, 60_exceptions.md R227). -/
theorem hostAccess_next_cases {a : HostAccess} {s t : State} (h : hostAccess a s = .next t) :
    (∃ i, exec i s = .next t) ∨ (∃ w, t = s.latch .illegalCommand w) ∨ t = s ∨ (∃ r, t = { s with reply := r }) ∨
      ∃ x v, inScratchpad x [v].length ∧ t = s.setBytes x [v] := by
  cases a with
  | writeCmd w =>
    rw [hostAccess] at h
    rcases issueCommand_cases w s with ⟨-, -, hdrop⟩ | ⟨-, ⟨i, -, hexec⟩ | ⟨e, -, hillegal⟩⟩
    · rw [hdrop] at h; cases h; exact .inr (.inr (.inl rfl))
    · exact .inl ⟨i, hexec ▸ h⟩
    · rw [hillegal] at h; cases h; exact .inr (.inl ⟨w, rfl⟩)
  | readReg r => cases h; exact .inr (.inr (.inr (.inl ⟨_, rfl⟩)))
  | readMem x =>
    rw [hostAccess] at h
    obtain ⟨-, hread⟩ := loadBytes_next h
    cases hread
    exact .inr (.inr (.inr (.inl ⟨_, rfl⟩)))
  | writeMem x v => exact .inr (.inr (.inr (.inr ⟨x, v, storeBytes_next h⟩)))

theorem hostAccess_keeps_constants {a : HostAccess} {s t : State} (h : hostAccess a s = .next t) :
    t.config = s.config ∧ t.pending = s.pending := by
  rcases hostAccess_next_cases h with ⟨i, hexec⟩ | ⟨w, rfl⟩ | rfl | ⟨r, rfl⟩ | ⟨x, v, -, rfl⟩
  · obtain ⟨hconfig, hpending, -⟩ := exec_sameOutside hexec
    exact ⟨hconfig, hpending⟩
  all_goals exact ⟨rfl, rfl⟩

theorem hostAccess_inv {a : HostAccess} {s t : State} (hs : Inv s) (h : hostAccess a s = .next t) : Inv t := by
  rcases hostAccess_next_cases h with ⟨i, hexec⟩ | ⟨w, rfl⟩ | rfl | ⟨r, rfl⟩ | ⟨x, v, hin, rfl⟩
  · exact exec_inv hs hexec
  · exact hs.latch _ w
  · exact hs
  · exact hs.withReply r
  · exact hs.setBytes hin

/-- A step that answers a next state was idle, or has taken the oldest event and served it: a reset or a host access. -/
theorem step_next_cases {s t : State} (h : step s = .next t) :
    (s.pending = [] ∧ t = s) ∨
    ∃ e rest, s.pending = e :: rest ∧ (t = (s.took rest).resetUnit ∨ ∃ a, hostAccess a (s.took rest) = .next t) := by
  rcases step_cases s with ⟨hpending, hidle⟩ | ⟨e, rest, hpending, hserve⟩
  · rw [hidle] at h; cases h; exact .inl ⟨hpending, rfl⟩
  · refine .inr ⟨e, rest, hpending, ?_⟩
    rcases hserve with ⟨-, hreset⟩ | ⟨b, -, -, hrefused⟩ | ⟨b, a, -, -, haccess⟩
    · rw [hreset] at h; cases h; exact .inl rfl
    · rw [hrefused] at h; cases h
    · exact .inr ⟨a, haccess ▸ h⟩

/-! ### The powers as the entries of `EXP` (10_state.md R21) -/

theorem gexp_eq_getD (c : Config) {i : Nat} (hi : i < 255) : gexp c i = c.exp.getD i 0 := by
  have hmod : ((i : Int) % 255).toNat = i := by omega
  rw [gexp, hmod]

/-! ### The commands that write a scalar register (10_state.md R26) -/

theorem polyDest_eq_none_of_scalarDest {i : Instr} {rd : SReg} (h : scalarDest i = some rd) : polyDest i = none := by
  cases i with
  | li | gflog | gfexp | gfmul | plen | bchfmt | bchver => rfl
  | _ => cases h

theorem storeRange_eq_none_of_scalarDest {i : Instr} {rd : SReg} (s : State) (h : scalarDest i = some rd) :
    storeRange s i = none := by
  cases i with
  | li | gflog | gfexp | gfmul | plen | bchfmt | bchver => rfl
  | _ => cases h

/-- Such a command has latched a fault or written its register. -/
theorem exec_scalar_cases {i : Instr} {rd : SReg} {s t : State} (hrd : scalarDest i = some rd)
    (h : exec i s = .next t) : (∃ c, t = s.latch c (encode i)) ∨ ∃ v, t = s.setReg rd v := by
  have heffect := exec_effect i s
  generalize exec i s = answer at heffect h
  cases heffect with
  | latched c => cases h; exact .inl ⟨c, rfl⟩
  | scalar rd' v hrd' =>
    cases h
    cases hrd.symm.trans hrd'
    exact .inr ⟨v, rfl⟩
  | poly pd p hpd _ => rw [polyDest_eq_none_of_scalarDest hrd] at hpd; cases hpd
  | store a n bs hrange _ => rw [storeRange_eq_none_of_scalarDest s hrd] at hrange; cases hrange
  | nothing hi => subst hi; cases hrd
  | reset hi => subst hi; cases hrd
  | version imm v hi _ => subst hi; cases hrd
  | blocks bd hi _ _ => rcases hi with rfl | ⟨_, _, _, rfl⟩ <;> cases hrd
  | bits bits hi _ => rcases hi with rfl | rfl | ⟨_, _, rfl⟩ | ⟨_, _, rfl⟩ <;> cases hrd

/-! ### The statements -/

/-- Settles O40: every event of a step is a reset, or an access whose outcome is an update that keeps the invariant. -/
theorem stepKeepsTheInvariant : Obligations.StepKeepsTheInvariant := by
  intro s t hs h
  rcases step_next_cases h with ⟨-, rfl⟩ | ⟨e, rest, -, rfl | ⟨a, haccess⟩⟩
  · exact hs
  · exact inv_resetUnit hs.config_valid
  · exact hostAccess_inv (hs.took rest) haccess

/-- Settles O41, by the cases of a step: the idle one has nothing to take, and the others take the oldest event. -/
theorem stepKeepsTheConstants : Obligations.StepKeepsTheConstants := by
  intro s t h
  rcases step_next_cases h with ⟨hpending, rfl⟩ | ⟨e, rest, hpending, rfl | ⟨a, haccess⟩⟩
  · exact ⟨rfl, by rw [hpending, List.tail_nil]⟩
  · exact ⟨rfl, by rw [hpending]; rfl⟩
  · obtain ⟨hconfig, hrest⟩ := hostAccess_keeps_constants haccess
    exact ⟨hconfig, by rw [hrest, hpending]; rfl⟩

/-- Settles O42: that every nonzero element is a power is the counting argument of `exists_gexp_eq`, and a power has a
logarithm, which 0 has not. -/
theorem galoisTablesAreInverse : Obligations.GaloisTablesAreInverse := by
  intro c hc
  refine ⟨fun x hx => ?_, hc.log_exp, ⟨hc.exp_last.trans hc.exp_zero.symm, hc.exp_zero⟩, fun i hi => ?_⟩
  · obtain ⟨l, hl, hlog, hexp⟩ := exists_glog_eq hc hx
    exact ⟨l, hl, hlog, by rw [← gexp_eq_getD c hl, hexp]⟩
  · rcases Nat.lt_or_eq_of_le hi with hlt | rfl
    · rw [← gexp_eq_getD c hlt]
      exact gexp_ne_zero hc hlt
    · rw [hc.exp_last]
      decide

/-- Settles O53: the command has latched a fault or written `rd`, and either update leaves the rest. -/
theorem scalarCommandFrame : Obligations.ScalarCommandFrame := by
  intro i rd s t hrd h
  rcases exec_scalar_cases hrd h with ⟨c, rfl⟩ | ⟨v, rfl⟩
  · exact ⟨fun _ _ => rfl, fun _ => rfl, ⟨rfl, rfl, rfl⟩, fun _ => rfl, ⟨rfl, rfl, rfl⟩, .inr ⟨c, rfl⟩⟩
  · exact ⟨fun _ hr => State.reg_setReg_other s hr v, fun _ => rfl, ⟨rfl, rfl, rfl⟩, fun _ => rfl, ⟨rfl, rfl, rfl⟩,
      .inl ⟨rfl, rfl, rfl⟩⟩

/-- Settles O39: the reset state is what a reset makes of itself, and its tables are valid ones. -/
theorem resetStateKeepsTheInvariant : Obligations.ResetStateKeepsTheInvariant := by
  rw [Obligations.ResetStateKeepsTheInvariant, ← resetUnit_reset]
  exact ⟨inv_resetUnit reset_config_valid, atReset_resetUnit _, rfl⟩

end Sys2Proof.Machine
end

section
/-! PROOFS. The host's port: how the step serves an access, what the host reads at each register and in the window, what it
writes there; the command a word written to CMD runs; and the frame of the commands that store bytes. The rules of the step,
of the register map and of a store stand first; the statements follow from them. -/

namespace Sys2Proof.Machine

open Sys2Proof.Reference

/-! ### The step with a host access next (20_memory.md R56, R60, R61) -/

/-- An access of one of the four kinds is taken off the sequence and performed. -/
theorem step_of_classify_some {s : State} {b : BusAccess} {a : HostAccess} {rest : List Event}
    (hpending : s.pending = .access b :: rest) (h : classify b = some a) : step s = hostAccess a (s.took rest) := by
  simp only [step, stepUnit, hpending, serveEvent, h]

/-- Every other access is refused. -/
theorem step_of_classify_none {s : State} {b : BusAccess} {rest : List Event}
    (hpending : s.pending = .access b :: rest) (h : classify b = none) :
    step s = .refused .hostAccessOutsideInterface := by
  simp only [step, stepUnit, hpending, serveEvent, h]

theorem classify_write_cmd (w : Word) : classify (.write 0x000 (.word w)) = some (.writeCmd w) := rfl

theorem classify_read_window {a : Nat} (h : a < 8192) : classify (.read (0x2000 + a) .byte) = some (.readMem a) := by
  rw [classify, if_pos ((inWindow_iff _).2 ⟨a, h, rfl⟩), windowOffset, Nat.add_sub_cancel_left]

theorem classify_write_window {a : Nat} (h : a < 8192) (v : Byte) :
    classify (.write (0x2000 + a) (.byte v)) = some (.writeMem a v) := by
  rw [classify, if_pos ((inWindow_iff _).2 ⟨a, h, rfl⟩), windowOffset, Nat.add_sub_cancel_left]

/-- A command word is a write to CMD that the step hands to `issueCommand`. -/
theorem step_of_commandNext {s : State} {w : Word} {rest : List Event} (h : CommandNext s w rest) :
    step s = issueCommand w (s.took rest) := step_of_classify_some h (classify_write_cmd w)

/-- With the latch clear a word that decodes runs its command (60_exceptions.md R227). -/
theorem issueCommand_of_decode {s : State} {w : Word} {i : Instr} (herr : s.err = false) (hw : decode w = .ok i) :
    issueCommand w s = exec i s := by
  simp [issueCommand, herr, hw]

/-- Placing a word of 32 bits puts its write to CMD before the pending accesses. -/
theorem commandNext_withFetchWord (s : State) (w : Word) :
    CommandNext (s.withFetchWord 32 w.toNat) w s.pending := by
  have hword : BitVec.ofNat 32 (w.toNat % 2 ^ 32) = w := by
    rw [Nat.mod_eq_of_lt w.isLt, BitVec.ofNat_toNat, BitVec.setWidth_eq]
  simp only [CommandNext, State.withFetchWord, withCommand, hword, cmdOffset]

/-! ### The register map (20_memory.md R57, 10_state.md R34, R36) -/

/-- The register at the offset of a register is that register. -/
theorem hostRegAt_hostRegOffset (r : HostReg) : hostRegAt (hostRegOffset r) = some r := by
  cases r with
  | scalar i => revert i; decide
  | plen i => revert i; decide
  | block j => revert j; decide
  | _ => rfl

/-- What a register reads as does not depend on the pending events and the last reply. -/
theorem hostRegValue_took (s : State) (events rest : List Event) (r : HostReg) :
    hostRegValue ({ s with pending := events }.took rest) r = hostRegValue s r := by
  cases r <;> rfl

/-- A word read at a register's own offset returns its value and changes nothing of the unit. -/
theorem readsAs_hostRegValue (s : State) (r : HostReg) : ReadsAs s (hostRegOffset r) (hostRegValue s r) := by
  intro rest
  have hclass : classify (.read (hostRegOffset r) .word) = some (.readReg r) := by
    rw [classify, hostRegAt_hostRegOffset, Option.map_some]
  rw [step_of_classify_some rfl hclass, hostAccess, hostRegValue_took]
  rfl

/-- Concatenation as a sum: the high part counts in units of `2 ^ m`. -/
theorem toNat_append_eq_add {n m : Nat} (x : BitVec n) (y : BitVec m) : (x ++ y).toNat = 2 ^ m * x.toNat + y.toNat := by
  rw [BitVec.toNat_append, ← Nat.shiftLeft_add_eq_or_of_lt y.isLt, Nat.shiftLeft_eq, Nat.mul_comm]

/-- `STATUS` has ERR in bit 0 and CAUSE in bits 7:4. -/
theorem status_eq_wordOf (s : State) : s.status = wordOf ((if s.err then 1 else 0) + 16 * s.cause.toNat) := by
  have hcause := s.cause.isLt
  apply BitVec.eq_of_toNat_eq
  simp only [State.status, wordOf, toNat_append_eq_add, BitVec.toNat_ofNat, BitVec.toNat_ofBool]
  cases s.err with
  | false => rw [Bool.toNat_false, if_neg Bool.false_ne_true]; omega
  | true => rw [Bool.toNat_true, if_pos rfl]; omega

/-- A descriptor that exists reads as `total` in bits 15:8 and `data` in bits 7:0. -/
theorem hostRegValue_block {s : State} {j : Nat} (h : j < s.bd.length) (hj : j < 128) :
    hostRegValue s (.block ⟨j, hj⟩) = wordOf (256 * s.bd[j].total.toNat + s.bd[j].data.toNat) := by
  have htotal := s.bd[j].total.isLt
  have hdata := s.bd[j].data.isLt
  apply BitVec.eq_of_toNat_eq
  simp only [hostRegValue, List.getElem?_eq_getElem h, wordOf, toNat_append_eq_add, BitVec.toNat_ofNat]
  omega

/-- Past the last descriptor the host reads 0. -/
theorem hostRegValue_block_none {s : State} {j : Nat} (h : s.bd.length ≤ j) (hj : j < 128) :
    hostRegValue s (.block ⟨j, hj⟩) = 0 := by
  simp only [hostRegValue, List.getElem?_eq_none h]

/-! ### The bytes a store changes (20_memory.md R51, R62) -/

/-- One byte stored reads back, and every other byte as before. -/
theorem State.byteAt_setBytes_singleton {s : State} (hs : s.mem.wf) (a x : Nat) (v : Byte) :
    (s.setBytes a [v]).byteAt x = if x = a then v else s.byteAt x := Memory.read_write hs.1 a x v

/-- A stored list leaves every byte outside its range. -/
theorem sameBytesOutside_setBytes {s : State} (hs : s.mem.wf) (a : Nat) (bs : List Byte) :
    SameBytesOutside a bs.length s (s.setBytes a bs) := by
  intro x hx
  rw [State.byteAt_setBytes hs, if_neg (by omega)]

/-- `CWGEN` stores TCW bytes (42_rs_codewords.md R165) already where the tables are valid and the blocks legal, whatever
their number: `execCwgen_storeAnswer` without the rest of the invariant, which the statement of the frame does not grant. -/
theorem execCwgen_storeAnswer_of_legalBlocks {s : State} (hc : ValidConfig s.config) (hbd : ∀ b ∈ s.bd, LegalBlock b)
    (rdst rsrc : SReg) : StoreAnswer (.cwgen rdst rsrc) s (s.num rdst) s.tcw (execCwgen rdst rsrc s) := by
  simp only [execCwgen, raise_eq]
  split
  · exact .latched _
  · split
    · exact .latched _
    · split
      · exact .latched _
      · rename_i hsrc hdst
        rw [loadBytes_of_in (Classical.not_not.1 hsrc)]
        refine .storeBytes hdst (length_codewordStream hc hbd ?_)
        rw [Memory.length_readBytes, State.tdc]

/-- Every store fills exactly the range that `storeRange` names, by valid tables and legal blocks alone. -/
theorem exec_storeAnswer_of_legalBlocks {i : Instr} {s : State} {a n : Nat} (hc : ValidConfig s.config)
    (hbd : ∀ b ∈ s.bd, LegalBlock b) (h : storeRange s i = some (a, n)) : StoreAnswer i s a n (exec i s) := by
  cases i with
  | pst ra ps rn => cases h; exact execPst_storeAnswer ..
  | bbst ra => cases h; exact execBbst_storeAnswer ..
  | rsecc rdst rsrc rk re => cases h; exact execRsecc_storeAnswer hc ..
  | cwgen rdst rsrc => cases h; exact execCwgen_storeAnswer_of_legalBlocks hc hbd ..
  | _ => cases h

/-! ### The statements -/

/-- Settles O32: the value of each register of the map, read at its own offset. -/
theorem hostReadsTheRegisterMap : Obligations.HostReadsTheRegisterMap := by
  intro s
  have hread := readsAs_hostRegValue s
  refine ⟨?_, hread .einfo, ?_, hread .bblen, hread .bdcnt, hread .tdc, hread .tcw, fun i => hread (.scalar i),
    fun i => hread (.plen i), fun j h hj => ?_, fun j h hj => ?_⟩
  · rw [← status_eq_wordOf]
    exact hread .status
  · rw [wordOf, BitVec.ofNat_toNat]
    exact hread .version
  · rw [← hostRegValue_block h hj]
    exact hread (.block ⟨j, hj⟩)
  · rw [← hostRegValue_block_none h hj]
    exact hread (.block ⟨j, hj⟩)

/-- Settles O33: the two accesses of the window are a load and a store of one byte inside the scratchpad. -/
theorem hostWindowReadsAndWritesBytes : Obligations.HostWindowReadsAndWritesBytes := by
  intro s a v rest hmem ha
  have hin : inScratchpad a 1 := Nat.succ_le_of_lt ha
  constructor
  · rw [step_of_classify_some rfl (classify_read_window ha), hostAccess, loadBytes_of_in hin]
    rfl
  · have hbyte := fun x => State.byteAt_setBytes_singleton (s := s.took rest) hmem a x v
    refine ⟨(s.took rest).setBytes a [v], ?_, rfl, ?_, fun x hx => ?_⟩
    · rw [step_of_classify_some rfl (classify_write_window ha v), hostAccess, storeBytes_of_in hin]
      rfl
    · rw [hbyte, if_pos rfl]
    · rw [hbyte, if_neg hx, State.took_byteAt]

/-- Settles O34: an access the host cannot perform has no meaning, so the step refuses it. -/
theorem otherHostAccessesAreRefused : Obligations.OtherHostAccessesAreRefused :=
  fun _ b _ hpending hout => step_of_classify_none hpending ((classify_eq_none_iff b).2 hout)

/-- Settles O55: the command has latched a fault or stored exactly the bytes of its range. -/
theorem storeCommandFrame : Obligations.StoreCommandFrame := by
  intro i s t a n hc hmem hbd hrange h
  have hanswer := exec_storeAnswer_of_legalBlocks hc hbd hrange
  rw [h] at hanswer
  cases hanswer with
  | latched c =>
    exact ⟨fun _ => rfl, fun _ => rfl, ⟨rfl, rfl, rfl⟩, ⟨rfl, rfl, rfl⟩, fun _ _ => rfl, .inr ⟨c, rfl⟩⟩
  | stored bs hlen hin =>
    subst hlen
    exact ⟨fun _ => rfl, fun _ => rfl, ⟨rfl, rfl, rfl⟩, ⟨rfl, rfl, rfl⟩, sameBytesOutside_setBytes hmem a bs,
      .inl ⟨rfl, rfl, rfl⟩⟩

/-- Settles O28: the word is handed to `issueCommand`, which runs the decoded command when the latch is clear. -/
theorem stepRunsTheDecodedCommand : Obligations.StepRunsTheDecodedCommand := by
  intro s w i rest hnext
  have hstep := step_of_commandNext hnext
  exact ⟨hstep, fun herr hw => hstep.trans (issueCommand_of_decode herr hw), commandNext_withFetchWord s w⟩

end Sys2Proof.Machine
end

section
/-! PROOFS. The encoding: a word whose must-be-zero bits are zero is laid out from its fields, so decoding loses no bit of it;
one inversion lemma of the decoder that names the opcode row of each command; the rows select exactly the words that decode;
and the written form of a command, whose operands fit their places and name the command again. -/

namespace Sys2Proof

/-! ### A word and its fields (30_encoding.md R71) -/

/-- Bits that a mask covers are zero in a word that is zero under the mask. -/
theorem extractLsb'_eq_zero_of_mask {w m : Word} (start len : Nat) (h : w &&& m = 0)
    (hm : m.extractLsb' start len = BitVec.allOnes len) : w.extractLsb' start len = 0 := by
  have := congrArg (BitVec.extractLsb' start len) h
  rwa [BitVec.extractLsb'_and, hm, BitVec.and_allOnes, BitVec.ofNat_eq_ofNat, BitVec.extractLsb'_zero] at this

/-- A word with no bit below field `d` is laid out from its opcode and its four register fields. -/
theorem encR_fields {w : Word} (h : w.extractLsb' 0 12 = 0) :
    encR (opField w) (aField w) (bField w) (cField w) (dField w) = w := by
  change w.extractLsb' 24 8 ++ w.extractLsb' 21 3 ++ w.extractLsb' 18 3 ++ w.extractLsb' 15 3 ++
    w.extractLsb' 12 3 ++ 0 = w
  rw [← h]
  simp (disch := rfl) only [BitVec.extractLsb'_append_extractLsb'_eq_extractLsb']
  exact BitVec.extractLsb'_append_extractLsb'

theorem encI_fields {w : Word} (h : w.extractLsb' 16 5 = 0) : encI (opField w) (aField w) (immField w) = w := by
  change w.extractLsb' 24 8 ++ w.extractLsb' 21 3 ++ 0 ++ w.extractLsb' 0 16 = w
  rw [← h]
  simp (disch := rfl) only [BitVec.extractLsb'_append_extractLsb'_eq_extractLsb']
  exact BitVec.extractLsb'_append_extractLsb'

theorem encV_fields {w : Word} (h : w.extractLsb' 16 8 = 0) : encV (opField w) (immField w) = w := by
  change w.extractLsb' 24 8 ++ 0 ++ w.extractLsb' 0 16 = w
  rw [← h]
  simp (disch := rfl) only [BitVec.extractLsb'_append_extractLsb'_eq_extractLsb']
  exact BitVec.extractLsb'_append_extractLsb'

theorem encB_fields (w : Word) : encB (opField w) (countField w) (totalField w) (dataField w) = w := by
  change w.extractLsb' 24 8 ++ w.extractLsb' 16 8 ++ w.extractLsb' 8 8 ++ w.extractLsb' 0 8 = w
  simp (disch := rfl) only [BitVec.extractLsb'_append_extractLsb'_eq_extractLsb']
  exact BitVec.extractLsb'_eq_self

/-- The word of a format laid out from the opcode and the fields of `w`, its other bits zero. -/
def Format.rebuild (f : Format) (w : Word) : Word :=
  match f with
  | .Z => encR (opField w) 0 0 0 0
  | .R1 => encR (opField w) (aField w) 0 0 0
  | .R2 => encR (opField w) (aField w) (bField w) 0 0
  | .R3 => encR (opField w) (aField w) (bField w) (cField w) 0
  | .R4 => encR (opField w) (aField w) (bField w) (cField w) (dField w)
  | .I => encI (opField w) (aField w) (immField w)
  | .V => encV (opField w) (immField w)
  | .B => encB (opField w) (countField w) (totalField w) (dataField w)

/-- A word whose must-be-zero bits are zero is the one its fields give. -/
theorem Format.rebuild_of_mbz {f : Format} {w : Word} (h : w &&& f.mbz = 0) : f.rebuild w = w := by
  have hzero := fun start len => extractLsb'_eq_zero_of_mask start len h
  cases f with
  | Z =>
    have ha : aField w = 0 := congrArg BitVec.toFin (hzero 21 3 (by decide))
    have hb : bField w = 0 := congrArg BitVec.toFin (hzero 18 3 (by decide))
    have hc : cField w = 0 := congrArg BitVec.toFin (hzero 15 3 (by decide))
    have hd : dField w = 0 := congrArg BitVec.toFin (hzero 12 3 (by decide))
    simpa only [Format.rebuild, ha, hb, hc, hd] using encR_fields (hzero 0 12 (by decide))
  | R1 =>
    have hb : bField w = 0 := congrArg BitVec.toFin (hzero 18 3 (by decide))
    have hc : cField w = 0 := congrArg BitVec.toFin (hzero 15 3 (by decide))
    have hd : dField w = 0 := congrArg BitVec.toFin (hzero 12 3 (by decide))
    simpa only [Format.rebuild, hb, hc, hd] using encR_fields (hzero 0 12 (by decide))
  | R2 =>
    have hc : cField w = 0 := congrArg BitVec.toFin (hzero 15 3 (by decide))
    have hd : dField w = 0 := congrArg BitVec.toFin (hzero 12 3 (by decide))
    simpa only [Format.rebuild, hc, hd] using encR_fields (hzero 0 12 (by decide))
  | R3 =>
    have hd : dField w = 0 := congrArg BitVec.toFin (hzero 12 3 (by decide))
    simpa only [Format.rebuild, hd] using encR_fields (hzero 0 12 (by decide))
  | R4 => exact encR_fields (hzero 0 12 (by decide))
  | I => exact encI_fields (hzero 16 5 (by decide))
  | V => exact encV_fields (hzero 16 8 (by decide))
  | B => exact encB_fields w

/-! ### Decoding and encoding (30_encoding.md R74, R77) -/

theorem ifMbz_eq_ok_iff {f : Format} {w : Word} {c i : Instr} :
    ifMbz f w c = .ok i ↔ w &&& f.mbz = 0 ∧ c = i := by
  unfold ifMbz
  split <;> simp_all

theorem decode_encode (i : Instr) : decode (encode i) = .ok i := by
  cases i <;> simp [decode, encode, ifMbz]

/-- What the decoder does with a word: its opcode is in no row of the table, or it is in the row of a command made of the
word's own fields, and the row's format decides whether the word is that command (30_encoding.md R75). -/
theorem decode_cases (w : Word) :
    (decode w = .error .reservedOpcode ∧ ∀ r ∈ opcodeTable, opField r.pattern ≠ opField w) ∨
    ∃ f i, decode w = ifMbz f w i ∧ encode i = f.rebuild w ∧
      ⟨i.mnemonic, opField w ++ 0#24, 0xFF#8 ++ f.mbz.setWidth 24⟩ ∈ opcodeTable := by
  generalize hd : decode w = d
  unfold decode at hd
  split at hd
  case h_26 =>
    refine .inl ⟨hd.symm, ?_⟩
    simp_all [opcodeTable, opField, eq_comm]
  all_goals
    rename_i hop
    refine .inr ⟨_, _, hd.symm, ?_, ?_⟩
    · rw [Format.rebuild, hop]
      rfl
    · simp only [Instr.mnemonic, Format.mbz, hop]
      decide

/-- A word that decodes is the word of its command: no bit of it is ignored (30_encoding.md R77). -/
theorem encode_of_decode {w : Word} {i : Instr} (h : decode w = .ok i) : encode i = w := by
  obtain ⟨herror, -⟩ | ⟨f, c, hrow, hencode, -⟩ := decode_cases w
  · rw [herror] at h
    cases h
  · obtain ⟨hmbz, rfl⟩ := ifMbz_eq_ok_iff.1 (hrow.symm.trans h)
    rw [hencode, Format.rebuild_of_mbz hmbz]

/-! ### The rows of the opcode table (30_encoding.md R74, R75) -/

/-- Masking the opcode and the must-be-zero bits leaves the opcode exactly if the must-be-zero bits are zero. -/
theorem selects_opcode_mbz_iff (m : Mnemonic) (f : Format) (w : Word) :
    OpcodeRow.selects ⟨m, opField w ++ 0#24, 0xFF#8 ++ f.mbz.setWidth 24⟩ w ↔ w &&& f.mbz = 0 := by
  have hword : w = opField w ++ w.extractLsb' 0 24 :=
    (BitVec.extractLsb'_append_extractLsb' (w := 8) (len := 24) (x := w)).symm
  have hmbz : f.mbz = 0#8 ++ f.mbz.setWidth 24 := by cases f <;> decide
  have hselects : w &&& (0xFF#8 ++ f.mbz.setWidth 24) = opField w ++ (w.extractLsb' 0 24 &&& f.mbz.setWidth 24) := by
    conv_lhs => rw [hword]
    rw [BitVec.and_append, show 0xFF#8 = BitVec.allOnes 8 from rfl, BitVec.and_allOnes]
  have hzero : w &&& f.mbz = 0#8 ++ (w.extractLsb' 0 24 &&& f.mbz.setWidth 24) := by
    conv_lhs => rw [hword, hmbz]
    rw [BitVec.and_append, BitVec.and_zero]
  rw [OpcodeRow.selects, hselects, hzero, BitVec.append_right_inj]
  exact (BitVec.append_right_inj 0#8 (t₂ := 0#24)).symm

theorem toNat_opField (w : Word) : (opField w).toNat = w.toNat / 2 ^ 24 := by
  have := w.isLt
  rw [opField, BitVec.extractLsb'_toNat, Nat.shiftRight_eq_div_pow, Nat.mod_eq_of_lt (by omega)]

/-- A row matches no word of another opcode. -/
theorem opField_of_selects {r : OpcodeRow} {w : Word} (hr : r ∈ opcodeTable) (h : r.selects w) :
    opField r.pattern = opField w := by
  have hmask : ∀ r ∈ opcodeTable, opField r.mask = BitVec.allOnes 8 := by decide
  rw [← h, opField, BitVec.extractLsb'_and, ← opField, ← opField, hmask r hr, BitVec.and_allOnes]

/-- No two rows have one opcode. -/
theorem opcodeTable_opcode_inj : ∀ r ∈ opcodeTable, ∀ q ∈ opcodeTable, opField r.pattern = opField q.pattern → r = q := by
  decide

/-- A word a row selects decodes to a command with the row's mnemonic. -/
theorem decode_of_selects {r : OpcodeRow} {w : Word} (hr : r ∈ opcodeTable) (h : r.selects w) :
    ∃ i, decode w = .ok i ∧ r.mnemonic = i.mnemonic := by
  have hop := opField_of_selects hr h
  obtain ⟨-, hnone⟩ | ⟨f, i, hdecode, -, hrow⟩ := decode_cases w
  · exact absurd hop (hnone r hr)
  · have heq := opcodeTable_opcode_inj r hr _ hrow (hop.trans BitVec.extractLsb'_append_eq_left.symm)
    subst heq
    exact ⟨i, hdecode.trans (ifMbz_eq_ok_iff.2 ⟨(selects_opcode_mbz_iff _ f w).1 h, rfl⟩), rfl⟩

/-- A word that decodes is selected by a row. -/
theorem selects_of_decode {w : Word} {i : Instr} (h : decode w = .ok i) : ∃ r ∈ opcodeTable, r.selects w := by
  obtain ⟨herror, -⟩ | ⟨f, c, hdecode, -, hrow⟩ := decode_cases w
  · rw [herror] at h
    cases h
  · obtain ⟨hmbz, -⟩ := ifMbz_eq_ok_iff.1 (hdecode.symm.trans h)
    exact ⟨_, hrow, (selects_opcode_mbz_iff _ f w).2 hmbz⟩

end Sys2Proof

namespace Sys2Proof.Machine

open Sys2Proof.Reference

/-! ### Words that are no command (30_encoding.md R76) -/

/-- The rows' opcodes are none of the reserved values. -/
theorem not_reservedOpcode_of_mem {r : OpcodeRow} (hr : r ∈ opcodeTable) :
    ¬ ReservedOpcode (opField r.pattern).toNat := by
  have hall : ∀ r ∈ opcodeTable, ¬ ReservedOpcode (opField r.pattern).toNat := by
    unfold ReservedOpcode
    decide
  exact hall r hr

/-- With the latch clear a word that is no command latches `IllegalCommand` (30_encoding.md R75). -/
theorem issueCommand_of_no_command {s : State} {w : Word} (herr : s.err = false) (hw : ∀ i, decode w ≠ .ok i) :
    issueCommand w s = .next { s with err := true, cause := 4, einfo := w } := by
  obtain ⟨hlatched, -⟩ | ⟨-, ⟨i, hi, -⟩ | ⟨e, -, hfault⟩⟩ := issueCommand_cases w s
  · rw [herr] at hlatched
    cases hlatched
  · exact absurd hi (hw i)
  · exact hfault

/-! ### The written form (30_encoding.md R79) -/

theorem forall₂_iff_all_zipWith {α β : Type} {f : α → β → Bool} (l : List α) (m : List β) :
    List.Forall₂ (fun a b => f a b = true) l m ↔ m.length = l.length ∧ (List.zipWith f l m).all id = true := by
  induction l generalizing m with
  | nil => cases m <;> simp
  | cons a l ih => cases m with
    | nil => simp
    | cons b m => simp [ih, and_left_comm]

theorem admits_of_fits {k : OperandKind} {o : Operand} (h : k.fits o = true) : k.admits o = true := by
  unfold OperandKind.fits at h
  split at h
  case h_6 => cases h
  all_goals rfl

/-- The written command is accepted exactly if each place has an operand that fits it. -/
theorem wellFormed_iff (c : AsmCommand) :
    c.wellFormed = true ↔ List.Forall₂ (fun k o => k.fits o = true) c.mnemonic.operandKinds c.operands := by
  simp only [AsmCommand.wellFormed, AsmCommand.countOk, AsmCommand.kindsOk, AsmCommand.numbersFit, Bool.and_eq_true,
    beq_iff_eq]
  constructor
  · rintro ⟨⟨hcount, -⟩, hfit⟩
    exact (forall₂_iff_all_zipWith _ _).2 ⟨hcount, hfit⟩
  · intro h
    obtain ⟨hcount, hfit⟩ := (forall₂_iff_all_zipWith _ _).1 h
    obtain ⟨-, hkind⟩ := (forall₂_iff_all_zipWith _ _).1 (h.imp fun _ _ => admits_of_fits)
    exact ⟨⟨hcount, hkind⟩, hfit⟩

@[simp] theorem fits_scalar (r : Fin 8) : OperandKind.scalar.fits (.scalar r.val) = true := decide_eq_true r.isLt

@[simp] theorem fits_poly (r : Fin 8) : OperandKind.poly.fits (.poly r.val) = true := decide_eq_true r.isLt

@[simp] theorem fits_signed16 (v : BitVec 16) : OperandKind.signed16.fits (.number v.toInt) = true :=
  decide_eq_true ⟨v.le_toInt, Int.le_of_lt_add_one v.toInt_lt⟩

@[simp] theorem fits_unsigned16 (v : BitVec 16) : OperandKind.unsigned16.fits (.number v.toNat) = true :=
  decide_eq_true (by have := v.isLt; omega)

@[simp] theorem fits_unsigned8 (v : Byte) : OperandKind.unsigned8.fits (.number v.toNat) = true :=
  decide_eq_true (by have := v.isLt; omega)

theorem disassemble_wellFormed (i : Instr) : (disassemble i).wellFormed = true := by
  rw [wellFormed_iff]
  cases i <;> simp [disassemble, Instr.mnemonic, Mnemonic.operandKinds]

@[simp] theorem immOperand_toNat {n : Nat} (v : BitVec n) : immOperand n (some (.number v.toNat)) = v := by
  simp [immOperand]

@[simp] theorem immOperand_toInt {n : Nat} (v : BitVec n) : immOperand n (some (.number v.toInt)) = v :=
  BitVec.ofInt_toInt

@[simp] theorem regOperand_scalar (r : Fin 8) : regOperand (some (.scalar r.val)) = r := Fin.ofNat_val_eq_self r

@[simp] theorem regOperand_poly (r : Fin 8) : regOperand (some (.poly r.val)) = r := Fin.ofNat_val_eq_self r

/-- The operands a command is written with name the command again. -/
theorem buildInstr_disassemble (i : Instr) : buildInstr i.mnemonic (disassemble i).operands = i := by
  cases i <;> simp [disassemble, Instr.mnemonic, buildInstr]

/-! ### The statements -/

/-- Settles O24: the decoder inverts the encoder, and a word that decodes is laid out from its command's fields. -/
theorem decodeAndEncodeAgree : Obligations.DecodeAndEncodeAgree :=
  fun _ i => ⟨encode_of_decode, fun h => h ▸ decode_encode i⟩

/-- Settles O25: a row's mask covers the opcode and the must-be-zero bits, and no two rows have one opcode. -/
theorem decodeFollowsTheOpcodeTable : Obligations.DecodeFollowsTheOpcodeTable := by
  refine fun w => ⟨⟨fun ⟨i, hi⟩ => selects_of_decode hi, fun ⟨r, hr, h⟩ => ?_⟩, fun i hi r hr h => ?_,
    fun r hr q hq h h' => ?_⟩
  · obtain ⟨i, hi, -⟩ := decode_of_selects hr h
    exact ⟨i, hi⟩
  · obtain ⟨j, hj, hmnemonic⟩ := decode_of_selects hr h
    rw [hmnemonic, Except.ok.inj (hj.symm.trans hi)]
  · exact opcodeTable_opcode_inj r hr q hq ((opField_of_selects hr h).trans (opField_of_selects hq h').symm)

/-- Settles O27: the written form fits the places of its row, and reading it back gives the command. -/
theorem assembleOfDisassemble : Obligations.AssembleOfDisassemble :=
  fun i => ⟨disassemble_wellFormed i, by
    rw [assemble, if_pos (disassemble_wellFormed i)]
    exact congrArg some (buildInstr_disassemble i)⟩

/-- Settles O29: a word that no row matches, as every one with a reserved opcode, is no command. -/
theorem illegalWordsLatchIllegalCommand : Obligations.IllegalWordsLatchIllegalCommand := by
  intro s w herr
  have hlatch (hno : ∀ r ∈ opcodeTable, ¬ r.selects w) := issueCommand_of_no_command herr fun i hi => by
    obtain ⟨r, hr, h⟩ := selects_of_decode hi
    exact hno r hr h
  refine ⟨fun hreserved => hlatch fun r hr h => not_reservedOpcode_of_mem hr ?_, hlatch⟩
  rw [opField_of_selects hr h, toNat_opField]
  exact hreserved

/-- Settles O26: each word is the encoding of the command the table lists (30_encoding.md R81). -/
theorem sampleWordsDecodeAsListed : Obligations.SampleWordsDecodeAsListed :=
  ⟨decode_encode (.setver 40), decode_encode (.li 3 0xFFFF), decode_encode (.gfmul 5 1 2), decode_encode (.pst 3 2 4),
    decode_encode (.pshl 4 0 5), decode_encode (.bdadd 2 33 15), decode_encode (.rsecc 3 2 4 5),
    decode_encode (.bchver 7)⟩

end Sys2Proof.Machine
end

section
/-! PROOFS. GF(256): the carry-less product reduced modulo FIELD_POLY is additive and commutes with the multiplication by x in
its right factor, which makes it commutative and associative whatever the polynomial; the powers of FIELD_GEN multiply by
adding their exponents; so the product of the tables is that product, and the field laws are laws of the powers. -/

namespace Sys2Proof.Machine

/-! ### Multiplication by x (10_state.md R21) -/

/-- Bit 7 decides whether the shifted byte is reduced. -/
theorem xtime_eq (p : BitVec 9) (a : Byte) : xtime p a = a <<< 1 ^^^ if a.msb then p.setWidth 8 else 0 := by
  have hmsb : (a.setWidth 9 <<< 1 : BitVec 9).msb = a.msb := by
    simp [BitVec.msb_eq_getLsbD_last]
  have hshift : (a.setWidth 9 <<< 1 : BitVec 9).setWidth 8 = a <<< 1 := by
    rw [BitVec.setWidth_shiftLeft_of_le (by omega), BitVec.setWidth_setWidth_of_le _ (by omega), BitVec.setWidth_eq]
  rw [xtime]
  simp only [hmsb]
  split
  · rw [BitVec.setWidth_xor, hshift]
  · rw [hshift, BitVec.ofNat_eq_ofNat, BitVec.xor_zero]

theorem xtime_of_msb_false (p : BitVec 9) {a : Byte} (h : a.msb = false) : xtime p a = a <<< 1 := by
  simp [xtime_eq, h]

@[simp] theorem xtime_zero (p : BitVec 9) : xtime p 0#8 = 0#8 := by simp [xtime_eq]

theorem xtime_xor (p : BitVec 9) (a b : Byte) : xtime p (a ^^^ b) = xtime p a ^^^ xtime p b := by
  have hreduce : (if (a ^^^ b).msb then p.setWidth 8 else (0 : Byte)) =
      (if a.msb then p.setWidth 8 else 0) ^^^ (if b.msb then p.setWidth 8 else 0) := by
    rw [BitVec.msb_xor]
    cases a.msb <;> cases b.msb <;> simp
  rw [xtime_eq, xtime_eq, xtime_eq, hreduce, BitVec.shiftLeft_xor_distrib]
  ac_rfl

/-! ### The carry-less product, for every reduction polynomial (40_gf_scalar.md R95) -/

section CarryLess

variable (p : BitVec 9) (x y z : Byte)

theorem clmulRounds_zero (n : Nat) : clmulRounds p x 0 n = 0 := by
  induction n with
  | zero => rfl
  | succ n ih => simpa [clmulRounds] using congrArg (xtime p) ih

theorem clmulRounds_xor (n : Nat) : clmulRounds p x (y ^^^ z) n = clmulRounds p x y n ^^^ clmulRounds p x z n := by
  induction n with
  | zero => simp [clmulRounds]
  | succ n ih =>
    rw [clmulRounds, clmulRounds, clmulRounds, ih, xtime_xor]
    split
    · ac_rfl
    · simp

theorem clmulRounds_xtime (n : Nat) : clmulRounds p x (xtime p y) n = xtime p (clmulRounds p x y n) := by
  induction n with
  | zero => simp [clmulRounds]
  | succ n ih =>
    rw [clmulRounds, clmulRounds, ih, xtime_xor]
    split
    · rfl
    · simp

/-- Multiplying by `x` passes through the rounds of a product, for it is additive and commutes with `xtime`. -/
theorem clmul_clmulRounds (n : Nat) : clmul p x (clmulRounds p y z n) = clmulRounds p y (clmul p x z) n := by
  induction n with
  | zero => exact clmulRounds_zero p x 8
  | succ n ih =>
    have hterm : clmul p x (if y.getLsbD (7 - n) then z else 0) = if y.getLsbD (7 - n) then clmul p x z else 0 := by
      split
      · rfl
      · exact clmulRounds_zero p x 8
    rw [clmulRounds, clmulRounds, ← hterm, ← ih]
    simp only [clmul, clmulRounds_xor, clmulRounds_xtime]

theorem clmul_left_comm : clmul p x (clmul p y z) = clmul p y (clmul p x z) := clmul_clmulRounds p x y z 8

/-- The rounds for the factor 1 move the bits of `y` in, from the top one down, and never reduce. -/
theorem clmulRounds_one {n : Nat} (hn : n ≤ 8) : clmulRounds p y 1 n = y >>> (8 - n) := by
  induction n with
  | zero => exact (BitVec.ushiftRight_eq_zero (Nat.le_refl 8)).symm
  | succ n ih =>
    have hpos : 0 < 8 - n := by omega
    have hmsb : (y >>> (8 - n)).msb = false := by simp [BitVec.msb_ushiftRight, hpos]
    rw [clmulRounds, ih (by omega), xtime_of_msb_false p hmsb]
    apply BitVec.eq_of_getLsbD_eq
    intro i hi
    have hplace : 8 - (n + 1) = 7 - n := by omega
    rw [hplace]
    cases i with
    | zero => cases hbit : y.getLsbD (7 - n) <;> simp [hbit]
    | succ i =>
      have hbelow : 7 - n + (i + 1) = 8 - n + i := by omega
      have hlow : (if y.getLsbD (7 - n) then 1 else 0 : Byte).getLsbD (i + 1) = false := by split <;> simp
      rw [BitVec.getLsbD_xor, hlow, BitVec.getLsbD_ushiftRight, hbelow]
      simp [hi]

theorem clmul_one : clmul p y 1 = y := (clmulRounds_one p y (Nat.le_refl 8)).trans (by simp)

theorem clmul_comm : clmul p x y = clmul p y x := by
  have h := clmul_left_comm p x y 1
  rwa [clmul_one, clmul_one] at h

theorem clmul_assoc : clmul p (clmul p x y) z = clmul p x (clmul p y z) := by
  rw [clmul_comm p (clmul p x y), clmul_left_comm, clmul_comm p z]

theorem clmul_zero : clmul p x 0 = 0 := clmulRounds_zero p x 8

theorem clmul_xor : clmul p x (y ^^^ z) = clmul p x y ^^^ clmul p x z := clmulRounds_xor p x y z 8

end CarryLess

/-! ### The powers, and the product of two elements by their logarithms (40_gf_scalar.md R92, R93) -/

theorem gexp_emod (c : Config) (n : Int) : gexp c (n % 255) = gexp c n := by
  rw [gexp, gexp, Int.emod_emod]

theorem gmul_of_glog {c : Config} {x y : Byte} {i j : Nat} (hi : glog c x = some i) (hj : glog c y = some j) :
    gmul c x y = gexp c (i + j) := by
  rw [gmul, hi, hj]

section ValidTables

variable {c : Config} (hc : ValidConfig c)
include hc

theorem gexp_zero : gexp c 0 = 1 := hc.exp_zero

/-- Every entry of `EXP` is the one before it times FIELD_GEN, the first one the last one times FIELD_GEN. -/
theorem gexp_add_one (n : Int) : gexp c (n + 1) = clmul c.fieldPoly (gexp c n) c.fieldGen := by
  have hlt : (n % 255).toNat < 255 := by omega
  have hstep := hc.exp_step _ hlt
  rw [gexp, gexp, ← hstep]
  rcases Nat.lt_or_ge ((n % 255).toNat + 1) 255 with hmid | hlast
  · congr 1; omega
  · rw [show (n % 255).toNat + 1 = 255 by omega, show ((n + 1) % 255).toNat = 0 by omega, hc.exp_zero, hc.exp_last]

theorem clmul_gexp_natCast (m : Int) (k : Nat) : clmul c.fieldPoly (gexp c m) (gexp c k) = gexp c (m + k) := by
  induction k with
  | zero => rw [Nat.cast_zero, gexp_zero hc, clmul_one, add_zero]
  | succ k ih => rw [Nat.cast_succ, gexp_add_one hc, ← clmul_assoc, ih, ← gexp_add_one hc, add_assoc]

/-- Powers multiply by adding their exponents. -/
theorem clmul_gexp (m n : Int) : clmul c.fieldPoly (gexp c m) (gexp c n) = gexp c (m + n) := by
  obtain ⟨k, hk⟩ := Int.eq_ofNat_of_zero_le (Int.emod_nonneg n (by decide : (255 : Int) ≠ 0))
  have hsum : gexp c (m + n) = gexp c (m + n % 255) := by rw [gexp, gexp, Int.add_emod_emod]
  rw [hsum, ← gexp_emod c n, hk, clmul_gexp_natCast hc]

theorem gexp_int_ne_zero (n : Int) : gexp c n ≠ 0 := by
  rw [← gexp_emod, ← Int.toNat_of_nonneg (Int.emod_nonneg n (by decide : (255 : Int) ≠ 0))]
  exact gexp_ne_zero hc (by omega)

/-! ### The product of the tables (40_gf_scalar.md R93, R95) -/

/-- The logarithms and the powers compute the reduced carry-less product. -/
theorem gmul_eq_clmul (x y : Byte) : gmul c x y = clmul c.fieldPoly x y := by
  by_cases hx : x = 0
  · rw [hx, clmul_comm, clmul_zero]
    rfl
  by_cases hy : y = 0
  · rw [hy, clmul_zero, gmul, glog_zero]
    cases glog c x <;> rfl
  obtain ⟨i, -, hi, hxi⟩ := exists_glog_eq hc hx
  obtain ⟨j, -, hj, hyj⟩ := exists_glog_eq hc hy
  rw [gmul_of_glog hi hj, ← clmul_gexp hc, hxi, hyj]

theorem gmul_comm (x y : Byte) : gmul c x y = gmul c y x := by
  simp only [gmul_eq_clmul hc, clmul_comm c.fieldPoly x y]

theorem gmul_assoc (x y z : Byte) : gmul c (gmul c x y) z = gmul c x (gmul c y z) := by
  simp only [gmul_eq_clmul hc, clmul_assoc]

theorem gmul_one (x : Byte) : gmul c x 1 = x := by rw [gmul_eq_clmul hc, clmul_one]

theorem gmul_zero (x : Byte) : gmul c x 0 = 0 := by rw [gmul_eq_clmul hc, clmul_zero]

theorem gmul_gadd (x y z : Byte) : gmul c x (gadd y z) = gadd (gmul c x y) (gmul c x z) := by
  simp only [gmul_eq_clmul hc, gadd, clmul_xor]

theorem gmul_gexp (m n : Int) : gmul c (gexp c m) (gexp c n) = gexp c (m + n) := by
  rw [gmul_eq_clmul hc, clmul_gexp hc]

/-- A product of two powers is a power, and no power is 0. -/
theorem eq_zero_or_eq_zero_of_gmul_eq_zero {x y : Byte} (h : gmul c x y = 0) : x = 0 ∨ y = 0 := by
  by_contra hne
  obtain ⟨hx, hy⟩ := not_or.1 hne
  obtain ⟨i, -, hi, -⟩ := exists_glog_eq hc hx
  obtain ⟨j, -, hj, -⟩ := exists_glog_eq hc hy
  rw [gmul_of_glog hi hj] at h
  exact gexp_int_ne_zero hc _ h

/-- The negated logarithm is the inverse's. -/
theorem gmul_gexp_neg_glog {x : Byte} (hx : x ≠ 0) :
    ∃ l : Nat, glog c x = some l ∧ gmul c x (gexp c (-(l : Int))) = 1 := by
  obtain ⟨l, -, hl, rfl⟩ := exists_glog_eq hc hx
  exact ⟨l, hl, by rw [gmul_gexp hc, add_neg_cancel, gexp_zero hc]⟩

end ValidTables

/-! ### The statement -/

/-- Settles O43: the product of the tables is the reduced carry-less product, and the nonzero elements are the powers. -/
theorem gmulObeysTheFieldLaws : Obligations.GmulObeysTheFieldLaws := fun _ hc x y z =>
  ⟨gmul_comm hc x y, (gmul_assoc hc x y z).symm, gmul_one hc x, gmul_zero hc x, gmul_gadd hc x y z,
    eq_zero_or_eq_zero_of_gmul_eq_zero hc, gmul_gexp_neg_glog hc, gmul_eq_clmul hc x y⟩

end Sys2Proof.Machine
end

section
/-! PROOFS. The Galois-field scalar commands: how a command's word is read and how a fault latches, for any command; then what
each of the three commands answers in each of its cases, by the laws of the field. -/

namespace Sys2Proof.Machine

open Sys2Proof.Reference

/-! ### The word of a command and the faults of a word (30_encoding.md R77, 60_exceptions.md R222) -/

/-- The encoding line of a command's rule, from the opcode, the must-be-zero bits and the fields of its word, and from the
decoder's row for the opcode. -/
theorem encodingOf_of_row {i : Instr} {op : BitVec 8} {f : Format} {fields : List (Fin 8)}
    (hop : opField (encode i) = op) (hmbz : encode i &&& f.mbz = 0)
    (hfields : [aField (encode i), bField (encode i), cField (encode i), dField (encode i)].take fields.length = fields)
    (hrow : ∀ w, opField w = op → ∃ j, decode w = ifMbz f w j) : EncodingOf i op f fields := by
  refine ⟨hop, hmbz, hfields, decode_encode i, fun w s hw hbits herr => issueCommand_of_no_command herr fun k hk => ?_⟩
  obtain ⟨j, hj⟩ := hrow w hw
  exact hbits (ifMbz_eq_ok_iff.1 (hj.symm.trans hk)).1

/-- The faulting word is the one word of its command. -/
theorem latches_of_exec {i : Instr} {s : State} {c : Cause} (h : exec i s = .next (s.latch c (encode i))) :
    Latches i s c := by
  intro w hw
  rw [← encode_of_decode hw]
  exact h

theorem encodingOf_gflog (rd rs : SReg) : EncodingOf (.gflog rd rs) 0x10 .R2 [rd, rs] :=
  encodingOf_of_row (opField_encR ..) (encR2_mbz ..) (by simp [encode]) fun w hw =>
    ⟨.gflog (aField w) (bField w), by rw [decode, hw]; rfl⟩

theorem encodingOf_gfexp (rd rs : SReg) : EncodingOf (.gfexp rd rs) 0x11 .R2 [rd, rs] :=
  encodingOf_of_row (opField_encR ..) (encR2_mbz ..) (by simp [encode]) fun w hw =>
    ⟨.gfexp (aField w) (bField w), by rw [decode, hw]; rfl⟩

theorem encodingOf_gfmul (rd rs1 rs2 : SReg) : EncodingOf (.gfmul rd rs1 rs2) 0x12 .R3 [rd, rs1, rs2] :=
  encodingOf_of_row (opField_encR ..) (encR3_mbz ..) (by simp [encode]) fun w hw =>
    ⟨.gfmul (aField w) (bField w) (cField w), by rw [decode, hw]; rfl⟩

/-! ### The readings of a register and of a table entry (10_state.md R22, R26) -/

/-- A register up to 255 is the field element of its low byte. -/
theorem State.toNat_element {s : State} {i : SReg} (h : s.num i ≤ 255) : (s.element i).toNat = s.num i := by
  rw [State.element, BitVec.toNat_setWidth, ← State.num, Nat.mod_eq_of_lt (by omega)]

theorem State.element_eq_of_toNat {s : State} {i : SReg} {x : Byte} (h : x.toNat = s.num i) : s.element i = x :=
  BitVec.eq_of_toNat_eq ((State.toNat_element (by have := x.isLt; omega)).trans h.symm)

theorem State.signedNum_eq (s : State) (i : SReg) :
    s.signedNum i = if s.num i < 2 ^ 31 then (s.num i : Int) else (s.num i : Int) - 2 ^ 32 := by
  rw [State.signedNum, BitVec.toInt_eq_toNat_cond, State.num]
  split <;> split <;> omega

theorem zextByte_eq_wordOf (x : Byte) : zextByte x = wordOf x.toNat := (BitVec.ofNat_toNat 32 x).symm

theorem log_getElem?_of_glog {c : Config} {x : Byte} {l : Nat} (h : glog c x = some l) :
    c.log[x.toNat - 1]? = some (BitVec.ofNat 8 l) := by
  rw [glog] at h
  split at h
  · cases h
  · obtain ⟨b, hb, rfl⟩ := Option.map_eq_some_iff.1 h
    rw [hb, BitVec.ofNat_toNat, BitVec.setWidth_eq]

/-! ### What the three commands answer (40_gf_scalar.md R96, R97, R98) -/

section Answers

variable {s : State} {rd rs rs1 rs2 : SReg}

theorem exec_gflog_of_gt (h : s.num rs > 255) :
    exec (.gflog rd rs) s = .next (s.latch .invalidArgument (encode (.gflog rd rs))) := if_pos h

theorem exec_gflog_of_glog_none (h : ¬ s.num rs > 255) (hlog : glog s.config (s.element rs) = none) :
    exec (.gflog rd rs) s = .next (s.latch .logOfZero (encode (.gflog rd rs))) := by
  simp only [exec, execGflog, if_neg h, hlog, raise_eq]

theorem exec_gflog_of_glog_some (h : ¬ s.num rs > 255) {l : Nat} (hlog : glog s.config (s.element rs) = some l) :
    exec (.gflog rd rs) s = .next (s.setReg rd (wordOf l)) := by
  simp only [exec, execGflog, if_neg h, hlog]

theorem exec_gfexp_eq :
    exec (.gfexp rd rs) s = .next (s.setReg rd (wordOf (gexp s.config (s.signedNum rs)).toNat)) := by
  simp only [exec, execGfexp, zextByte_eq_wordOf]

theorem exec_gfmul_of_gt (h : s.num rs1 > 255 ∨ s.num rs2 > 255) :
    exec (.gfmul rd rs1 rs2) s = .next (s.latch .invalidArgument (encode (.gfmul rd rs1 rs2))) := by
  simp only [exec, execGfmul, raise_eq]
  split
  · rfl
  · rw [if_pos (h.resolve_left ‹_›)]

theorem exec_gfmul_of_le (h1 : s.num rs1 ≤ 255) (h2 : s.num rs2 ≤ 255) :
    exec (.gfmul rd rs1 rs2) s =
      .next (s.setReg rd (wordOf (gmul s.config (s.element rs1) (s.element rs2)).toNat)) := by
  simp only [exec, execGfmul, if_neg (Nat.not_lt.2 h1), if_neg (Nat.not_lt.2 h2), zextByte_eq_wordOf]

end Answers

/-! ### The statements -/

/-- Settles O7: a factor 0 makes the product 0, and two powers multiply to the power of the sum of their exponents. -/
theorem gfmulWritesTheProduct : Obligations.GfmulWritesTheProduct := by
  intro rd rs1 rs2 s hc
  refine ⟨encodingOf_gfmul rd rs1 rs2, fun h => latches_of_exec (exec_gfmul_of_gt (.inl h)),
    fun h => latches_of_exec (exec_gfmul_of_gt (.inr h)), fun h1 h2 => ⟨_, exec_gfmul_of_le h1 h2, ?_, ?_⟩⟩
  · rintro (h | h)
    · rw [State.element_eq_of_toNat (x := 0) h.symm, gmul_comm hc, gmul_zero hc]
    · rw [State.element_eq_of_toNat (x := 0) h.symm, gmul_zero hc]
  · intro i hi j hj hx hy
    have hmod : (((i : Int) + j) % 255).toNat = (i + j) % 255 := by omega
    rw [State.element_eq_of_toNat hx, State.element_eq_of_toNat hy, ← gexp_eq_getD _ hi, ← gexp_eq_getD _ hj,
      gmul_gexp hc, gexp, hmod]

/-- Settles O5: 0 alone has no logarithm, and every other element is the power of its logarithm. -/
theorem gflogWritesTheLogarithm : Obligations.GflogWritesTheLogarithm := by
  intro rd rs s hc
  refine ⟨encodingOf_gflog rd rs, fun h => latches_of_exec (exec_gflog_of_gt h), fun h => ?_, fun hpos hle => ?_⟩
  · refine latches_of_exec (exec_gflog_of_glog_none (by omega) ?_)
    rw [State.element_eq_of_toNat (x := 0) h.symm, glog_zero]
  · have hnum := State.toNat_element hle
    have hne : s.element rs ≠ 0 := by
      intro hzero
      rw [hzero] at hnum
      exact Nat.ne_of_gt hpos hnum.symm
    obtain ⟨l, hl, hlog, hexp⟩ := exists_glog_eq hc hne
    refine ⟨l, hl, ?_, ?_, exec_gflog_of_glog_some (by omega) hlog⟩
    · rw [← hnum, log_getElem?_of_glog hlog]
    · rw [← gexp_eq_getD _ hl, hexp, hnum]

/-- Settles O6: the entry is the one at the floored remainder of the signed reading by 255. -/
theorem gfexpWritesThePower : Obligations.GfexpWritesThePower := by
  intro rd rs s hc
  have hk : ((s.signedNum rs % 255).toNat : Int) = s.signedNum rs % 255 := Int.toNat_of_nonneg (by omega)
  refine ⟨encodingOf_gfexp rd rs, (s.signedNum rs % 255).toNat, by omega, ?_, gexp_int_ne_zero hc _, exec_gfexp_eq⟩
  rw [← State.signedNum_eq, hk]
  exact Int.dvd_self_sub_emod

end Sys2Proof.Machine
end

section
/-! PROOFS. Polynomials: a list is read as its coefficients, by the power they stand at, so that leading zeros do not count
and every operation on lists is an exclusive-or of shifted multiples; a normalised list is the only one with its
coefficients; so a division is a sum of multiples of the divisor, and no multiple of it but `[0]` is shorter than it. -/

namespace Sys2Proof.Machine

open Sys2Proof.Reference

/-! ### The coefficients of a list (00_scope.md R14) -/

/-- The coefficient of the power `k`: the list's place `k` from its end, 0 past its front. -/
def coeff : Poly → Nat → Byte
  | [], _ => 0
  | x :: p, k => if k = p.length then x else coeff p k

/-- A coefficient function times the power `d`. -/
def timesX (d : Nat) (f : Nat → Byte) (k : Nat) : Byte := if d ≤ k then f (k - d) else 0

theorem coeff_of_length_le {p : Poly} {k : Nat} (h : p.length ≤ k) : coeff p k = 0 := by
  induction p with
  | nil => rfl
  | cons x p ih =>
    rw [List.length_cons] at h
    rw [coeff, if_neg (by omega), ih (by omega)]

@[simp] theorem coeff_cons_length (x : Byte) (p : Poly) : coeff (x :: p) p.length = x := if_pos rfl

@[simp] theorem coeff_zero_cons (p : Poly) (k : Nat) : coeff (0 :: p) k = coeff p k := by
  rw [coeff]
  split
  · rw [coeff_of_length_le (by omega)]
  · rfl

@[simp] theorem coeff_zeros_append (n : Nat) (p : Poly) (k : Nat) : coeff (List.replicate n 0 ++ p) k = coeff p k := by
  induction n with
  | zero => rfl
  | succ n ih => rw [List.replicate_succ, List.cons_append, coeff_zero_cons, ih]

@[simp] theorem coeff_zeros (n k : Nat) : coeff (List.replicate n 0) k = 0 := by
  rw [← List.append_nil (List.replicate n 0), coeff_zeros_append, coeff]

@[simp] theorem coeff_pnorm (p : Poly) (k : Nat) : coeff (pnorm p) k = coeff p k := by
  induction p with
  | nil => exact coeff_zero_cons [] k
  | cons x p ih =>
    cases p with
    | nil => rfl
    | cons y p =>
      rw [pnorm]
      split
      · rename_i hx
        rw [hx, coeff_zero_cons, ih]
      · rfl

/-- Zeros after a list multiply it by a power (41_polynomial.md R113). -/
theorem coeff_append_zeros (p : Poly) (d k : Nat) : coeff (p ++ List.replicate d 0) k = timesX d (coeff p) k := by
  induction p with
  | nil => rw [List.nil_append, coeff_zeros, timesX, coeff, ite_self]
  | cons x p ih =>
    rw [List.cons_append, coeff, ih, timesX, timesX, coeff, List.length_append, List.length_replicate]
    by_cases hd : d ≤ k
    · have htop : k = p.length + d ↔ k - d = p.length := by omega
      simp only [hd, if_true, htop]
    · have hlow : k ≠ p.length + d := by omega
      simp only [hd, if_false, hlow]

theorem coeff_zipWith_gadd {p r : Poly} (h : p.length = r.length) (k : Nat) :
    coeff (List.zipWith gadd p r) k = coeff p k ^^^ coeff r k := by
  induction p generalizing r with
  | nil =>
    rw [List.eq_nil_of_length_eq_zero h.symm]
    exact BitVec.xor_self.symm
  | cons x p ih =>
    cases r with
    | nil => cases h
    | cons y r =>
      have hlen : p.length = r.length := Nat.succ.inj h
      rw [List.zipWith_cons_cons, coeff, coeff, coeff, List.length_zipWith, ← hlen, Nat.min_self, ih hlen]
      split <;> rfl

/-! ### Normalised lists by their coefficients (00_scope.md R17) -/

theorem headD_eq_coeff (p : Poly) : p.headD 0 = coeff p (p.length - 1) := by
  cases p with
  | nil => rfl
  | cons x p => exact (coeff_cons_length x p).symm

theorem eq_of_length_eq_of_coeff_eq {p r : Poly} (hlen : p.length = r.length) (h : ∀ k, coeff p k = coeff r k) : p = r := by
  induction p generalizing r with
  | nil => exact (List.eq_nil_of_length_eq_zero hlen.symm).symm
  | cons x p ih =>
    cases r with
    | nil => cases hlen
    | cons y r =>
      have hlen : p.length = r.length := Nat.succ.inj hlen
      have hxy : x = y := by
        have htop := h p.length
        rwa [coeff_cons_length, hlen, coeff_cons_length] at htop
      rw [hxy, ih hlen fun k => ?_]
      rcases Nat.lt_or_ge k p.length with hlow | hhigh
      · have hk := h k
        rwa [coeff, coeff, ← hlen, if_neg (Nat.ne_of_lt hlow), if_neg (Nat.ne_of_lt hlow)] at hk
      · rw [coeff_of_length_le hhigh, coeff_of_length_le (hlen ▸ hhigh)]

/-- A normalised list is the shortest non-empty one with its coefficients. -/
theorem length_le_of_coeff_eq {p r : Poly} (hp : Normalised p) (hr : r ≠ []) (h : ∀ k, coeff p k = coeff r k) :
    p.length ≤ r.length := by
  obtain ⟨-, hlead⟩ := hp
  have hpos := List.length_pos_of_ne_nil hr
  by_contra hlong
  apply hlead (by omega)
  rw [headD_eq_coeff, h, coeff_of_length_le (by omega)]

/-- A normalised list is the only one with its coefficients. -/
theorem Normalised.eq_of_coeff_eq {p r : Poly} (hp : Normalised p) (hr : Normalised r)
    (h : ∀ k, coeff p k = coeff r k) : p = r :=
  eq_of_length_eq_of_coeff_eq
    (Nat.le_antisymm (length_le_of_coeff_eq hp hr.1 h) (length_le_of_coeff_eq hr hp.1 fun k => (h k).symm)) h

/-! ### Sums (41_polynomial.md R115) -/

theorem length_padd (p r : Poly) : (padd p r).length = max p.length r.length := by
  simp only [padd, List.length_zipWith, List.length_append, List.length_replicate]
  omega

@[simp] theorem coeff_padd (p r : Poly) (k : Nat) : coeff (padd p r) k = coeff p k ^^^ coeff r k := by
  rw [padd, coeff_zipWith_gadd (by simp only [List.length_append, List.length_replicate]; omega), coeff_zeros_append,
    coeff_zeros_append]

/-- No leading coefficient is lost in a sum of two lists of different lengths. -/
theorem padd_normalised {p r : Poly} (hp : Normalised p) (hr : Normalised r) (h : p.length = r.length → p.length = 1) :
    Normalised (padd p r) := by
  obtain ⟨hpne, hplead⟩ := hp
  obtain ⟨-, hrlead⟩ := hr
  have hppos := List.length_pos_of_ne_nil hpne
  refine ⟨List.ne_nil_of_length_pos (by rw [length_padd]; omega), fun hlong => ?_⟩
  rw [headD_eq_coeff] at hplead hrlead ⊢
  rw [length_padd] at hlong ⊢
  rw [coeff_padd]
  rcases Nat.lt_trichotomy p.length r.length with hlt | heq | hgt
  · rw [Nat.max_eq_right (Nat.le_of_lt hlt), coeff_of_length_le (by omega : p.length ≤ r.length - 1)]
    simpa using hrlead (by omega)
  · have := h heq
    omega
  · rw [Nat.max_eq_left (Nat.le_of_lt hgt), coeff_of_length_le (by omega : r.length ≤ p.length - 1)]
    simpa using hplead (by omega)

/-! ### Rows and products (41_polynomial.md R111) -/

/-- A row into the front of a list is the list plus the row moved up to the list's leading power. -/
theorem xorFront_eq_zipWith {row w : Poly} (h : row.length ≤ w.length) :
    xorFront row w = List.zipWith gadd w (row ++ List.replicate (w.length - row.length) 0) := by
  induction row generalizing w with
  | nil =>
    induction w with
    | nil => rfl
    | cons y w ih => simpa [xorFront, List.replicate_succ, gadd] using ih (Nat.zero_le _)
  | cons x row ih =>
    cases w with
    | nil => simp at h
    | cons y w =>
      rw [xorFront, ih (Nat.le_of_succ_le_succ h), List.cons_append, List.zipWith_cons_cons, List.length_cons,
        List.length_cons, Nat.succ_sub_succ]

theorem coeff_xorFront {row w : Poly} (h : row.length ≤ w.length) (k : Nat) :
    coeff (xorFront row w) k = coeff w k ^^^ timesX (w.length - row.length) (coeff row) k := by
  rw [xorFront_eq_zipWith h, coeff_zipWith_gadd, coeff_append_zeros]
  simp only [List.length_append, List.length_replicate]
  omega

/-- The row that a round of the division adds to the dividend `a`: the divisor scaled to cancel its leading coefficient
(41_polynomial.md R112). -/
def roundRow (c : Config) (a b : Poly) : Poly :=
  scaleRow c ((glogNum c (a.headD 0) : Int) - glogNum c (b.headD 0)) b

/-- The coefficients of the product of the list with a polynomial given by its coefficients: one shifted multiple for each
element. -/
def mulCoeff (c : Config) : Poly → (Nat → Byte) → Nat → Byte
  | [], _, _ => 0
  | x :: q, f, k => gmul c x (timesX q.length f k) ^^^ mulCoeff c q f k

section ValidTables

variable {c : Config} (hc : ValidConfig c)
include hc

theorem gmul_xor (x y z : Byte) : gmul c x (y ^^^ z) = gmul c x y ^^^ gmul c x z := gmul_gadd hc x y z

theorem xor_gmul (x y z : Byte) : gmul c (x ^^^ y) z = gmul c x z ^^^ gmul c y z := by
  rw [gmul_comm hc, gmul_xor hc, gmul_comm hc z, gmul_comm hc z]

theorem coeff_map_gmul (x : Byte) (p : Poly) (k : Nat) : coeff (p.map (gmul c x)) k = gmul c x (coeff p k) := by
  induction p with
  | nil => exact (gmul_zero hc x).symm
  | cons y p ih =>
    rw [List.map_cons, coeff, coeff, List.length_map, ih]
    split <;> rfl

theorem timesX_gmul (d : Nat) (x : Byte) (p : Poly) (k : Nat) :
    timesX d (coeff (p.map (gmul c x))) k = gmul c x (timesX d (coeff p) k) := by
  rw [timesX, timesX, coeff_map_gmul hc]
  split
  · rfl
  · exact (gmul_zero hc x).symm

theorem coeff_convolve (a : Poly) {b : Poly} (hb : b ≠ []) (k : Nat) :
    coeff (convolve c a b) k = mulCoeff c a (coeff b) k := by
  induction a with
  | nil => rw [convolve, coeff_zeros, mulCoeff]
  | cons x a ih =>
    have hpos := List.length_pos_of_ne_nil hb
    have hlen : (0 :: convolve c a b).length = a.length + b.length := by
      rw [List.length_cons, length_convolve c a b hb]
      omega
    rw [convolve, coeff_xorFront (by rw [hlen, List.length_map]; omega), coeff_zero_cons, ih, timesX_gmul hc, hlen,
      List.length_map, Nat.add_sub_cancel, mulCoeff, BitVec.xor_comm]

theorem coeff_pmul (a : Poly) {b : Poly} (hb : b ≠ []) (k : Nat) :
    coeff (pmul c a b) k = mulCoeff c a (coeff b) k := by
  rw [pmul, coeff_pnorm, coeff_convolve hc a hb]

/-! ### The product is additive in its first factor -/

theorem mulCoeff_zero_cons (q : Poly) (f : Nat → Byte) (k : Nat) : mulCoeff c (0 :: q) f k = mulCoeff c q f k := by
  rw [mulCoeff, gmul_comm hc, gmul_zero hc, BitVec.ofNat_eq_ofNat, BitVec.zero_xor]

theorem mulCoeff_zeros_append (n : Nat) (q : Poly) (f : Nat → Byte) (k : Nat) :
    mulCoeff c (List.replicate n 0 ++ q) f k = mulCoeff c q f k := by
  induction n with
  | zero => rfl
  | succ n ih => rw [List.replicate_succ, List.cons_append, mulCoeff_zero_cons hc, ih]

theorem mulCoeff_pnorm (q : Poly) (f : Nat → Byte) (k : Nat) : mulCoeff c (pnorm q) f k = mulCoeff c q f k := by
  induction q with
  | nil => exact mulCoeff_zero_cons hc [] f k
  | cons x q ih =>
    cases q with
    | nil => rfl
    | cons y q =>
      rw [pnorm]
      split
      · rename_i hx
        rw [hx, mulCoeff_zero_cons hc, ih]
      · rfl

theorem mulCoeff_zipWith_gadd {p q : Poly} (h : p.length = q.length) (f : Nat → Byte) (k : Nat) :
    mulCoeff c (List.zipWith gadd p q) f k = mulCoeff c p f k ^^^ mulCoeff c q f k := by
  induction p generalizing q with
  | nil =>
    rw [List.eq_nil_of_length_eq_zero h.symm]
    exact BitVec.xor_self.symm
  | cons x p ih =>
    cases q with
    | nil => cases h
    | cons y q =>
      have hlen : p.length = q.length := Nat.succ.inj h
      rw [List.zipWith_cons_cons, mulCoeff, mulCoeff, mulCoeff, List.length_zipWith, ← hlen, Nat.min_self, ih hlen, gadd,
        xor_gmul hc]
      ac_rfl

theorem mulCoeff_padd (p q : Poly) (f : Nat → Byte) (k : Nat) :
    mulCoeff c (padd p q) f k = mulCoeff c p f k ^^^ mulCoeff c q f k := by
  rw [padd, mulCoeff_zipWith_gadd hc (by simp only [List.length_append, List.length_replicate]; omega),
    mulCoeff_zeros_append hc, mulCoeff_zeros_append hc]

theorem mulCoeff_monomial (x : Byte) (d : Nat) (f : Nat → Byte) (k : Nat) :
    mulCoeff c (x :: List.replicate d 0) f k = gmul c x (timesX d f k) := by
  rw [mulCoeff, List.length_replicate, ← List.append_nil (List.replicate d 0), mulCoeff_zeros_append hc, mulCoeff,
    BitVec.ofNat_eq_ofNat, BitVec.xor_zero]

/-! ### Division (41_polynomial.md R112, R115) -/

/-- The row of a round is a multiple of the divisor. -/
theorem scaleRow_eq_map (ratio : Int) (b : Poly) : scaleRow c ratio b = b.map (gmul c (gexp c ratio)) := by
  refine List.map_congr_left fun y _ => ?_
  by_cases hy : y = 0
  · rw [hy, glog_zero, gmul_zero hc]
  · obtain ⟨l, -, hl, rfl⟩ := exists_glog_eq hc hy
    rw [hl, gmul_gexp hc, add_comm]

theorem glog_eq_glogNum {x : Byte} (hx : x ≠ 0) : glog c x = some (glogNum c x) := by
  obtain ⟨l, -, hl, -⟩ := exists_glog_eq hc hx
  rw [glogNum, hl]
  rfl

/-- With a nonzero divisor that is not longer than the nonzero dividend, the machine's loop makes a round. -/
theorem pmodLoop_round {a b : Poly} (ha : Normalised a) (haz : a ≠ [0]) (hb : Normalised b) (hbz : b ≠ [0])
    (hlong : ¬ a.length < b.length) (n : Nat) :
    pmodLoop c (n + 1) a b = pmodLoop c n (pnorm (xorFront (roundRow c a b) a)) b := by
  obtain ⟨x, a, rfl, hx⟩ := exists_cons_of_normalised ha haz
  obtain ⟨y, b, rfl, hy⟩ := exists_cons_of_normalised hb hbz
  rw [pmodLoop, if_neg hlong, if_neg haz, roundRow]
  simp only [List.headD_cons, glog_eq_glogNum hc hx, glog_eq_glogNum hc hy]

/-- A round shortens the dividend, or leaves the zero polynomial. -/
theorem pnorm_round_shorter {a b : Poly} (ha : Normalised a) (haz : a ≠ [0]) (hb : Normalised b) (hbz : b ≠ [0]) :
    pnorm (xorFront (roundRow c a b) a) = [0] ∨ (pnorm (xorFront (roundRow c a b) a)).length < a.length := by
  obtain ⟨x, a, rfl, hx⟩ := exists_cons_of_normalised ha haz
  obtain ⟨y, b, rfl, hy⟩ := exists_cons_of_normalised hb hbz
  have hexp : gexp c (glogNum c x) = x := by
    obtain ⟨l, -, hl, hexp⟩ := exists_glog_eq hc hx
    rw [glogNum, hl]
    exact hexp
  rw [roundRow, List.headD_cons, List.headD_cons, xorFront_scaleRow_cancels hexp (glog_eq_glogNum hc hy)]
  simpa using pnorm_zero_cons_shorter (xorFront (scaleRow c ((glogNum c x : Int) - glogNum c y) b) a)

/-- Every round takes a multiple of the divisor from the dividend, so the dividend is a multiple of it and what is left. -/
theorem exists_quotient_pmodLoop {b : Poly} (hb : Normalised b) (hbz : b ≠ [0]) (n : Nat) {a : Poly} (ha : Normalised a) :
    ∃ q, ∀ k, coeff a k = mulCoeff c q (coeff b) k ^^^ coeff (pmodLoop c n a b) k := by
  have hnone {p r : Poly} (h : r = p) : ∃ q, ∀ k, coeff p k = mulCoeff c q (coeff b) k ^^^ coeff r k :=
    ⟨[], fun k => h ▸ BitVec.zero_xor.symm⟩
  induction n generalizing a with
  | zero => exact hnone rfl
  | succ n ih =>
    by_cases hlong : a.length < b.length
    · exact hnone (if_pos hlong)
    by_cases haz : a = [0]
    · exact hnone (by rw [haz, pmodLoop_zero])
    obtain ⟨q, hq⟩ := ih (pnorm_normalised (xorFront (roundRow c a b) a))
    rw [pmodLoop_round hc ha haz hb hbz hlong]
    refine ⟨padd (gexp c ((glogNum c (a.headD 0) : Int) - glogNum c (b.headD 0)) ::
      List.replicate (a.length - b.length) 0) q, fun k => ?_⟩
    have hround := hq k
    rw [coeff_pnorm, roundRow, scaleRow_eq_map hc,
      coeff_xorFront ((List.length_map _).trans_le (Nat.le_of_not_lt hlong)), timesX_gmul hc, List.length_map] at hround
    rw [roundRow, scaleRow_eq_map hc, mulCoeff_padd hc, mulCoeff_monomial hc, BitVec.xor_assoc, ← hround,
      BitVec.xor_comm, BitVec.xor_assoc, BitVec.xor_self, BitVec.xor_zero]

theorem exists_quotient_pmod {a b : Poly} (ha : Normalised a) (hb : Normalised b) (hbz : b ≠ [0]) :
    ∃ q, ∀ k, coeff a k = mulCoeff c q (coeff b) k ^^^ coeff (pmod c a b) k :=
  exists_quotient_pmodLoop hc hb hbz _ ha

/-- A product is zero or at least as long as its nonzero factor, for leading coefficients multiply to a nonzero one. -/
theorem pmul_eq_zero_or_length_le {q b : Poly} (hq : Normalised q) (hb : Normalised b) (hbz : b ≠ [0]) :
    pmul c q b = [0] ∨ b.length ≤ (pmul c q b).length := by
  by_cases hqz : q = [0]
  · refine .inl ((pmul_normalised c q b).eq_of_coeff_eq ⟨by simp, by simp⟩ fun k => ?_)
    rw [coeff_pmul hc q hb.1, hqz, mulCoeff_zero_cons hc, coeff_zero_cons]
    rfl
  · obtain ⟨x, q, rfl, hx⟩ := exists_cons_of_normalised hq hqz
    obtain ⟨y, b, rfl, hy⟩ := exists_cons_of_normalised hb hbz
    have hlead : gadd 0 (gmul c x y) ≠ 0 := by
      rw [gadd, BitVec.ofNat_eq_ofNat, BitVec.zero_xor]
      exact fun h => (eq_zero_or_eq_zero_of_gmul_eq_zero hc h).elim hx hy
    have hnorm : Normalised (convolve c (x :: q) (y :: b)) := ⟨by simp [convolve, xorFront], fun _ => hlead⟩
    refine .inr ?_
    rw [pmul, pnorm_of_normalised hnorm, length_convolve _ _ _ (by simp), List.length_cons, List.length_cons]
    omega

/-- What is a multiple of the divisor by its coefficients has remainder `[0]`: the remainder is then a multiple too, and a
nonzero one would not be shorter than the divisor. -/
theorem pmod_eq_zero_of_coeff_eq_mulCoeff {a b q : Poly} (ha : Normalised a) (hb : Normalised b) (hbz : b ≠ [0])
    (h : ∀ k, coeff a k = mulCoeff c q (coeff b) k) : pmod c a b = [0] := by
  obtain ⟨q', hq'⟩ := exists_quotient_pmod hc ha hb hbz
  have hmul : pmul c (pnorm (padd q q')) b = pmod c a b := by
    refine (pmul_normalised ..).eq_of_coeff_eq (pmod_normalised c ha b) fun k => ?_
    rw [coeff_pmul hc _ hb.1, mulCoeff_pnorm hc, mulCoeff_padd hc, ← h, hq', BitVec.xor_comm, ← BitVec.xor_assoc,
      BitVec.xor_self, BitVec.zero_xor]
  rcases pmod_shorter hc ha hb hbz with hzero | hshort
  · exact hzero
  · rcases pmul_eq_zero_or_length_le hc (pnorm_normalised (padd q q')) hb hbz with hzero | hlong
    · rwa [hmul] at hzero
    · rw [hmul] at hlong
      omega

theorem pmod_of_length_one {a b : Poly} (ha : Normalised a) (hb : Normalised b) (hbz : b ≠ [0]) (hlen : b.length = 1) :
    pmod c a b = [0] := by
  rcases pmod_shorter hc ha hb hbz with hzero | hshort
  · exact hzero
  · have hpos := List.length_pos_of_ne_nil (pmod_normalised c ha b).1
    omega

/-- A multiple of the divisor and the remainder, added as lists, keep the leading coefficient of the longer one. -/
theorem padd_pmul_pmod_normalised {a b q : Poly} (ha : Normalised a) (hb : Normalised b) (hbz : b ≠ [0])
    (hq : Normalised q) : Normalised (padd (pmul c q b) (pmod c a b)) := by
  refine padd_normalised (pmul_normalised c q b) (pmod_normalised c ha b) fun heq => ?_
  rcases pmul_eq_zero_or_length_le hc hq hb hbz with hzero | hlong
  · rw [hzero, List.length_singleton]
  · rcases pmod_shorter hc ha hb hbz with hzero | hshort
    · rw [heq, hzero, List.length_singleton]
    · omega

end ValidTables

theorem pmod_of_length_lt (c : Config) {a b : Poly} (h : a.length < b.length) : pmod c a b = a := by
  rw [pmod, pmodLoop, if_pos h]

/-! ### The statements -/

/-- Settles O45: the sum of the rounds' multiples is the quotient, and a normalised list is determined by its
coefficients. -/
theorem pmodIsDivisionRemainder : Obligations.PmodIsDivisionRemainder := by
  intro c a b hc ha hb hbz
  obtain ⟨q, hq⟩ := exists_quotient_pmod hc ha hb hbz
  refine ⟨⟨pnorm q, pnorm_normalised q, ?_⟩, fun hlen => ?_, pmod_of_length_one hc ha hb hbz, pmod_of_length_lt c⟩
  · refine ha.eq_of_coeff_eq (padd_pmul_pmod_normalised hc ha hb hbz (pnorm_normalised q)) fun k => ?_
    rw [coeff_padd, coeff_pmul hc _ hb.1, mulCoeff_pnorm hc, hq]
  · rcases pmod_shorter hc ha hb hbz with hzero | hshort
    · rw [hzero]
      exact hlen
    · exact hshort

/-- Settles O46: a product has the coefficients of a multiple. -/
theorem multiplesHaveZeroRemainder : Obligations.MultiplesHaveZeroRemainder := fun c q b hc _ hb hbz =>
  pmod_eq_zero_of_coeff_eq_mulCoeff hc (pmul_normalised c q b) hb hbz (coeff_pmul hc q hb.1)

/-- Settles O44: leading zeros change no coefficient, and a normalised list is determined by its coefficients. -/
theorem pnormRemovesLeadingZeros : Obligations.PnormRemovesLeadingZeros := by
  refine ⟨fun k x t hx => ?_, fun k => ?_, pnorm_normalised, fun p => pnorm_of_normalised⟩
  · refine (pnorm_normalised _).eq_of_coeff_eq ⟨by simp, fun _ => hx⟩ fun i => ?_
    rw [coeff_pnorm, coeff_zeros_append]
  · refine (pnorm_normalised _).eq_of_coeff_eq ⟨by simp, by simp⟩ fun i => ?_
    rw [coeff_pnorm, coeff_zeros, coeff_zero_cons]
    rfl

end Sys2Proof.Machine
end

section
/-! PROOFS. The loops of `pmul`, `pmod` and `pgen` compute what the machine's recursions do: the inner loop of `pmul` adds a
row, a round of `pmod`'s loop is a round of the machine, and the loop of `pgen` counts as the recursion does. -/

namespace Sys2Proof.Machine

open Sys2Proof.Reference

/-! ### The loops of `pmul` (41_polynomial.md R111) -/

/-- The inner loop of `pmul` for the element `i` of `a`, on the list `out`. -/
def pmulRow (c : Config) (a b out : Poly) (i : Nat) : Poly :=
  (List.range b.length).foldl (fun out j => pmulTerm c a b out i j) out

/-- The outer loop of `pmul` on the list `out`. -/
def pmulRows (c : Config) (a b out : Poly) : Poly := (List.range a.length).foldl (pmulRow c a b) out

theorem pmulLoops_eq (c : Config) (a b : Poly) :
    pmulLoops c a b = pmulRows c a b (List.replicate (a.length + b.length - 1) 0) := rfl

/-- A loop that never reaches the first element works on the rest. -/
theorem foldl_cons_out {f g : Poly → Nat → Poly} {o : Byte} (h : ∀ out i, f (o :: out) i = o :: g out i) (l : List Nat)
    (out : Poly) : l.foldl f (o :: out) = o :: l.foldl g out := by
  induction l generalizing out with
  | nil => rfl
  | cons i l ih => rw [List.foldl_cons, List.foldl_cons, h, ih]

theorem pmulTerm_succ_left (c : Config) (x : Byte) (a b : Poly) (o : Byte) (out : Poly) (i j : Nat) :
    pmulTerm c (x :: a) b (o :: out) (i + 1) j = o :: pmulTerm c a b out i j := by
  rw [pmulTerm, pmulTerm, List.getD_cons_succ, Nat.add_right_comm, List.modify_succ_cons]
  split <;> rfl

theorem pmulTerm_succ_right (c : Config) (a : Poly) (y : Byte) (b : Poly) (o : Byte) (out : Poly) (i j : Nat) :
    pmulTerm c a (y :: b) (o :: out) i (j + 1) = o :: pmulTerm c a b out i j := by
  rw [pmulTerm, pmulTerm, List.getD_cons_succ, ← Nat.add_assoc, List.modify_succ_cons]
  split <;> rfl

theorem pmulRow_succ (c : Config) (x : Byte) (a b : Poly) (o : Byte) (out : Poly) (i : Nat) :
    pmulRow c (x :: a) b (o :: out) (i + 1) = o :: pmulRow c a b out i :=
  foldl_cons_out (fun out j => pmulTerm_succ_left c x a b o out i j) _ out

/-- A row moves from one summand to the other. -/
theorem zipWith_xorFront (row u v : Poly) :
    List.zipWith gadd (xorFront row u) v = List.zipWith gadd u (xorFront row v) := by
  induction row generalizing u v with
  | nil => rfl
  | cons x row ih =>
    cases u with
    | nil => rfl
    | cons y u =>
      cases v with
      | nil => rfl
      | cons z v =>
        have hhead : gadd (gadd y x) z = gadd y (gadd z x) := by
          simp only [gadd]
          ac_rfl
        rw [xorFront, xorFront, List.zipWith_cons_cons, List.zipWith_cons_cons, ih, hhead]

theorem zipWith_gadd_zeros (p : Poly) : List.zipWith gadd p (List.replicate p.length 0) = p :=
  eq_of_length_eq_of_coeff_eq (by simp) fun k => by
    rw [coeff_zipWith_gadd (by simp), coeff_zeros, BitVec.ofNat_eq_ofNat, BitVec.xor_zero]

theorem zipWith_zeros_gadd (p : Poly) : List.zipWith gadd (List.replicate p.length 0) p = p :=
  eq_of_length_eq_of_coeff_eq (by simp) fun k => by
    rw [coeff_zipWith_gadd (by simp), coeff_zeros, BitVec.ofNat_eq_ofNat, BitVec.zero_xor]

section ValidTables

variable {c : Config} (hc : ValidConfig c)
include hc

/-- A term of the loops adds the product; where the loops skip it, the product is 0. -/
theorem pmulTerm_zero_zero (x : Byte) (a : Poly) (y : Byte) (b : Poly) (o : Byte) (out : Poly) :
    pmulTerm c (x :: a) (y :: b) (o :: out) 0 0 = gadd o (gmul c x y) :: out := by
  rw [pmulTerm, List.getD_cons_zero, List.getD_cons_zero, List.modify_zero_cons]
  by_cases hx : x = 0
  · rw [if_neg (fun h => h.1 hx), hx, gmul_comm hc, gmul_zero hc]
    exact congrArg (· :: out) BitVec.xor_zero.symm
  by_cases hy : y = 0
  · rw [if_neg (fun h => h.2 hy), hy, gmul_zero hc]
    exact congrArg (· :: out) BitVec.xor_zero.symm
  · rw [if_pos ⟨hx, hy⟩, gmul_of_glog (glog_eq_glogNum hc hx) (glog_eq_glogNum hc hy), gadd]

/-- The inner loop for the first element of `a` adds the element's row. -/
theorem pmulRow_zero (x : Byte) (a : Poly) {b out : Poly} (h : b.length ≤ out.length) :
    pmulRow c (x :: a) b out 0 = xorFront (b.map (gmul c x)) out := by
  induction b generalizing out with
  | nil => rfl
  | cons y b ih =>
    cases out with
    | nil => cases h
    | cons o out =>
      have hrest := ih (Nat.le_of_succ_le_succ h)
      rw [pmulRow] at hrest ⊢
      rw [List.length_cons, List.range_succ_eq_map, List.foldl_cons, List.foldl_map, pmulTerm_zero_zero hc,
        foldl_cons_out (fun out j => pmulTerm_succ_right c (x :: a) y b _ out 0 j), hrest, List.map_cons, xorFront]

/-- The outer loop adds the convolution: its first row is final in the leading place, and the other rows work on the rest. -/
theorem pmulRows_eq (a : Poly) {b out : Poly} (hb : b ≠ []) (hlen : out.length = a.length + b.length - 1) :
    pmulRows c a b out = List.zipWith gadd out (convolve c a b) := by
  induction a generalizing out with
  | nil =>
    rw [List.length_nil, Nat.zero_add] at hlen
    rw [convolve, ← hlen, zipWith_gadd_zeros]
    rfl
  | cons x a ih =>
    obtain ⟨y, b, rfl⟩ := List.exists_cons_of_ne_nil hb
    simp only [List.length_cons] at hlen ih
    cases out with
    | nil => rw [List.length_nil] at hlen; omega
    | cons o out =>
      rw [List.length_cons] at hlen
      have hrest := ih (out := xorFront (b.map (gmul c x)) out) (by rw [length_xorFront]; omega)
      have hhead : gadd o (gadd 0 (gmul c x y)) = gadd o (gmul c x y) := congrArg (gadd o) BitVec.zero_xor
      rw [pmulRows] at hrest ⊢
      rw [List.length_cons, List.range_succ_eq_map, List.foldl_cons, List.foldl_map,
        pmulRow_zero hc x a (by simp only [List.length_cons]; omega), List.map_cons, xorFront,
        foldl_cons_out (fun out i => pmulRow_succ c x a _ _ out i), hrest, zipWith_xorFront, convolve, List.map_cons,
        xorFront, List.zipWith_cons_cons, hhead]

/-- The loops of `pmul` leave the convolution. -/
theorem pmulLoops_eq_convolve (a : Poly) {b : Poly} (hb : b ≠ []) : pmulLoops c a b = convolve c a b := by
  rw [pmulLoops_eq, pmulRows_eq hc a hb (List.length_replicate ..), ← length_convolve c a b hb, zipWith_zeros_gadd]

end ValidTables

/-! ### The loop of `pmod` (41_polynomial.md R112) -/

theorem getElem_xorFront (row w : Poly) (i : Nat) (h : i < (xorFront row w).length) (hw : i < w.length) :
    (xorFront row w)[i] = w[i] ^^^ row.getD i 0 := by
  induction row generalizing w i with
  | nil => exact BitVec.xor_zero.symm
  | cons x row ih =>
    cases w with
    | nil => cases hw
    | cons y w =>
      cases i with
      | zero => rfl
      | succ i => exact ih w i _ (Nat.lt_of_succ_lt_succ hw)

theorem remainder_zero (c : Config) (b : Poly) : Remainder c b [0] [0] := by
  by_cases h : [(0 : Byte)].length < b.length
  · exact .shorter _ h
  · exact .zero h

section ValidTables

variable {c : Config} (hc : ValidConfig c)
include hc

theorem gexp_glogNum_add {y : Byte} (hy : y ≠ 0) (n : Int) : gexp c ((glogNum c y : Int) + n) = gmul c (gexp c n) y := by
  obtain ⟨l, -, hl, rfl⟩ := exists_glog_eq hc hy
  rw [glogNum, hl, Option.getD_some, gmul_gexp hc, add_comm]

theorem getD_scaleRow (ratio : Int) (b : Poly) (i : Nat) :
    (scaleRow c ratio b).getD i 0 = gmul c (gexp c ratio) (b.getD i 0) := by
  have hmap := List.getD_map (l := b) (d := 0) (n := i) (gmul c (gexp c ratio))
  rwa [gmul_zero hc, ← scaleRow_eq_map hc] at hmap

/-- A round of the loop is a round of the machine: where the loop skips a coefficient, its product is 0. -/
theorem pmodRound_eq (a b : Poly) : pmodRound c a b = xorFront (roundRow c a b) a := by
  refine List.ext_getElem (by simp [pmodRound]) fun i h _ => ?_
  have hi : i < a.length := by simpa [pmodRound] using h
  have hget : a.getD i 0 = a[i] := List.getD_eq_getElem a 0 hi
  rw [getElem_xorFront _ _ _ _ hi, roundRow, getD_scaleRow hc]
  simp only [pmodRound, List.getElem_map, List.getElem_range, hget]
  split
  · rename_i hne
    rw [gexp_glogNum_add hc hne]
  · rename_i hzero
    rw [not_not.1 hzero, gmul_zero hc, BitVec.ofNat_eq_ofNat, BitVec.xor_zero]

/-- The machine's loop runs the rule's to its end whenever the bound on the rounds exceeds the length of the dividend, for
each round shortens the dividend. -/
theorem remainder_pmodLoop {b : Poly} (hb : Normalised b) (hbz : b ≠ [0]) {n : Nat} {a : Poly} (ha : Normalised a)
    (hn : a.length < n) : Remainder c b a (pmodLoop c n a b) := by
  induction n generalizing a with
  | zero => omega
  | succ n ih =>
    by_cases hlong : a.length < b.length
    · rw [pmodLoop, if_pos hlong]
      exact .shorter a hlong
    by_cases haz : a = [0]
    · rw [haz, pmodLoop_zero]
      exact remainder_zero c b
    refine .round a _ hlong haz ?_
    rw [pmodLoop_round hc ha haz hb hbz hlong, pmodRound_eq hc]
    rcases pnorm_round_shorter hc ha haz hb hbz with hzero | hshort
    · rw [hzero, pmodLoop_zero]
      exact remainder_zero c b
    · exact ih (pnorm_normalised _) (by omega)

theorem remainder_pmod {a b : Poly} (ha : Normalised a) (hb : Normalised b) (hbz : b ≠ [0]) :
    Remainder c b a (pmod c a b) :=
  remainder_pmodLoop hc hb hbz ha (Nat.lt_succ_self _)

end ValidTables

/-! ### The loop of `pgen` (41_polynomial.md R114) -/

/-- The loop's index counts through the numbers as integers, which are exponents. -/
theorem pgenLoop_eq_foldl (c : Config) (n : Nat) :
    pgenLoop c n = (List.range n).foldl (fun g (i : Nat) => pmul c g [1, gexp c i]) [1] := by
  rw [← List.foldl_map (f := fun i : Nat => (i : Int)) (g := fun g i => pmul c g [1, gexp c i]),
    ← List.flatMap_pure_eq_map]
  rfl

theorem pgenLoop_eq_pgen (c : Config) (n : Nat) : pgenLoop c n = pgen c n := by
  rw [pgenLoop_eq_foldl]
  induction n with
  | zero => rfl
  | succ n ih =>
    rw [List.range_succ, List.foldl_append, ih]
    rfl

end Sys2Proof.Machine
end

section
/-! PROOFS. The polynomial commands: the word of each command; what each command answers in each of its cases; and the
statements, by the facts about the loops and the bytes of the scratchpad. -/

namespace Sys2Proof.Machine

open Sys2Proof.Reference

/-! ### The words of the commands (30_encoding.md R71, R74) -/

theorem encodingOf_R2 {i : Instr} {op : BitVec 8} {a b : Fin 8} (hi : encode i = encR op a b 0 0)
    (hrow : ∀ w, opField w = op → ∃ j, decode w = ifMbz .R2 w j) : EncodingOf i op .R2 [a, b] :=
  encodingOf_of_row (by rw [hi, opField_encR]) (by rw [hi, encR2_mbz]) (by simp [hi]) hrow

theorem encodingOf_R3 {i : Instr} {op : BitVec 8} {a b c : Fin 8} (hi : encode i = encR op a b c 0)
    (hrow : ∀ w, opField w = op → ∃ j, decode w = ifMbz .R3 w j) : EncodingOf i op .R3 [a, b, c] :=
  encodingOf_of_row (by rw [hi, opField_encR]) (by rw [hi, encR3_mbz]) (by simp [hi]) hrow

theorem encodingOf_pld (pd : PReg) (ra rn : SReg) : EncodingOf (.pld pd ra rn) 0x20 .R3 [pd, ra, rn] :=
  encodingOf_R3 rfl fun w hw => ⟨.pld (aField w) (bField w) (cField w), by rw [decode, hw]; rfl⟩

theorem encodingOf_pst (ra : SReg) (ps : PReg) (rn : SReg) : EncodingOf (.pst ra ps rn) 0x21 .R3 [ra, ps, rn] :=
  encodingOf_R3 rfl fun w hw => ⟨.pst (aField w) (bField w) (cField w), by rw [decode, hw]; rfl⟩

theorem encodingOf_plen (rd : SReg) (ps : PReg) : EncodingOf (.plen rd ps) 0x22 .R2 [rd, ps] :=
  encodingOf_R2 rfl fun w hw => ⟨.plen (aField w) (bField w), by rw [decode, hw]; rfl⟩

theorem encodingOf_pmul (pd pa pb : PReg) : EncodingOf (.pmul pd pa pb) 0x23 .R3 [pd, pa, pb] :=
  encodingOf_R3 rfl fun w hw => ⟨.pmul (aField w) (bField w) (cField w), by rw [decode, hw]; rfl⟩

theorem encodingOf_pmod (pd pa pb : PReg) : EncodingOf (.pmod pd pa pb) 0x24 .R3 [pd, pa, pb] :=
  encodingOf_R3 rfl fun w hw => ⟨.pmod (aField w) (bField w) (cField w), by rw [decode, hw]; rfl⟩

theorem encodingOf_pshl (pd pa : PReg) (rn : SReg) : EncodingOf (.pshl pd pa rn) 0x25 .R3 [pd, pa, rn] :=
  encodingOf_R3 rfl fun w hw => ⟨.pshl (aField w) (bField w) (cField w), by rw [decode, hw]; rfl⟩

theorem encodingOf_pgen (pd : PReg) (rn : SReg) : EncodingOf (.pgen pd rn) 0x26 .R2 [pd, rn] :=
  encodingOf_R2 rfl fun w hw => ⟨.pgen (aField w) (bField w), by rw [decode, hw]; rfl⟩

/-! ### What the commands answer (41_polynomial.md R117 to R123) -/

/-- The `n` bytes that `PST` stores: zeros and then the polynomial. -/
def pstBytes (p : Poly) (n : Nat) : List Byte := List.replicate (n - p.length) 0 ++ p

theorem length_pstBytes {p : Poly} {n : Nat} (h : p.length ≤ n) : (pstBytes p n).length = n := by
  rw [pstBytes, List.length_append, List.length_replicate, Nat.sub_add_cancel h]

section Answers

variable {s : State} {rd ra rn : SReg} {pd pa pb ps : PReg}

theorem exec_pld_of_zero (h : s.num rn = 0) :
    exec (.pld pd ra rn) s = .next (s.latch .invalidArgument (encode (.pld pd ra rn))) := if_pos h

theorem exec_pld_of_gt (h : s.num rn > 256) :
    exec (.pld pd ra rn) s = .next (s.latch .lengthOverflow (encode (.pld pd ra rn))) := by
  simp only [exec, execPld, if_neg (Nat.ne_of_gt (Nat.zero_lt_of_lt h)), Config.pmax, if_pos h, raise_eq]

theorem exec_pld_of_not_in (hpos : 1 ≤ s.num rn) (hle : s.num rn ≤ 256) (h : ¬ inScratchpad (s.num ra) (s.num rn)) :
    exec (.pld pd ra rn) s = .next (s.latch .addressRange (encode (.pld pd ra rn))) := by
  simp only [exec, execPld, if_neg (Nat.ne_of_gt hpos), Config.pmax, if_neg (Nat.not_lt.2 hle), if_pos h, raise_eq]

theorem exec_pld_of_in (hpos : 1 ≤ s.num rn) (hle : s.num rn ≤ 256) (h : inScratchpad (s.num ra) (s.num rn)) :
    exec (.pld pd ra rn) s = .next (s.setPoly pd (pnorm (bytesFrom s (s.num ra) (s.num rn)))) := by
  simp only [exec, execPld, if_neg (Nat.ne_of_gt hpos), Config.pmax, if_neg (Nat.not_lt.2 hle), if_neg (not_not.2 h),
    loadBytes_of_in h, Memory.readBytes_eq_map]
  rfl

theorem exec_pst_of_longer (h : (s.poly ps).length > s.num rn) :
    exec (.pst ra ps rn) s = .next (s.latch .invalidArgument (encode (.pst ra ps rn))) := if_pos h

theorem exec_pst_of_not_in (hle : (s.poly ps).length ≤ s.num rn) (h : ¬ inScratchpad (s.num ra) (s.num rn)) :
    exec (.pst ra ps rn) s = .next (s.latch .addressRange (encode (.pst ra ps rn))) := by
  simp only [exec, execPst, if_neg (Nat.not_lt.2 hle), if_pos h, raise_eq]

theorem exec_pst_of_in (hle : (s.poly ps).length ≤ s.num rn) (h : inScratchpad (s.num ra) (s.num rn)) :
    exec (.pst ra ps rn) s = .next (s.setBytes (s.num ra) (pstBytes (s.poly ps) (s.num rn))) := by
  simp only [exec, execPst, if_neg (Nat.not_lt.2 hle), if_neg (not_not.2 h)]
  exact storeBytes_of_in ((length_pstBytes hle).symm ▸ h)

theorem exec_pmul_of_gt (h : (s.poly pa).length + (s.poly pb).length - 1 > 256) :
    exec (.pmul pd pa pb) s = .next (s.latch .lengthOverflow (encode (.pmul pd pa pb))) := if_pos h

theorem exec_pmul_of_le (h : (s.poly pa).length + (s.poly pb).length - 1 ≤ 256) :
    exec (.pmul pd pa pb) s = .next (s.setPoly pd (pmul s.config (s.poly pa) (s.poly pb))) := if_neg (Nat.not_lt.2 h)

theorem exec_pmod_of_zero (h : s.poly pb = [0]) :
    exec (.pmod pd pa pb) s = .next (s.latch .logOfZero (encode (.pmod pd pa pb))) := if_pos h

theorem exec_pmod_of_ne_zero (h : s.poly pb ≠ [0]) :
    exec (.pmod pd pa pb) s = .next (s.setPoly pd (pmod s.config (s.poly pa) (s.poly pb))) := if_neg h

theorem exec_pshl_of_gt (hz : s.poly pa ≠ [0]) (h : (s.poly pa).length + s.num rn > 256) :
    exec (.pshl pd pa rn) s = .next (s.latch .lengthOverflow (encode (.pshl pd pa rn))) := if_pos ⟨hz, h⟩

theorem exec_pshl_of_fits (h : s.poly pa ≠ [0] → (s.poly pa).length + s.num rn ≤ 256) :
    exec (.pshl pd pa rn) s = .next (s.setPoly pd (pshl (s.poly pa) (s.num rn))) :=
  if_neg fun hlong => Nat.not_lt.2 (h hlong.1) hlong.2

theorem exec_pgen_of_gt (h : s.num rn > 255) :
    exec (.pgen pd rn) s = .next (s.latch .lengthOverflow (encode (.pgen pd rn))) := if_pos (Nat.succ_lt_succ h)

theorem exec_pgen_of_le (h : s.num rn ≤ 255) :
    exec (.pgen pd rn) s = .next (s.setPoly pd (pgen s.config (s.num rn))) :=
  if_neg (Nat.not_lt.2 (Nat.succ_le_succ h))

end Answers

/-! ### The statements -/

/-- Settles O9: the bytes stored are the zeros and the polynomial, each at its own place. -/
theorem pstStoresRightAligned : Obligations.PstStoresRightAligned := by
  intro ra ps rn s hmem
  refine ⟨encodingOf_pst ra ps rn, fun h => latches_of_exec (exec_pst_of_longer h),
    fun hle h => latches_of_exec (exec_pst_of_not_in hle (Nat.not_le.2 h)),
    fun hle h => ⟨_, exec_pst_of_in hle h, rfl, fun k hk => ?_, fun k hk => ?_, ?_⟩⟩
  · rw [State.byteAt_setBytes hmem, length_pstBytes hle, if_pos (by omega), Nat.add_sub_cancel_left, pstBytes,
      List.getD_append _ _ _ _ (by rw [List.length_replicate]; exact hk)]
    simp
  · rw [State.byteAt_setBytes hmem, length_pstBytes hle, if_pos (by omega), Nat.add_assoc, Nat.add_sub_cancel_left,
      pstBytes, List.getD_append_right _ _ _ _ (by rw [List.length_replicate]; omega), List.length_replicate,
      Nat.add_sub_cancel_left]
  · have hout := sameBytesOutside_setBytes hmem (s.num ra) (pstBytes (s.poly ps) (s.num rn))
    rwa [length_pstBytes hle] at hout

/-- Settles O11: the two loops leave the convolution, which the machine computes row by row. -/
theorem pmulWritesTheLoopsProduct : Obligations.PmulWritesTheLoopsProduct := by
  intro pd pa pb s hc _ hb
  obtain ⟨⟨hbne, -⟩, -⟩ := hb
  refine ⟨encodingOf_pmul pd pa pb, fun h => latches_of_exec (exec_pmul_of_gt h), fun h => ?_⟩
  rw [exec_pmul_of_le h, pmul, pmulLoops_eq_convolve hc _ hbne]

/-- Settles O12: the machine's loop ends before its bound, so it is the rule's loop. -/
theorem pmodWritesTheLoopsRemainder : Obligations.PmodWritesTheLoopsRemainder := by
  intro pd pa pb s hc ha hb
  obtain ⟨ha, -⟩ := ha
  obtain ⟨hb, -⟩ := hb
  exact ⟨encodingOf_pmod pd pa pb, fun h => latches_of_exec (exec_pmod_of_zero h),
    fun h => ⟨_, remainder_pmod hc ha hb h, exec_pmod_of_ne_zero h⟩⟩

/-- Settles O14: each factor is monic of degree 1. -/
theorem pgenWritesTheGenerator : Obligations.PgenWritesTheGenerator := by
  intro pd rn s hc
  refine ⟨encodingOf_pgen pd rn, fun h => latches_of_exec (exec_pgen_of_gt h), fun h => ?_⟩
  obtain ⟨t, hgen, hlen⟩ := pgen_eq_one_cons hc (s.num rn)
  rw [pgenLoop_eq_pgen, hgen]
  exact ⟨hgen ▸ exec_pgen_of_le h, by rw [List.length_cons, hlen], rfl⟩

/-- Settles O8, by the rule's cases of the length and the address. -/
theorem pldLoadsNormalisedBytes : Obligations.PldLoadsNormalisedBytes := fun pd ra rn _ =>
  ⟨encodingOf_pld pd ra rn, fun h => latches_of_exec (exec_pld_of_zero h), fun h => latches_of_exec (exec_pld_of_gt h),
    fun hpos hle h => latches_of_exec (exec_pld_of_not_in hpos hle (Nat.not_le.2 h)), exec_pld_of_in⟩

/-- Settles O10: the length of a polynomial register fits a word. -/
theorem plenWritesTheLength : Obligations.PlenWritesTheLength := by
  intro rd ps s hp
  obtain ⟨⟨hne, -⟩, hle⟩ := hp
  have hpos := List.length_pos_of_ne_nil hne
  have hv : (wordOf (s.poly ps).length).toNat = (s.poly ps).length := by
    simp only [Config.pmax] at hle
    rw [wordOf, BitVec.toNat_ofNat, Nat.mod_eq_of_lt (by omega)]
  exact ⟨encodingOf_plen rd ps, _, hv, by rwa [hv], by rwa [hv], rfl⟩

/-- Settles O13: the zero polynomial is tested before the length. -/
theorem pshlAppendsZeros : Obligations.PshlAppendsZeros := by
  intro pd pa rn s
  refine ⟨encodingOf_pshl pd pa rn, fun hz h => latches_of_exec (exec_pshl_of_gt hz h), fun hz h => ?_, fun hz => ?_⟩
  · rw [exec_pshl_of_fits fun _ => h, pshl, if_neg hz]
  · rw [exec_pshl_of_fits fun hne => absurd hz hne, pshl, if_pos hz]

end Sys2Proof.Machine
end

section
/-! PROOFS. The frame of the polynomial and list commands: which of the shapes of an answer such a command can have, and what
the update of each shape leaves unchanged. -/

namespace Sys2Proof.Machine

open Sys2Proof.Reference

/-! ### The commands that write a polynomial register (10_state.md R29) -/

theorem storeRange_eq_none_of_polyDest {i : Instr} {pd : PReg} (s : State) (h : polyDest i = some pd) :
    storeRange s i = none := by
  cases i with
  | pld | pmul | pmod | pshl | pgen => rfl
  | _ => cases h

/-- Such a command has latched a fault or written its register. -/
theorem exec_poly_cases {i : Instr} {pd : PReg} {s t : State} (hpd : polyDest i = some pd) (h : exec i s = .next t) :
    (∃ c, t = s.latch c (encode i)) ∨ ∃ p, t = s.setPoly pd p := by
  have heffect := exec_effect i s
  generalize exec i s = answer at heffect h
  cases heffect with
  | latched c => cases h; exact .inl ⟨c, rfl⟩
  | poly pd' p hpd' _ =>
    cases h
    cases hpd.symm.trans hpd'
    exact .inr ⟨p, rfl⟩
  | scalar rd v hrd => rw [polyDest_eq_none_of_scalarDest hrd] at hpd; cases hpd
  | store a n bs hrange _ => rw [storeRange_eq_none_of_polyDest s hpd] at hrange; cases hrange
  | nothing hi => subst hi; cases hpd
  | reset hi => subst hi; cases hpd
  | version imm v hi _ => subst hi; cases hpd
  | blocks bd hi _ _ => rcases hi with rfl | ⟨_, _, _, rfl⟩ <;> cases hpd
  | bits bits hi _ => rcases hi with rfl | rfl | ⟨_, _, rfl⟩ | ⟨_, _, rfl⟩ <;> cases hpd

/-! ### The commands that write VERSION, the descriptor list or the bit buffer (10_state.md R31, R33, R35) -/

/-- The mnemonics of the commands that write VERSION, a list, or nothing. -/
def listMnemonics : List Mnemonic := [.nop, .setver, .bdclr, .bdadd, .bbclr, .bbput, .segadd, .frame]

theorem no_destination_of_listMnemonics {i : Instr} (h : i.mnemonic ∈ listMnemonics) :
    scalarDest i = none ∧ polyDest i = none ∧ (∀ s, storeRange s i = none) ∧ i ≠ .reset := by
  cases i with
  | nop | setver | bdclr | bdadd | bbclr | bbput | segadd | frame => exact ⟨rfl, rfl, fun _ => rfl, Instr.noConfusion⟩
  | _ => simp [Instr.mnemonic, listMnemonics] at h

/-- Such a command has latched a fault, or has put its own content in the place of what it writes. -/
theorem exec_list_cases {i : Instr} {s t : State} (hi : i.mnemonic ∈ listMnemonics) (h : exec i s = .next t) :
    (∃ c, t = s.latch c (encode i)) ∨
      ∃ v bd bits, t = ((s.setVersion v).setBd bd).setBb bits ∧ (i.mnemonic ≠ .setver → v = s.version) ∧
        (i.mnemonic ∉ [.bdclr, .bdadd] → bd = s.bd) ∧ (i.mnemonic ∉ [.bbclr, .bbput, .segadd, .frame] → bits = s.bb) := by
  obtain ⟨hscalar, hpoly, hstore, hreset⟩ := no_destination_of_listMnemonics hi
  have heffect := exec_effect i s
  generalize exec i s = answer at heffect h
  cases heffect with
  | latched c => cases h; exact .inl ⟨c, rfl⟩
  | nothing _ => cases h; exact .inr ⟨s.version, s.bd, s.bb, rfl, fun _ => rfl, fun _ => rfl, fun _ => rfl⟩
  | version imm v hsetver _ =>
    cases h
    exact .inr ⟨v, s.bd, s.bb, rfl, fun hne => absurd (hsetver ▸ rfl) hne, fun _ => rfl, fun _ => rfl⟩
  | blocks bd hblocks _ _ =>
    cases h
    refine .inr ⟨s.version, bd, s.bb, rfl, fun _ => rfl, fun hne => absurd ?_ hne, fun _ => rfl⟩
    rcases hblocks with rfl | ⟨_, _, _, rfl⟩ <;> simp [Instr.mnemonic]
  | bits bits hbits _ =>
    cases h
    refine .inr ⟨s.version, s.bd, bits, rfl, fun _ => rfl, fun _ => rfl, fun hne => absurd ?_ hne⟩
    rcases hbits with rfl | rfl | ⟨_, _, rfl⟩ | ⟨_, _, rfl⟩ <;> simp [Instr.mnemonic]
  | reset hi => exact absurd hi hreset
  | scalar rd v hrd => rw [hscalar] at hrd; cases hrd
  | poly pd p hpd _ => rw [hpoly] at hpd; cases hpd
  | store a n bs hrange _ => rw [hstore] at hrange; cases hrange

/-! ### The statement -/

/-- Settles O54: the command has latched a fault or written its own destination, and each update leaves the rest. -/
theorem polyAndListCommandFrame : Obligations.PolyAndListCommandFrame := by
  constructor
  · intro i pd s t hpd h
    rcases exec_poly_cases hpd h with ⟨c, rfl⟩ | ⟨p, rfl⟩
    · exact ⟨fun _ => rfl, fun _ _ => rfl, ⟨rfl, rfl, rfl⟩, fun _ => rfl, ⟨rfl, rfl, rfl⟩, .inr ⟨c, rfl⟩⟩
    · exact ⟨fun _ => rfl, fun _ hq => State.poly_setPoly_other s hq p, ⟨rfl, rfl, rfl⟩, fun _ => rfl, ⟨rfl, rfl, rfl⟩,
        .inl ⟨rfl, rfl, rfl⟩⟩
  · intro i s t hi h
    rcases exec_list_cases hi h with ⟨c, rfl⟩ | ⟨v, bd, bits, rfl, hversion, hbd, hbits⟩
    · exact ⟨fun _ => rfl, fun _ => rfl, fun _ => rfl, ⟨rfl, rfl, rfl⟩, .inr ⟨c, rfl⟩, fun _ => rfl, fun _ => rfl,
        fun _ => rfl⟩
    · exact ⟨fun _ => rfl, fun _ => rfl, fun _ => rfl, ⟨rfl, rfl, rfl⟩, .inl ⟨rfl, rfl, rfl⟩, hversion, hbd, hbits⟩

end Sys2Proof.Machine
end

section
/-! PROOFS. The lists behind the codeword commands: the bits a number appends and the bytes a bit list packs into, the shape
of a framed buffer, the split of the data over the blocks, the interleaving, and the codeword of a block. -/

namespace Sys2Proof.Machine

open Sys2Proof.Reference

/-! ### The bits of a number and the bytes of a bit list (00_scope.md R15, 42_rs_codewords.md R155) -/

theorem bitsOf_eq_bitsMsb (v k : Nat) : bitsOf v k = bitsMsb v k := by
  induction k with
  | zero => rfl
  | succ k ih =>
    rw [bitsOf, ih, bitsMsb, bitsMsb, List.range_succ_eq_map, List.map_cons, List.map_map]
    congr 1
    refine List.map_congr_left fun j _ => ?_
    rw [Function.comp_apply]
    congr 1
    omega

/-- Place `j` of a byte's bits is bit `7 - j` (20_memory.md R52). -/
theorem getD_byteBits (b : Byte) {j : Nat} (hj : j < 8) (d : Bool) : (byteBits b).getD j d = b.getLsbD (7 - j) := by
  rw [byteBits, bitsOf_eq_bitsMsb, bitsMsb, List.getD_eq_getElem _ _ (by simpa using hj), List.getElem_map,
    List.getElem_range, BitVec.testBit_toNat]

/-- The number whose `n` bits are the first `n` elements of the list, most significant first, as the loop of `byteOfBits`
collects it. -/
def bitsValue (bits : List Bool) (n : Nat) : Nat :=
  (List.range n).foldl (fun acc j => 2 * acc + (bits.getD j false).toNat) 0

theorem byteOfBits_eq (bits : List Bool) : byteOfBits bits = BitVec.ofNat 8 (bitsValue bits 8) := rfl

theorem bitsValue_succ (bits : List Bool) (n : Nat) :
    bitsValue bits (n + 1) = Nat.bit (bits.getD n false) (bitsValue bits n) := by
  rw [bitsValue, List.range_succ, List.foldl_append, Nat.bit_val]
  rfl

/-- Element `j` of the list is bit `n - 1 - j` of the number. -/
theorem testBit_bitsValue (bits : List Bool) {n j : Nat} (hj : j < n) :
    (bitsValue bits n).testBit (n - 1 - j) = bits.getD j false := by
  induction n with
  | zero => cases hj
  | succ n ih =>
    rw [bitsValue_succ]
    rcases Nat.lt_succ_iff_lt_or_eq.1 hj with hlt | rfl
    · have hplace : n + 1 - 1 - j = (n - 1 - j) + 1 := by omega
      rw [hplace, Nat.testBit_bit_succ, ih hlt]
    · rw [Nat.add_sub_cancel, Nat.sub_self, Nat.testBit_bit_zero]

theorem getLsbD_byteOfBits (bits : List Bool) {j : Nat} (hj : j < 8) :
    (byteOfBits bits).getLsbD (7 - j) = bits.getD j false := by
  rw [byteOfBits_eq, BitVec.getLsbD_ofNat, ← testBit_bitsValue bits hj]
  have hplace : 7 - j < 8 := by omega
  simp [hplace]

/-- Byte `i` of a packed bit list holds its bits `8 i` to `8 i + 7`. -/
theorem getD_packBits {n i : Nat} (hi : i < n) (bits : List Bool) :
    (packBits n bits).getD i 0 = byteOfBits ((bits.drop (8 * i)).take 8) := by
  induction n generalizing i bits with
  | zero => cases hi
  | succ n ih =>
    cases i with
    | zero => rfl
    | succ i =>
      rw [packBits, List.getD_cons_succ, ih (Nat.lt_of_succ_lt_succ hi), List.drop_drop, Nat.mul_succ, Nat.add_comm]

/-- Bit `8 i + j` of the list is bit `7 - j` of byte `i`, and 0 past the end of the list. -/
theorem getLsbD_packBits {n i j : Nat} (hi : i < n) (hj : j < 8) (bits : List Bool) :
    ((packBits n bits).getD i 0).getLsbD (7 - j) = bits.getD (8 * i + j) false := by
  rw [getD_packBits hi, getLsbD_byteOfBits _ hj, List.getD_eq_getElem?_getD, List.getElem?_take_of_lt hj,
    List.getElem?_drop, List.getD_eq_getElem?_getD]

/-! ### The framed buffer (42_rs_codewords.md R151) -/

theorem padStart_bounds {len T : Nat} (h : len ≤ 8 * T) : len ≤ padStart len T ∧ padStart len T ≤ 8 * T := by
  rw [padStart]
  split <;> omega

theorem padStart_eq_mul (len T : Nat) : 8 * (padStart len T / 8) = padStart len T := by
  rw [padStart, Nat.mul_div_cancel _ (by omega), Nat.mul_comm]

theorem withTerminator_eq (bits : List Bool) (T : Nat) :
    withTerminator bits T = bits ++ List.replicate (if 8 * T - bits.length ≥ 4 then 4 else 0) false := by
  rw [withTerminator]
  split
  · rfl
  · exact (List.append_nil bits).symm

/-- Steps 4 and 5 of `frame` add zero bits up to the place where the pad bytes begin. -/
theorem alignBits_withTerminator (bits : List Bool) (T : Nat) :
    alignBits (withTerminator bits T) = bits ++ List.replicate (padStart bits.length T - bits.length) false := by
  rw [alignBits, withTerminator_eq, List.append_assoc, List.replicate_append_replicate, List.length_append,
    List.length_replicate]
  congr 2
  rw [padStart]
  split <;> omega

theorem frame_eq {bits : List Bool} {T : Nat} (h : bits.length ≤ 8 * T) :
    frame bits T = bits ++ List.replicate (padStart bits.length T - bits.length) false ++
      padBits (T - padStart bits.length T / 8) true := by
  obtain ⟨hle, -⟩ := padStart_bounds h
  simp only [frame, alignBits_withTerminator, List.length_append, List.length_replicate, Nat.add_sub_cancel' hle]

/-- Pad byte `b` is PAD0 or PAD1 in turn. -/
theorem getD_padBits {k b j : Nat} (hb : b < k) (hj : j < 8) (even d : Bool) :
    (padBits k even).getD (8 * b + j) d =
      (if even = decide (b % 2 = 0) then Config.pad0 else Config.pad1).getLsbD (7 - j) := by
  induction b generalizing k even with
  | zero =>
    obtain ⟨k, rfl⟩ := Nat.exists_eq_add_one.2 hb
    rw [padBits, Nat.mul_zero, Nat.zero_add, List.getD_append _ _ _ _ (by rw [length_byteBits]; exact hj),
      getD_byteBits _ hj]
    simp
  | succ b ih =>
    obtain ⟨k, rfl⟩ := Nat.exists_eq_add_one.2 (Nat.zero_lt_of_lt hb)
    have hplace : 8 * (b + 1) + j - 8 = 8 * b + j := by omega
    have hparity : decide ((b + 1) % 2 = 0) = !decide (b % 2 = 0) := by
      rw [← decide_not, decide_eq_decide]
      omega
    rw [padBits, List.getD_append_right _ _ _ _ (by rw [length_byteBits]; omega), length_byteBits, hplace,
      ih (Nat.lt_of_succ_lt_succ hb), hparity]
    simp only [Bool.not_eq_eq_eq_not]

/-- The old bits stay. -/
theorem take_frame {bits : List Bool} {T : Nat} (h : bits.length ≤ 8 * T) : (frame bits T).take bits.length = bits := by
  rw [frame_eq h, List.append_assoc, List.take_left]

/-- Zeros follow up to the place where the pad bytes begin. -/
theorem getD_frame_zeros {bits : List Bool} {T k : Nat} (h : bits.length ≤ 8 * T) (hlow : bits.length ≤ k)
    (hhigh : k < padStart bits.length T) (d : Bool) : (frame bits T).getD k d = false := by
  have hzero : k - bits.length < padStart bits.length T - bits.length := by omega
  rw [frame_eq h, List.append_assoc, List.getD_append_right _ _ _ _ hlow,
    List.getD_append _ _ _ _ (by rwa [List.length_replicate]), List.getD_replicate _ hzero]

/-- The pad bytes stand at the end. -/
theorem getD_frame_pad {bits : List Bool} {T b j : Nat} (h : bits.length ≤ 8 * T) (hb : padStart bits.length T / 8 + b < T)
    (hj : j < 8) (d : Bool) :
    (frame bits T).getD (padStart bits.length T + 8 * b + j) d =
      (if b % 2 = 0 then Config.pad0 else Config.pad1).getLsbD (7 - j) := by
  obtain ⟨hle, -⟩ := padStart_bounds h
  have hlen : (bits ++ List.replicate (padStart bits.length T - bits.length) false).length = padStart bits.length T := by
    rw [List.length_append, List.length_replicate, Nat.add_sub_cancel' hle]
  rw [frame_eq h, List.getD_append_right _ _ _ _ (by omega), hlen, Nat.add_assoc, Nat.add_sub_cancel_left,
    getD_padBits (by omega) hj]
  simp

/-! ### The split over the blocks (42_rs_codewords.md R156) -/

theorem Memory.readBytes_add (m : Memory) (a k n : Nat) :
    m.readBytes a (k + n) = m.readBytes a k ++ m.readBytes (a + k) n := by
  induction k generalizing a with
  | zero => rw [Nat.zero_add, Nat.add_zero]; rfl
  | succ k ih =>
    rw [Nat.succ_add_eq_add_succ, Nat.add_succ, Memory.readBytes, ih, Memory.readBytes, Nat.add_right_comm]
    rfl

theorem bytesFrom_eq_readBytes (s : State) (a n : Nat) : bytesFrom s a n = s.mem.readBytes a n :=
  (Memory.readBytes_eq_map s.mem a n).symm

theorem map_blockAt_range (bd : List Block) : (List.range bd.length).map (blockAt bd) = bd :=
  List.ext_getElem (by simp) fun j _ hj => by simp [blockAt, hj]

/-- What is computed block by block, by the number of the block. -/
theorem zipWith_range_eq_map {α β : Type} (f : Block → α → β) (g : Nat → α) (bd : List Block) :
    List.zipWith f bd ((List.range bd.length).map g) = (List.range bd.length).map fun j => f (blockAt bd j) (g j) := by
  have h := List.zipWith_map (f := f) (g := blockAt bd) (h := g) (l₁ := List.range bd.length)
    (l₂ := List.range bd.length)
  rwa [map_blockAt_range, List.zipWith_self] at h

/-- Block `j` receives the bytes from its offset on. -/
theorem splitData_readBytes (m : Memory) {bd : List Block} {n : Nat} (h : (bd.map fun b => b.data.toNat).sum ≤ n)
    (a : Nat) : splitData bd (m.readBytes a n) =
      (List.range bd.length).map fun j => m.readBytes (a + blockOffset bd j) (blockAt bd j).data.toNat := by
  induction bd generalizing a n with
  | nil => rfl
  | cons b bd ih =>
    rw [List.map_cons, List.sum_cons] at h
    obtain ⟨n, rfl⟩ := Nat.exists_eq_add_of_le (Nat.le_of_add_right_le h)
    have hoffset (j : Nat) : a + b.data.toNat + blockOffset bd j = a + blockOffset (b :: bd) (j + 1) := by
      simp only [blockOffset, List.take_succ_cons, List.map_cons, List.sum_cons, Nat.add_assoc]
    rw [splitData, Memory.readBytes_add, List.take_left' (Memory.length_readBytes ..),
      List.drop_left' (Memory.length_readBytes ..), ih (Nat.le_of_add_le_add_left h), List.length_cons,
      List.range_succ_eq_map, List.map_cons, List.map_map]
    simp only [hoffset]
    rfl

theorem blocksFrom_eq_splitData (s : State) (src : Nat) :
    blocksFrom s src = splitData s.bd (s.mem.readBytes src s.tdc) := by
  simp only [blocksFrom, splitData_readBytes s.mem (Nat.le_refl s.tdc), bytesFrom_eq_readBytes, State.bdcnt]

theorem eccFrom_eq_eccData (s : State) (src : Nat) :
    eccFrom s src = eccData s.config s.bd (s.mem.readBytes src s.tdc) := by
  rw [eccData, splitData_readBytes s.mem (Nat.le_refl s.tdc), zipWith_range_eq_map]
  simp only [eccFrom, bytesFrom_eq_readBytes, State.bdcnt]

/-! ### Interleaving (42_rs_codewords.md R159) -/

/-- One round of the loops appends index `i` of every list that has one. -/
theorem interleave_round_eq (B : List (List Byte)) (i : Nat) (out : List Byte) :
    B.foldl (fun out b => if i < b.length then out ++ [b.getD i 0] else out) out = out ++ B.filterMap fun b => b[i]? := by
  induction B generalizing out with
  | nil => exact (List.append_nil out).symm
  | cons b B ih =>
    rw [List.foldl_cons, ih, List.filterMap_cons]
    by_cases hi : i < b.length <;> simp [hi]

theorem interleaveLoops_eq (B : List (List Byte)) : interleaveLoops B = interleave B := by
  simp only [interleaveLoops, interleave_round_eq, interleave, List.flatMap_eq_foldl]

/-- The rounds take every element of one list, in its order. -/
theorem flatMap_getElem?_range (b : List Byte) (m : Nat) : ((List.range m).flatMap fun i => b[i]?.toList) = b.take m := by
  induction m with
  | zero => rfl
  | succ m ih => rw [List.range_succ, List.flatMap_append, ih, List.flatMap_singleton, List.take_add_one]

/-- Enough rounds take every element of every list. -/
theorem interleave_rounds_perm {B : List (List Byte)} {m : Nat} (h : ∀ b ∈ B, b.length ≤ m) :
    ((List.range m).flatMap fun i => B.filterMap fun b => b[i]?).Perm B.flatten := by
  induction B with
  | nil => simp
  | cons b B ih =>
    obtain ⟨hb, hB⟩ := List.forall_mem_cons.1 h
    have hsplit (i : Nat) : (b :: B).filterMap (fun b => b[i]?) = b[i]?.toList ++ B.filterMap fun b => b[i]? := by
      cases hi : b[i]? <;> simp [hi]
    have hfirst := flatMap_getElem?_range b m
    rw [List.take_of_length_le hb] at hfirst
    simp only [hsplit, List.flatten_cons]
    refine (List.flatMap_append_perm ..).symm.trans ?_
    rw [hfirst]
    exact (ih hB).append_left b

theorem interleave_perm (B : List (List Byte)) : (interleave B).Perm B.flatten :=
  interleave_rounds_perm fun _ => length_le_maxLength

/-- The stream that `CWGEN` stores is the one the rule's loops make of the bytes in the scratchpad. -/
theorem codewordStream_eq_loops (s : State) (src : Nat) :
    codewordStream s.config s.bd (s.mem.readBytes src s.tdc) =
      interleaveLoops (blocksFrom s src) ++ interleaveLoops (eccFrom s src) := by
  rw [codewordStream, interleaveLoops_eq, interleaveLoops_eq, blocksFrom_eq_splitData, eccFrom_eq_eccData]

/-- The data part of the stream is the data in another order. -/
theorem take_codewordStream_perm (c : Config) {bd : List Block} {data : List Byte}
    (h : data.length = (bd.map fun b => b.data.toNat).sum) :
    ((codewordStream c bd data).take data.length).Perm data := by
  have hperm := interleave_perm (splitData bd data)
  rw [splitData_flatten _ _ h] at hperm
  rwa [codewordStream, List.take_left' hperm.length_eq]

/-! ### The codeword of a block (42_rs_codewords.md R158) -/

theorem coeff_append (p r : Poly) (k : Nat) : coeff (p ++ r) k = timesX r.length (coeff p) k ^^^ coeff r k := by
  induction p with
  | nil => simp [timesX, coeff]
  | cons x p ih =>
    rw [List.cons_append, coeff, ih, timesX, timesX, coeff, List.length_append]
    by_cases hr : r.length ≤ k
    · have htop : k = p.length + r.length ↔ k - r.length = p.length := by omega
      simp only [hr, if_true, htop, coeff_of_length_le hr]
      split <;> simp
    · have hlow : k ≠ p.length + r.length := by omega
      simp only [hr, if_false, hlow]

theorem coeff_pshl (p : Poly) (n k : Nat) : coeff (pshl p n) k = timesX n (coeff p) k := by
  rw [pshl]
  split
  · rename_i hzero
    have hcoeff (i : Nat) : coeff [0] i = 0 := coeff_zero_cons [] i
    simp only [hzero, timesX, hcoeff, ite_self]
  · exact coeff_append_zeros p n k

/-- The codewords are the remainder of the shifted data (42_rs_codewords.md R158). -/
theorem coeff_rsecc (c : Config) (D : List Byte) (e k : Nat) :
    coeff (rsecc c D e) k = coeff (pmod c (pshl (pnorm D) e) (pgen c e)) k := coeff_zeros_append ..

section ValidTables

variable {c : Config} (hc : ValidConfig c)
include hc

theorem pgen_ne_zero (e : Nat) : pgen c e ≠ [0] := by
  obtain ⟨t, hgen, -⟩ := pgen_eq_one_cons hc e
  simp [hgen]

/-- The remainder that `rsecc` pads fits its `e` bytes. -/
theorem length_pmod_pgen_le (D : List Byte) {e : Nat} (he : 1 ≤ e) :
    (pmod c (pshl (pnorm D) e) (pgen c e)).length ≤ e := by
  have hlen := length_rsecc hc D he
  simp only [rsecc, List.length_append, List.length_replicate] at hlen
  omega

/-- The shifted data plus their remainder are a multiple of the generator: the remainder is added to itself. -/
theorem exists_quotient_codeword (D : List Byte) {e : Nat} (he : 1 ≤ e) :
    ∃ q, ∀ k, coeff (D ++ rsecc c D e) k = mulCoeff c q (coeff (pgen c e)) k := by
  obtain ⟨q, hq⟩ := exists_quotient_pmod hc (pshl_normalised (pnorm_normalised D) e) (pgen_normalised c e)
    (pgen_ne_zero hc e)
  have hpnorm : coeff (pnorm D) = coeff D := funext (coeff_pnorm D)
  refine ⟨q, fun k => ?_⟩
  rw [coeff_append, length_rsecc hc D he, coeff_rsecc, ← hpnorm, ← coeff_pshl, hq, BitVec.xor_assoc, BitVec.xor_self,
    BitVec.xor_zero]

end ValidTables

/-! ### The statements -/

/-- Settles O47: the data shifted by `e`, with their remainder added, are a multiple of the generator. -/
theorem codewordsAreMultiplesOfTheGenerator : Obligations.CodewordsAreMultiplesOfTheGenerator := by
  intro c D e hc _ he
  obtain ⟨q, hq⟩ := exists_quotient_codeword hc D he
  refine ⟨length_rsecc hc D he, ?_⟩
  exact pmod_eq_zero_of_coeff_eq_mulCoeff hc (pnorm_normalised _) (pgen_normalised c e) (pgen_ne_zero hc e) (q := q)
    fun k => (coeff_pnorm _ k).trans (hq k)

/-- Settles O49: interleaving the blocks permutes their elements, and the blocks together are the data. -/
theorem streamIsDataThenEcc : Obligations.StreamIsDataThenEcc := fun c _ _ hc hbd hdata =>
  ⟨length_codewordStream hc hbd (Nat.le_of_eq hdata.symm), take_codewordStream_perm c hdata⟩

end Sys2Proof.Machine
end

section
/-! PROOFS. The codeword commands: the word of each command; what each command answers in each of its cases; and the
statements, by the facts about the lists and the bytes of the scratchpad. -/

namespace Sys2Proof.Machine

open Sys2Proof.Reference

/-! ### The words of the commands (30_encoding.md R71, R74) -/

theorem encodingOf_bdadd (count total data : Byte) : EncodingOf (.bdadd count total data) 0x31 .B [] :=
  encodingOf_of_row (opField_encB ..) (encB_mbz ..) rfl fun w hw =>
    ⟨.bdadd (countField w) (totalField w) (dataField w), by rw [decode, hw]; rfl⟩

theorem encodingOf_bbput (rv rn : SReg) : EncodingOf (.bbput rv rn) 0x33 .R2 [rv, rn] :=
  encodingOf_R2 rfl fun w hw => ⟨.bbput (aField w) (bField w), by rw [decode, hw]; rfl⟩

theorem encodingOf_segadd (ra rn : SReg) : EncodingOf (.segadd ra rn) 0x34 .R2 [ra, rn] :=
  encodingOf_R2 rfl fun w hw => ⟨.segadd (aField w) (bField w), by rw [decode, hw]; rfl⟩

theorem encodingOf_frame : EncodingOf .frame 0x35 .Z [] :=
  encodingOf_of_row (opField_encR ..) (encZ_mbz ..) rfl fun w hw => ⟨.frame, by rw [decode, hw]; rfl⟩

theorem encodingOf_bbst (ra : SReg) : EncodingOf (.bbst ra) 0x36 .R1 [ra] :=
  encodingOf_of_row (opField_encR ..) (encR1_mbz ..) (by simp [encode]) fun w hw =>
    ⟨.bbst (aField w), by rw [decode, hw]; rfl⟩

theorem encodingOf_rsecc (rdst rsrc rk re : SReg) : EncodingOf (.rsecc rdst rsrc rk re) 0x37 .R4 [rdst, rsrc, rk, re] :=
  encodingOf_of_row (opField_encR ..) (encR4_mbz ..) (by simp [encode]) fun w hw =>
    ⟨.rsecc (aField w) (bField w) (cField w) (dField w), by rw [decode, hw]; rfl⟩

theorem encodingOf_cwgen (rdst rsrc : SReg) : EncodingOf (.cwgen rdst rsrc) 0x38 .R2 [rdst, rsrc] :=
  encodingOf_R2 rfl fun w hw => ⟨.cwgen (aField w) (bField w), by rw [decode, hw]; rfl⟩

/-! ### The bytes of a range (20_memory.md R51) -/

/-- A stored list of `n` bytes reads back. -/
theorem bytesFrom_setBytes {s : State} (hs : s.mem.wf) (a : Nat) {bs : List Byte} {n : Nat} (hlen : bs.length = n) :
    bytesFrom (s.setBytes a bs) a n = bs := by
  rw [← hlen, bytesFrom_eq_readBytes, State.setBytes_mem, Memory.readBytes_writeBytes hs.1]

/-- A stored list of `n` bytes leaves every byte outside those. -/
theorem sameBytesOutside_setBytes_of_length {s : State} (hs : s.mem.wf) (a : Nat) {bs : List Byte} {n : Nat}
    (hlen : bs.length = n) : SameBytesOutside a n s (s.setBytes a bs) := hlen ▸ sameBytesOutside_setBytes hs a bs

/-- Each element of a stored list reads back. -/
theorem State.byteAt_setBytes_add {s : State} (hs : s.mem.wf) (a : Nat) {bs : List Byte} {k : Nat} (hk : k < bs.length) :
    (s.setBytes a bs).byteAt (a + k) = bs.getD k 0 := by
  rw [State.byteAt_setBytes hs, if_pos (by omega), Nat.add_sub_cancel_left]

/-- Ranges with the same bytes are the same lists. -/
theorem Memory.readBytes_congr {m m' : Memory} {a a' n : Nat} (h : ∀ k < n, m'.read (a' + k) = m.read (a + k)) :
    m'.readBytes a' n = m.readBytes a n := by
  rw [Memory.readBytes_eq_map, Memory.readBytes_eq_map]
  exact List.map_congr_left fun k hk => h k (List.mem_range.1 hk)

/-! ### What the commands answer (42_rs_codewords.md R143 to R165) -/

section Bdadd

variable {s : State} {count total data : Byte}

theorem exec_bdadd_of_illegal (h : count.toNat = 0 ∨ data.toNat = 0 ∨ data.toNat ≥ total.toNat) :
    exec (.bdadd count total data) s = .next (s.latch .invalidArgument (encode (.bdadd count total data))) := by
  simp only [exec, execBdadd, raise_eq]
  split
  · rfl
  · split
    · rfl
    · rw [if_pos (by omega)]

variable (hcount : 1 ≤ count.toNat) (hdata : 1 ≤ data.toNat) (htotal : data.toNat < total.toNat)
include hcount hdata htotal

theorem exec_bdadd_of_full (h : s.bd.length + count.toNat > 128) :
    exec (.bdadd count total data) s = .next (s.latch .lengthOverflow (encode (.bdadd count total data))) := by
  simp only [exec, execBdadd, if_neg (Nat.ne_of_gt hcount), if_neg (Nat.ne_of_gt hdata), if_neg (Nat.not_le.2 htotal),
    raise_eq]
  exact if_pos h

theorem exec_bdadd_of_fits (h : s.bd.length + count.toNat ≤ 128) :
    exec (.bdadd count total data) s = .next (s.setBd (s.bd ++ List.replicate count.toNat ⟨total, data⟩)) := by
  simp only [exec, execBdadd, if_neg (Nat.ne_of_gt hcount), if_neg (Nat.ne_of_gt hdata), if_neg (Nat.not_le.2 htotal)]
  exact if_neg (Nat.not_lt.2 h)

end Bdadd

/-- A value has no bit from place `n` on exactly if it is below `2 ^ n`. -/
theorem shiftRight_ne_zero_iff (v n : Nat) : v >>> n ≠ 0 ↔ v ≥ 2 ^ n := by
  rw [Nat.shiftRight_eq_div_pow, Nat.div_ne_zero_iff]
  exact and_iff_right (Nat.pow_pos Nat.two_pos).ne'

section Bbput

variable {s : State} {rv rn : SReg}

theorem exec_bbput_of_wide (h : s.num rn > 32) :
    exec (.bbput rv rn) s = .next (s.latch .invalidArgument (encode (.bbput rv rn))) := if_pos h

theorem exec_bbput_of_large (hn : s.num rn ≤ 32) (h : s.num rv ≥ 2 ^ s.num rn) :
    exec (.bbput rv rn) s = .next (s.latch .invalidArgument (encode (.bbput rv rn))) := by
  simp only [exec, execBbput, if_neg (Nat.not_lt.2 hn), if_pos ((shiftRight_ne_zero_iff ..).2 h), raise_eq]

variable (hn : s.num rn ≤ 32) (hv : s.num rv < 2 ^ s.num rn)
include hn hv

theorem exec_bbput_of_full (h : s.bb.length + s.num rn > 32768) :
    exec (.bbput rv rn) s = .next (s.latch .lengthOverflow (encode (.bbput rv rn))) := by
  simp only [exec, execBbput, if_neg (Nat.not_lt.2 hn), shiftRight_ne_zero_iff, if_neg (Nat.not_le.2 hv), Config.bbmax,
    if_pos h, raise_eq]

theorem exec_bbput_of_fits (h : s.bb.length + s.num rn ≤ 32768) :
    exec (.bbput rv rn) s = .next (s.setBb (s.bb ++ bitsMsb (s.num rv) (s.num rn))) := by
  simp only [exec, execBbput, if_neg (Nat.not_lt.2 hn), shiftRight_ne_zero_iff, if_neg (Nat.not_le.2 hv), Config.bbmax,
    if_neg (Nat.not_lt.2 h), bitsOf_eq_bitsMsb]

end Bbput

section Segadd

variable {s : State} {ra rn : SReg}

theorem exec_segadd_of_no_version (h : s.version = 0) :
    exec (.segadd ra rn) s = .next (s.latch .invalidArgument (encode (.segadd ra rn))) :=
  if_pos (congrArg BitVec.toNat h)

variable (hversion : s.version.toNat ≠ 0)
include hversion

theorem exec_segadd_of_long (h : s.num rn ≥ 2 ^ lengthFieldWidth s.version) :
    exec (.segadd ra rn) s = .next (s.latch .invalidArgument (encode (.segadd ra rn))) := by
  simp only [exec, execSegadd, if_neg hversion, if_pos h, raise_eq]

variable (hn : s.num rn < 2 ^ lengthFieldWidth s.version)
include hn

theorem exec_segadd_of_full (h : s.bb.length + 4 + lengthFieldWidth s.version + 8 * s.num rn > 32768) :
    exec (.segadd ra rn) s = .next (s.latch .lengthOverflow (encode (.segadd ra rn))) := by
  simp only [exec, execSegadd, if_neg hversion, if_neg (Nat.not_le.2 hn), Config.bbmax, if_pos h, raise_eq]

variable (hfits : s.bb.length + 4 + lengthFieldWidth s.version + 8 * s.num rn ≤ 32768)
include hfits

theorem exec_segadd_of_not_in (h : ¬ inScratchpad (s.num ra) (s.num rn)) :
    exec (.segadd ra rn) s = .next (s.latch .addressRange (encode (.segadd ra rn))) := by
  simp only [exec, execSegadd, if_neg hversion, if_neg (Nat.not_le.2 hn), Config.bbmax, if_neg (Nat.not_lt.2 hfits),
    if_pos h, raise_eq]

theorem exec_segadd_of_in (h : inScratchpad (s.num ra) (s.num rn)) :
    exec (.segadd ra rn) s = .next (s.setBb (s.bb ++
      segmentBits s.config (lengthFieldWidth s.version) (bytesFrom s (s.num ra) (s.num rn)))) := by
  simp only [exec, execSegadd, if_neg hversion, if_neg (Nat.not_le.2 hn), Config.bbmax, if_neg (Nat.not_lt.2 hfits),
    if_neg (not_not.2 h), loadBytes_of_in h, bytesFrom_eq_readBytes]

end Segadd

/-- The bits of a segment in the order of 42_rs_codewords.md R146. -/
theorem segmentBits_eq (c : Config) (w : Nat) (bs : List Byte) :
    segmentBits c w bs = bitsMsb c.modeByte.toNat 4 ++ bitsMsb bs.length w ++ bs.flatMap fun b => bitsMsb b.toNat 8 := by
  have hbyte : byteBits = fun b => bitsMsb b.toNat 8 := funext fun b => bitsOf_eq_bitsMsb b.toNat 8
  rw [segmentBits, bitsOf_eq_bitsMsb, bitsOf_eq_bitsMsb, hbyte]

section Frame

variable {s : State}

theorem exec_frame_of_no_blocks (h : s.bdcnt = 0) :
    exec .frame s = .next (s.latch .invalidArgument (encode .frame)) := if_pos h

variable (hbd : s.bdcnt ≠ 0)
include hbd

theorem exec_frame_of_large (h : 8 * s.tdc > 32768) :
    exec .frame s = .next (s.latch .lengthOverflow (encode .frame)) := by
  simp only [exec, execFrame, if_neg hbd, Config.bbmax, if_pos h, raise_eq]

variable (htdc : 8 * s.tdc ≤ 32768)
include htdc

theorem exec_frame_of_exceeds (h : s.bb.length > 8 * s.tdc) :
    exec .frame s = .next (s.latch .capacityExceeded (encode .frame)) := by
  simp only [exec, execFrame, if_neg hbd, Config.bbmax, if_neg (Nat.not_lt.2 htdc), if_pos h, raise_eq]

theorem exec_frame_of_fits (h : s.bb.length ≤ 8 * s.tdc) : exec .frame s = .next (s.setBb (frame s.bb s.tdc)) := by
  simp only [exec, execFrame, if_neg hbd, Config.bbmax, if_neg (Nat.not_lt.2 htdc), if_neg (Nat.not_lt.2 h)]

end Frame

/-- Where a condition of `FRAME` fails, it latches a fault. -/
theorem exec_frame_latches {s : State} (h : ¬ (1 ≤ s.bdcnt ∧ 8 * s.tdc ≤ 32768 ∧ s.bb.length ≤ 8 * s.tdc)) :
    ∃ c, exec .frame s = .next (s.latch c (encode .frame)) := by
  by_cases hbd : s.bdcnt = 0
  · exact ⟨_, exec_frame_of_no_blocks hbd⟩
  by_cases htdc : 8 * s.tdc ≤ 32768
  · exact ⟨_, exec_frame_of_exceeds hbd htdc (by omega)⟩
  · exact ⟨_, exec_frame_of_large hbd (Nat.not_le.1 htdc)⟩

section Bbst

variable {s : State} {ra : SReg}

theorem exec_bbst_of_not_in (h : ¬ inScratchpad (s.num ra) ((s.bb.length + 7) / 8)) :
    exec (.bbst ra) s = .next (s.latch .addressRange (encode (.bbst ra))) := if_pos h

theorem exec_bbst_of_in (h : inScratchpad (s.num ra) ((s.bb.length + 7) / 8)) :
    exec (.bbst ra) s = .next (s.setBytes (s.num ra) (packBits ((s.bb.length + 7) / 8) s.bb)) := by
  simp only [exec, execBbst, if_neg (not_not.2 h)]
  exact storeBytes_of_in ((length_packBits ..).symm ▸ h)

end Bbst

section Rsecc

variable {s : State} {rdst rsrc rk re : SReg}

theorem exec_rsecc_of_illegal (h : s.num rk = 0 ∨ s.num re = 0 ∨ s.num rk + s.num re > 255) :
    exec (.rsecc rdst rsrc rk re) s = .next (s.latch .invalidArgument (encode (.rsecc rdst rsrc rk re))) := by
  simp only [exec, execRsecc, raise_eq]
  split
  · rfl
  · split
    · rfl
    · rw [if_pos (by omega)]

variable (hk : 1 ≤ s.num rk) (he : 1 ≤ s.num re) (hsum : s.num rk + s.num re ≤ 255)
include hk he hsum

theorem exec_rsecc_of_not_in (h : ¬ inScratchpad (s.num rsrc) (s.num rk) ∨ ¬ inScratchpad (s.num rdst) (s.num re)) :
    exec (.rsecc rdst rsrc rk re) s = .next (s.latch .addressRange (encode (.rsecc rdst rsrc rk re))) := by
  simp only [exec, execRsecc, if_neg (Nat.ne_of_gt hk), if_neg (Nat.ne_of_gt he), if_neg (Nat.not_lt.2 hsum), raise_eq]
  split
  · rfl
  · rename_i hsrc
    rw [if_pos (h.resolve_left hsrc)]

theorem exec_rsecc_of_in (hc : ValidConfig s.config) (hsrc : inScratchpad (s.num rsrc) (s.num rk))
    (hdst : inScratchpad (s.num rdst) (s.num re)) :
    exec (.rsecc rdst rsrc rk re) s =
      .next (s.setBytes (s.num rdst) (rsecc s.config (bytesFrom s (s.num rsrc) (s.num rk)) (s.num re))) := by
  simp only [exec, execRsecc, if_neg (Nat.ne_of_gt hk), if_neg (Nat.ne_of_gt he), if_neg (Nat.not_lt.2 hsum),
    if_neg (not_not.2 hsrc), if_neg (not_not.2 hdst), loadBytes_of_in hsrc, bytesFrom_eq_readBytes]
  exact storeBytes_of_in ((length_rsecc hc _ he).symm ▸ hdst)

end Rsecc

section Cwgen

variable {s : State} {rdst rsrc : SReg}

theorem exec_cwgen_of_no_blocks (h : s.bdcnt = 0) :
    exec (.cwgen rdst rsrc) s = .next (s.latch .invalidArgument (encode (.cwgen rdst rsrc))) := if_pos h

variable (hbd : s.bdcnt ≠ 0)
include hbd

theorem exec_cwgen_of_not_in (h : ¬ inScratchpad (s.num rsrc) s.tdc ∨ ¬ inScratchpad (s.num rdst) s.tcw) :
    exec (.cwgen rdst rsrc) s = .next (s.latch .addressRange (encode (.cwgen rdst rsrc))) := by
  simp only [exec, execCwgen, if_neg hbd, raise_eq]
  split
  · rfl
  · rename_i hsrc
    rw [if_pos (h.resolve_left hsrc)]

theorem exec_cwgen_of_in (hsrc : inScratchpad (s.num rsrc) s.tdc) (hdst : inScratchpad (s.num rdst) s.tcw)
    (hlen : (codewordStream s.config s.bd (s.mem.readBytes (s.num rsrc) s.tdc)).length = s.tcw) :
    exec (.cwgen rdst rsrc) s =
      .next (s.setBytes (s.num rdst) (codewordStream s.config s.bd (s.mem.readBytes (s.num rsrc) s.tdc))) := by
  simp only [exec, execCwgen, if_neg hbd, if_neg (not_not.2 hsrc), if_neg (not_not.2 hdst), loadBytes_of_in hsrc]
  exact storeBytes_of_in (hlen.symm ▸ hdst)

end Cwgen

/-- The stream of legal blocks has TCW bytes (42_rs_codewords.md R166). -/
theorem length_codewordStream_readBytes {s : State} (hc : ValidConfig s.config) (hbd : ∀ b ∈ s.bd, LegalBlock b)
    (a : Nat) : (codewordStream s.config s.bd (s.mem.readBytes a s.tdc)).length = s.tcw :=
  length_codewordStream hc hbd (Nat.le_of_eq (Memory.length_readBytes ..).symm)

/-! ### The statements -/

/-- Settles O21: the stream fills the destination's range, and reads back as the rule's two interleavings. -/
theorem cwgenStoresTheStream : Obligations.CwgenStoresTheStream := by
  intro rdst rsrc s hc hmem hlegal
  have hlen := length_codewordStream_readBytes hc hlegal (s.num rsrc)
  refine ⟨encodingOf_cwgen rdst rsrc, fun h => latches_of_exec (exec_cwgen_of_no_blocks h),
    fun hbd h => latches_of_exec (exec_cwgen_of_not_in hbd (h.imp Nat.not_le.2 Nat.not_le.2)),
    fun hbd hsrc hdst => ⟨_, exec_cwgen_of_in hbd hsrc hdst hlen, rfl, ?_,
      sameBytesOutside_setBytes_of_length hmem _ hlen⟩⟩
  rw [bytesFrom_setBytes hmem _ hlen, codewordStream_eq_loops]

/-- Settles O20: the remainder is no longer than its `e` bytes, and the padded list reads back. -/
theorem rseccStoresTheRemainder : Obligations.RseccStoresTheRemainder := by
  intro rdst rsrc rk re s hc hmem
  refine ⟨encodingOf_rsecc rdst rsrc rk re, fun h => latches_of_exec (exec_rsecc_of_illegal h),
    fun hk he hsum h => latches_of_exec (exec_rsecc_of_not_in hk he hsum (h.imp Nat.not_le.2 Nat.not_le.2)),
    fun hk he hsum hsrc hdst => ?_⟩
  have hlen := length_rsecc hc (bytesFrom s (s.num rsrc) (s.num rk)) he
  refine ⟨_, _, remainder_pmod hc (pshl_normalised (pnorm_normalised _) _) (pgen_normalised ..) (pgen_ne_zero hc _),
    length_pmod_pgen_le hc _ he, exec_rsecc_of_in hk he hsum hc hsrc hdst, rfl,
    bytesFrom_setBytes hmem _ hlen, sameBytesOutside_setBytes_of_length hmem _ hlen⟩

/-- Settles O50: the bytes stored are a function of the tables, the descriptors and the source bytes. -/
theorem streamDependsOnItsInputsAlone : Obligations.StreamDependsOnItsInputsAlone := by
  intro rdst rsrc rdst' rsrc' s s' hc hlegal hmem hmem' hexp hlog hbd hne hsrc hdst hsrc' hdst' hbytes
  have htdc : s'.tdc = s.tdc := by rw [State.tdc, hbd, State.tdc]
  have htcw : s'.tcw = s.tcw := by rw [State.tcw, hbd, State.tcw]
  have hne' : s'.bdcnt ≠ 0 := by rwa [State.bdcnt, hbd]
  have hlen := length_codewordStream_readBytes hc hlegal (s.num rsrc)
  have hstream : codewordStream s'.config s'.bd (s'.mem.readBytes (s'.num rsrc') s'.tdc) =
      codewordStream s.config s.bd (s.mem.readBytes (s.num rsrc) s.tdc) := by
    rw [codewordStream_congr hexp hlog, hbd, htdc, Memory.readBytes_congr hbytes]
  have hlen' : (codewordStream s'.config s'.bd (s'.mem.readBytes (s'.num rsrc') s'.tdc)).length = s'.tcw := by
    rw [hstream, hlen, htcw]
  refine ⟨_, _, exec_cwgen_of_in hne hsrc hdst hlen,
    exec_cwgen_of_in hne' (htdc.symm ▸ hsrc') (htcw.symm ▸ hdst') hlen', fun k hk => ?_⟩
  rw [State.byteAt_setBytes_add hmem' _ (by omega), State.byteAt_setBytes_add hmem _ (by omega), hstream]

/-- Settles O17: the segment's bits are written most significant first. -/
theorem segaddAppendsASegment : Obligations.SegaddAppendsASegment := by
  intro ra rn s w hw
  obtain rfl : w = lengthFieldWidth s.version := hw
  have hpos (h : s.version ≠ 0) : s.version.toNat ≠ 0 := fun hzero => h (BitVec.eq_of_toNat_eq hzero)
  refine ⟨encodingOf_segadd ra rn, fun h => latches_of_exec (exec_segadd_of_no_version h),
    fun hv h => latches_of_exec (exec_segadd_of_long (hpos hv) h),
    fun hv hn h => latches_of_exec (exec_segadd_of_full (hpos hv) hn h),
    fun hv hn hfits h => latches_of_exec (exec_segadd_of_not_in (hpos hv) hn hfits (Nat.not_le.2 h)),
    fun hv hn hfits h => ?_⟩
  have hlen : (bytesFrom s (s.num ra) (s.num rn)).length = s.num rn := by simp [bytesFrom]
  rw [exec_segadd_of_in (hpos hv) hn hfits h, segmentBits_eq, hlen, State.setBb]
  simp only [List.append_assoc]

/-- Settles O18: the framed buffer is the old bits, zero bits up to a whole byte, and the pad bytes. -/
theorem framePadsToCapacity : Obligations.FramePadsToCapacity := fun _ =>
  ⟨encodingOf_frame, fun h => latches_of_exec (exec_frame_of_no_blocks h),
    fun hbd h => latches_of_exec (exec_frame_of_large hbd h),
    fun hbd htdc h => latches_of_exec (exec_frame_of_exceeds hbd htdc h),
    fun hbd htdc h => ⟨_, exec_frame_of_fits hbd htdc h, length_frame h, take_frame h,
      fun _ hlow hhigh => getD_frame_zeros h hlow hhigh true, fun _ _ hb hj => getD_frame_pad h hb hj false⟩⟩

/-- Settles O19: the bytes stored are the packed bits, each at its own place. -/
theorem bbstStoresTheBits : Obligations.BbstStoresTheBits := by
  intro ra s nb hmem hnb
  subst hnb
  refine ⟨encodingOf_bbst ra, fun h => latches_of_exec (exec_bbst_of_not_in (Nat.not_le.2 h)),
    fun h => ⟨_, exec_bbst_of_in h, rfl, fun i hi j hj => ?_,
      sameBytesOutside_setBytes_of_length hmem _ (length_packBits ..)⟩⟩
  rw [State.byteAt_setBytes_add hmem _ (by rwa [length_packBits]), getLsbD_packBits hi hj]

/-- Settles O15, by the rule's cases of the operands and the length of the list. -/
theorem bdaddAppendsDescriptors : Obligations.BdaddAppendsDescriptors := fun count total data _ =>
  ⟨encodingOf_bdadd count total data, ⟨countField_encB .., totalField_encB .., dataField_encB ..⟩,
    fun h => latches_of_exec (exec_bdadd_of_illegal h),
    fun hcount hdata htotal h => latches_of_exec (exec_bdadd_of_full hcount hdata htotal h), exec_bdadd_of_fits⟩

/-- Settles O16: a value that fits `n` bits has no bit from place `n` on, and its bits are appended most significant
first. -/
theorem bbputAppendsBits : Obligations.BbputAppendsBits := fun rv rn _ =>
  ⟨encodingOf_bbput rv rn, fun h => latches_of_exec (exec_bbput_of_wide h),
    fun hn h => latches_of_exec (exec_bbput_of_large hn h), fun hn hv h => latches_of_exec (exec_bbput_of_full hn hv h),
    exec_bbput_of_fits⟩

/-- Settles O48: where a condition fails a fault is latched, and otherwise the latch stays clear. -/
theorem frameSucceedsExactlyWithinCapacity : Obligations.FrameSucceedsExactlyWithinCapacity := by
  intro s herr
  constructor
  · rintro ⟨t, ht, hclear⟩
    by_contra hfail
    obtain ⟨c, hlatch⟩ := exec_frame_latches hfail
    cases ht.symm.trans hlatch
    cases hclear
  · rintro ⟨hbd, htdc, hbb⟩
    exact ⟨_, exec_frame_of_fits (Nat.ne_of_gt hbd) htdc hbb, herr⟩

end Sys2Proof.Machine
end

section
/-! PROOFS. The BCH encoder: a number is read as a polynomial over GF(2), so a product by `clmulNat` is additive in its first
factor and a nonzero multiple of the generator is not shorter than the generator; each round of `bchrem` adds a multiple and
cancels the top bit; so the result is the remainder, and a payload followed by its remainder is a multiple. -/

namespace Sys2Proof.Machine

open Sys2Proof.Reference

/-! ### The number of bits (00_scope.md R12) -/

theorem bitlen_le_iff {v n : Nat} : bitlen v ≤ n ↔ v < 2 ^ n := by
  rw [bitlen]
  split
  next h => simp [h]
  next h => rw [Nat.add_one_le_iff, Nat.log2_lt h]

theorem lt_bitlen_iff {v n : Nat} : n < bitlen v ↔ 2 ^ n ≤ v := by
  rw [← Nat.not_le, bitlen_le_iff, Nat.not_lt]

theorem lt_two_pow_bitlen (v : Nat) : v < 2 ^ bitlen v := bitlen_le_iff.1 (Nat.le_refl _)

/-- A number that is not 0 has a top bit. -/
theorem exists_bitlen_eq_succ {v : Nat} (h : v ≠ 0) : ∃ m, bitlen v = m + 1 :=
  Nat.exists_eq_add_one.2 (lt_bitlen_iff.2 (Nat.pos_of_ne_zero h))

theorem testBit_of_bitlen {v m : Nat} (h : bitlen v = m + 1) : v.testBit m = true :=
  Nat.testBit_of_two_pow_le_and_two_pow_add_one_gt (lt_bitlen_iff.1 (by omega)) (h ▸ lt_two_pow_bitlen v)

theorem bitlen_shiftLeft {g m : Nat} (hg : bitlen g = m + 1) (k : Nat) : bitlen (g <<< k) = m + 1 + k := by
  refine Nat.le_antisymm (bitlen_le_iff.2 (Nat.shiftLeft_lt (hg ▸ lt_two_pow_bitlen g)))
    (Nat.succ_add .. ▸ lt_bitlen_iff.2 (Nat.ge_two_pow_of_testBit ?_))
  simpa using testBit_of_bitlen hg

/-- Two numbers of one length have the same top bit, which the sum over GF(2) cancels. -/
theorem bitlen_xor_le {a b m : Nat} (ha : bitlen a = m + 1) (hb : bitlen b = m + 1) : bitlen (a ^^^ b) ≤ m := by
  refine bitlen_le_iff.2 (Nat.lt_pow_two_of_testBit _ fun i hi => ?_)
  rw [Nat.testBit_xor]
  obtain rfl | hlt := Nat.eq_or_lt_of_le hi
  · simp [testBit_of_bitlen ha, testBit_of_bitlen hb]
  · rw [Nat.testBit_lt_two_pow (bitlen_le_iff.1 (by omega)), Nat.testBit_lt_two_pow (bitlen_le_iff.1 (by omega)),
      Bool.xor_false]

/-! ### The product of binary polynomials (43_bch.md R180) -/

/-- The product of the `n` low bits of `q` by `g`. -/
def clmulLow (q g : Nat) : Nat → Nat
  | 0 => 0
  | n + 1 => clmulLow q g n ^^^ if q.testBit n then g <<< n else 0

theorem clmulNat_eq_clmulLow_bitlen (q g : Nat) : clmulNat q g = clmulLow q g (bitlen q) := by
  rw [clmulNat]
  induction bitlen q with
  | zero => rfl
  | succ n ih =>
    rw [List.range_succ, List.foldl_append, ih, List.foldl_cons, List.foldl_nil, clmulLow]
    split <;> simp

/-- The bits above the top bit add nothing. -/
theorem clmulNat_eq_clmulLow {q n : Nat} (g : Nat) (h : bitlen q ≤ n) : clmulNat q g = clmulLow q g n := by
  rw [clmulNat_eq_clmulLow_bitlen]
  induction n, h using Nat.le_induction with
  | base => rfl
  | succ n hn ih => rw [clmulLow, Nat.testBit_lt_two_pow (bitlen_le_iff.1 hn), ih]; simp

theorem clmulLow_xor (p q g n : Nat) : clmulLow (p ^^^ q) g n = clmulLow p g n ^^^ clmulLow q g n := by
  induction n with
  | zero => exact (Nat.xor_self 0).symm
  | succ n ih =>
    simp only [clmulLow, ih, Nat.testBit_xor]
    cases p.testBit n <;> cases q.testBit n <;> simp [Nat.xor_assoc, Nat.xor_left_comm, Nat.xor_comm]

theorem clmulNat_xor (p q g : Nat) : clmulNat (p ^^^ q) g = clmulNat p g ^^^ clmulNat q g := by
  have hp : bitlen p ≤ max (bitlen p) (bitlen q) := Nat.le_max_left ..
  have hq : bitlen q ≤ max (bitlen p) (bitlen q) := Nat.le_max_right ..
  have hpq := bitlen_le_iff.2 (Nat.xor_lt_two_pow (bitlen_le_iff.1 hp) (bitlen_le_iff.1 hq))
  rw [clmulNat_eq_clmulLow g hp, clmulNat_eq_clmulLow g hq, clmulNat_eq_clmulLow g hpq, clmulLow_xor]

@[simp] theorem clmulNat_zero (g : Nat) : clmulNat 0 g = 0 := rfl

theorem clmulLow_two_pow {k n : Nat} (g : Nat) (h : n ≤ k) : clmulLow (2 ^ k) g n = 0 := by
  induction n with
  | zero => rfl
  | succ n ih => rw [clmulLow, ih (by omega), Nat.testBit_two_pow_of_ne (by omega)]; simp

theorem clmulNat_two_pow (k g : Nat) : clmulNat (2 ^ k) g = g <<< k := by
  have hk : bitlen (2 ^ k) ≤ k + 1 := bitlen_le_iff.2 (Nat.pow_lt_pow_succ Nat.one_lt_two)
  rw [clmulNat_eq_clmulLow g hk, clmulLow, clmulLow_two_pow g (Nat.le_refl k), Nat.testBit_two_pow_self]
  simp

theorem clmulLow_lt {g m : Nat} (hg : bitlen g = m + 1) (q n : Nat) : clmulLow q g n < 2 ^ (n + m) := by
  induction n with
  | zero => exact Nat.two_pow_pos _
  | succ n ih =>
    refine Nat.xor_lt_two_pow (Nat.lt_trans ih (Nat.pow_lt_pow_right Nat.one_lt_two (by omega))) ?_
    split
    · exact bitlen_le_iff.1 (by rw [bitlen_shiftLeft hg]; omega)
    · exact Nat.two_pow_pos _

/-- The top bits of the factors meet in the top bit of the product, so a nonzero multiple of `g` is not shorter than `g`. -/
theorem two_pow_le_clmulNat {g m q : Nat} (hg : bitlen g = m + 1) (hq : q ≠ 0) : 2 ^ m ≤ clmulNat q g := by
  obtain ⟨n, hn⟩ := exists_bitlen_eq_succ hq
  have htop : (clmulNat q g).testBit (n + m) = true := by
    rw [clmulNat_eq_clmulLow_bitlen, hn, clmulLow, if_pos (testBit_of_bitlen hn), Nat.testBit_xor,
      Nat.testBit_lt_two_pow (clmulLow_lt hg q n)]
    simpa using testBit_of_bitlen hg
  exact Nat.le_trans (Nat.pow_le_pow_right Nat.two_pos (Nat.le_add_left ..)) (Nat.ge_two_pow_of_testBit htop)

/-! ### The remainder (43_bch.md R180) -/

theorem bchLoop_round (n : Nat) {d g : Nat} (h : bitlen g ≤ bitlen d) :
    bchLoop (n + 1) d g = bchLoop n (d ^^^ g <<< (bitlen d - bitlen g)) g := if_pos h

theorem bchLoop_shorter (n : Nat) {d g : Nat} (h : bitlen d < bitlen g) : bchLoop n d g = d := by
  cases n with
  | zero => rfl
  | succ n => exact if_neg (Nat.not_le.2 h)

/-- Each round adds a shifted generator, that is a multiple of it. -/
theorem exists_quotient_bchLoop (n d g : Nat) : ∃ q, d = clmulNat q g ^^^ bchLoop n d g := by
  induction n generalizing d with
  | zero => exact ⟨0, by rw [clmulNat_zero, Nat.zero_xor]; rfl⟩
  | succ n ih =>
    obtain h | h := Nat.lt_or_ge (bitlen d) (bitlen g)
    · exact ⟨0, by rw [clmulNat_zero, Nat.zero_xor, bchLoop_shorter _ h]⟩
    · obtain ⟨q, hq⟩ := ih (d ^^^ g <<< (bitlen d - bitlen g))
      refine ⟨2 ^ (bitlen d - bitlen g) ^^^ q, ?_⟩
      rw [bchLoop_round n h, clmulNat_xor, clmulNat_two_pow, Nat.xor_assoc, ← hq, Nat.xor_comm d,
        Nat.xor_xor_cancel_left]

theorem exists_quotient_bchrem (v s g : Nat) : ∃ q, v <<< s = clmulNat q g ^^^ bchrem v s g :=
  exists_quotient_bchLoop ..

section Generator

variable {g m : Nat} (hg : bitlen g = m + 1)
include hg

/-- Each round shortens the dividend, so as many rounds as it has bits are enough. -/
theorem bitlen_bchLoop_le {n d : Nat} (hd : bitlen d ≤ n) : bitlen (bchLoop n d g) ≤ m := by
  induction n generalizing d with
  | zero => exact Nat.le_trans hd (Nat.zero_le m)
  | succ n ih =>
    obtain h | h := Nat.lt_or_ge (bitlen d) (bitlen g)
    · rw [bchLoop_shorter _ h]
      omega
    · obtain ⟨k, hk⟩ : ∃ k, bitlen d = k + 1 := ⟨bitlen d - 1, by omega⟩
      have hround : bitlen (d ^^^ g <<< (bitlen d - bitlen g)) ≤ k :=
        bitlen_xor_le hk (by rw [bitlen_shiftLeft hg]; omega)
      rw [bchLoop_round n h]
      exact ih (by omega)

theorem bchrem_lt (v s : Nat) : bchrem v s g < 2 ^ m := bitlen_le_iff.1 (bitlen_bchLoop_le hg (Nat.le_succ _))

/-- The remainder of a multiple of `g` is a multiple of `g` and shorter than `g`. -/
theorem bchrem_eq_zero_of_multiple {v s q : Nat} (h : v <<< s = clmulNat q g) : bchrem v s g = 0 := by
  obtain ⟨p, hp⟩ := exists_quotient_bchrem v s g
  have hr : bchrem v s g = clmulNat (p ^^^ q) g := by
    rw [clmulNat_xor, ← h, hp, Nat.xor_xor_cancel_left]
  by_cases hpq : p ^^^ q = 0
  · rw [hr, hpq, clmulNat_zero]
  · exact absurd (two_pow_le_clmulNat hg hpq) (Nat.not_le.2 (hr ▸ bchrem_lt hg v s))

end Generator

/-! ### A payload followed by its remainder (43_bch.md R182, R183, R184) -/

/-- The codeword of the payload `p` for a generator `g` of degree `s`. -/
def bchCodeword (p s g : Nat) : Nat := (p <<< s) ||| bchrem p s g

theorem formatInfo_eq (l m : Nat) : formatInfo l m = bchCodeword ((l <<< 3) ||| m) 10 1335 ^^^ 21522 := rfl

theorem versionInfo_eq (v : Nat) : versionInfo v = bchCodeword v 12 7973 := rfl

theorem bitlen_g15 : bitlen 1335 = 10 + 1 := by decide

theorem bitlen_g18 : bitlen 7973 = 12 + 1 := by decide

section Codeword

variable {s g : Nat} (hg : bitlen g = s + 1)
include hg

theorem bchCodeword_lt {p k : Nat} (hp : p < 2 ^ k) : bchCodeword p s g < 2 ^ (k + s) :=
  Nat.or_lt_two_pow (Nat.shiftLeft_lt hp)
    (Nat.lt_of_lt_of_le (bchrem_lt hg p s) (Nat.pow_le_pow_right Nat.two_pos (Nat.le_add_left ..)))

theorem bchCodeword_shiftRight (p : Nat) : bchCodeword p s g >>> s = p := by
  rw [bchCodeword, Nat.shiftRight_or_distrib, Nat.shiftLeft_shiftRight, Nat.shiftRight_eq_zero _ _ (bchrem_lt hg p s),
    Nat.or_zero]

/-- The remainder lies below the shifted payload, so joining the two adds them over GF(2). -/
theorem bchCodeword_eq_xor (p : Nat) : bchCodeword p s g = p <<< s ^^^ bchrem p s g := by
  refine Nat.eq_of_testBit_eq fun i => ?_
  rw [bchCodeword, Nat.testBit_or, Nat.testBit_xor, Nat.testBit_shiftLeft]
  obtain h | h := Nat.lt_or_ge i s
  · simp [Nat.not_le.2 h]
  · have hpow : 2 ^ s ≤ 2 ^ i := Nat.pow_le_pow_right Nat.two_pos h
    simp [Nat.testBit_lt_two_pow (Nat.lt_of_lt_of_le (bchrem_lt hg p s) hpow)]

theorem bchrem_bchCodeword (p : Nat) : bchrem (bchCodeword p s g) 0 g = 0 := by
  obtain ⟨q, hq⟩ := exists_quotient_bchrem p s g
  refine bchrem_eq_zero_of_multiple hg (q := q) ?_
  rw [Nat.shiftLeft_zero, bchCodeword_eq_xor hg, hq, Nat.xor_xor_cancel_right]

end Codeword

theorem formatPayload_lt {l m : Nat} (hl : l ≤ 3) (hm : m ≤ 7) : (l <<< 3) ||| m < 2 ^ 5 :=
  Nat.or_lt_two_pow (by rw [Nat.shiftLeft_eq]; omega) (by omega)

theorem formatInfo_lt {l m : Nat} (hl : l ≤ 3) (hm : m ≤ 7) : formatInfo l m < 2 ^ 15 :=
  Nat.xor_lt_two_pow (bchCodeword_lt bitlen_g15 (formatPayload_lt hl hm)) (by decide)

theorem formatInfo_unmasked (l m : Nat) : formatInfo l m ^^^ 21522 = bchCodeword ((l <<< 3) ||| m) 10 1335 :=
  Nat.xor_xor_cancel_right ..

theorem versionInfo_lt {v : Nat} (hv : v ≤ 40) : versionInfo v < 2 ^ 18 :=
  bchCodeword_lt bitlen_g18 (k := 6) (by omega)

/-- The table of R185, for the 32 payloads. -/
theorem formatInfo_eq_formatTable : ∀ l ≤ 3, ∀ m ≤ 7, formatInfo l m = (formatTable.getD l []).getD m 0 := by decide

/-- The table of R185, for the 34 versions. -/
theorem versionInfo_eq_versionTable : ∀ v ≤ 40, 7 ≤ v → versionInfo v = versionTable.getD (v - 7) 0 := by decide

/-! ### The two commands (43_bch.md R182, R183) -/

theorem encodingOf_bchfmt (rd rl rm : SReg) : EncodingOf (.bchfmt rd rl rm) 0x40 .R3 [rd, rl, rm] :=
  encodingOf_R3 rfl fun w hw => ⟨.bchfmt (aField w) (bField w) (cField w), by rw [decode, hw]; rfl⟩

theorem encodingOf_bchver (rd : SReg) : EncodingOf (.bchver rd) 0x41 .R1 [rd] :=
  encodingOf_of_row (opField_encR ..) (encR1_mbz ..) (by simp [encode]) fun w hw =>
    ⟨.bchver (aField w), by rw [decode, hw]; rfl⟩

section Answers

variable {s : State} {rd rl rm : SReg}

theorem exec_bchfmt_of_illegal (h : s.num rl > 3 ∨ s.num rm > 7) :
    exec (.bchfmt rd rl rm) s = .next (s.latch .invalidArgument (encode (.bchfmt rd rl rm))) := by
  simp only [exec, execBchfmt, raise_eq]
  split
  · rfl
  next hl => exact if_pos (h.resolve_left hl)

theorem exec_bchfmt_of_legal (hl : s.num rl ≤ 3) (hm : s.num rm ≤ 7) :
    exec (.bchfmt rd rl rm) s = .next (s.setReg rd (wordOf (formatInfo (s.num rl) (s.num rm)))) := by
  simp only [exec, execBchfmt, if_neg (Nat.not_lt.2 hl), if_neg (Nat.not_lt.2 hm)]

theorem exec_bchver_of_lt (h : s.version.toNat < 7) :
    exec (.bchver rd) s = .next (s.latch .invalidArgument (encode (.bchver rd))) := if_pos h

theorem exec_bchver_of_ge (h : 7 ≤ s.version.toNat) :
    exec (.bchver rd) s = .next (s.setReg rd (wordOf (versionInfo s.version.toNat))) := if_neg (Nat.not_lt.2 h)

end Answers

/-! ### The statements -/

/-- Settles O51: the rounds add multiples of the generator and end below its length. -/
theorem bchremIsTheBinaryRemainder : Obligations.BchremIsTheBinaryRemainder := by
  intro v s g hpos
  obtain ⟨m, hg⟩ := exists_bitlen_eq_succ (Nat.ne_of_gt hpos)
  refine ⟨exists_quotient_bchrem v s g, ?_, bchrem_eq_zero_of_multiple hg (q := 0) (by simp)⟩
  rw [hg]
  exact bchrem_lt hg v s

/-- Settles O22, by the rule's cases of the level and the mask. -/
theorem bchfmtWritesTheFormatField : Obligations.BchfmtWritesTheFormatField := fun rd rl rm _ =>
  ⟨encodingOf_bchfmt rd rl rm, fun h => latches_of_exec (exec_bchfmt_of_illegal (.inl h)),
    fun h => latches_of_exec (exec_bchfmt_of_illegal (.inr h)), fun hl hm =>
      ⟨_, _, _, rfl, rfl, bchrem_lt bitlen_g15 _ 10, rfl, formatInfo_lt hl hm, formatInfo_eq_formatTable _ hl _ hm,
        exec_bchfmt_of_legal hl hm⟩⟩

/-- Settles O23, by the rule's cases of the version. -/
theorem bchverWritesTheVersionField : Obligations.BchverWritesTheVersionField := fun rd _ hmax =>
  ⟨encodingOf_bchver rd, fun h => latches_of_exec (exec_bchver_of_lt h), fun hmin =>
    ⟨_, _, rfl, bchrem_lt bitlen_g18 _ 12, rfl, versionInfo_lt hmax, versionInfo_eq_versionTable _ hmax hmin,
      exec_bchver_of_ge hmin⟩⟩

/-- Settles O52: both fields, the first one unmasked, are codewords, and a codeword is a multiple of its generator. -/
theorem bchFieldsAreCodewords : Obligations.BchFieldsAreCodewords := by
  refine ⟨fun rd rl rm s hl hm => ⟨_, exec_bchfmt_of_legal hl hm, formatInfo_lt hl hm, ?_, ?_⟩,
    fun rd s hmin hmax => ⟨_, exec_bchver_of_ge hmin, versionInfo_lt hmax, bchrem_bchCodeword bitlen_g18 _,
      bchCodeword_shiftRight bitlen_g18 _⟩,
    fun p _ _ hg => bchrem_bchCodeword hg p⟩
  · rw [formatInfo_unmasked, bchrem_bchCodeword bitlen_g15]
  · rw [formatInfo_unmasked, bchCodeword_shiftRight bitlen_g15]

end Sys2Proof.Machine
end

section
/-! PROOFS. The commands that always complete (NOP, RESET, BDCLR, BBCLR, LI) and SETVER: the word of each command, what each
answers, and the word of RESET as the one word a latched unit does not drop. -/

namespace Sys2Proof.Machine

open Sys2Proof.Reference

/-! ### The words of the commands (30_encoding.md R71, R74) -/

/-- The encoding line of a command without operands. -/
theorem encodingOf_Z {i : Instr} {op : BitVec 8} (hi : encode i = encR op 0 0 0 0)
    (hrow : ∀ w, opField w = op → ∃ j, decode w = ifMbz .Z w j) : EncodingOf i op .Z [] :=
  encodingOf_of_row (by rw [hi, opField_encR]) (by rw [hi, encZ_mbz]) rfl hrow

theorem encodingOf_nop : EncodingOf .nop 0x00 .Z [] :=
  encodingOf_Z rfl fun w hw => ⟨.nop, by rw [decode, hw]; rfl⟩

theorem encodingOf_reset : EncodingOf .reset 0x01 .Z [] :=
  encodingOf_Z rfl fun w hw => ⟨.reset, by rw [decode, hw]; rfl⟩

theorem encodingOf_bdclr : EncodingOf .bdclr 0x30 .Z [] :=
  encodingOf_Z rfl fun w hw => ⟨.bdclr, by rw [decode, hw]; rfl⟩

theorem encodingOf_bbclr : EncodingOf .bbclr 0x32 .Z [] :=
  encodingOf_Z rfl fun w hw => ⟨.bbclr, by rw [decode, hw]; rfl⟩

theorem encodingOf_setver (imm : BitVec 16) : EncodingOf (.setver imm) 0x02 .V [] :=
  encodingOf_of_row (opField_encV ..) (encV_mbz ..) rfl fun w hw => ⟨.setver (immField w), by rw [decode, hw]; rfl⟩

theorem encodingOf_li (rd : SReg) (imm : BitVec 16) : EncodingOf (.li rd imm) 0x03 .I [rd] :=
  encodingOf_of_row (opField_encI ..) (encI_mbz ..) (by simp [encode]) fun w hw =>
    ⟨.li (aField w) (immField w), by rw [decode, hw]; rfl⟩

theorem encode_reset : encode .reset = resetWord := by decide

/-! ### What the commands answer (44_system.md R201 to R204, 42_rs_codewords.md R142, R144) -/

section Answers

variable {s : State} {imm : BitVec 16}

theorem exec_setver_of_illegal (h : imm.toNat < 1 ∨ imm.toNat > 40) :
    exec (.setver imm) s = .next (s.latch .invalidArgument (encode (.setver imm))) := if_pos h

theorem exec_setver_of_legal (hmin : 1 ≤ imm.toNat) (hmax : imm.toNat ≤ 40) :
    exec (.setver imm) s = .next { s with version := BitVec.ofNat 6 imm.toNat } :=
  if_neg (not_or.2 ⟨Nat.not_lt.2 hmin, Nat.not_lt.2 hmax⟩)

/-- RESET's word executes whatever the latch is (44_system.md R202). -/
theorem issueCommand_resetWord (s : State) : issueCommand resetWord s = exec .reset s := by
  obtain ⟨-, hw, -⟩ | ⟨-, ⟨i, hi, hexec⟩ | ⟨e, he, -⟩⟩ := issueCommand_cases resetWord s
  · exact absurd rfl hw
  · rw [← encode_reset, decode_encode] at hi
    cases hi
    exact hexec
  · rw [← encode_reset, decode_encode] at he
    cases he

/-- A latched unit drops every other word (60_exceptions.md R224). -/
theorem issueCommand_of_latched {w : Word} (herr : s.err = true) (hw : w ≠ resetWord) : issueCommand w s = .next s :=
  if_pos ⟨herr, hw⟩

end Answers

/-- The two ranges of `sext_16` (30_encoding.md R73 (a)). -/
theorem toNat_sext16 (imm : BitVec 16) :
    (sext16 imm).toNat = if imm.toNat < 0x8000 then imm.toNat else imm.toNat + 0xFFFF0000 := by
  rw [sext16, BitVec.toNat_signExtend, BitVec.toNat_setWidth_of_le (by decide), BitVec.msb_eq_decide]
  by_cases h : imm.toNat < 0x8000
  · simp [h]
  · simp [h, Nat.le_of_not_lt h]

/-! ### The statements -/

/-- Settles O1: the three commands have no case that faults. -/
theorem nopAndClearsComplete : Obligations.NopAndClearsComplete :=
  ⟨encodingOf_nop, encodingOf_bdclr, encodingOf_bbclr, by decide, fun _ =>
    ⟨rfl, ⟨_, rfl, rfl, rfl, rfl, rfl⟩, ⟨_, rfl, rfl, rfl⟩⟩⟩

/-- Settles O2: RESET's word passes a set latch, as no other word does, and its answer is the reset of the unit. -/
theorem resetCommandRestoresResetState : Obligations.ResetCommandRestoresResetState :=
  ⟨encodingOf_reset, encode_reset, fun s =>
    ⟨⟨s.resetUnit, rfl, atReset_resetUnit s, exec_sameOutside (i := .reset) rfl, issueCommand_resetWord s⟩,
      fun herr _ hw => issueCommand_of_latched herr hw⟩⟩

/-- Settles O3, by the rule's range of the version; a version in the range fits the register's 6 bits. -/
theorem setverAcceptsOneToForty : Obligations.SetverAcceptsOneToForty := fun imm _ =>
  ⟨encodingOf_setver imm, immField_encV .., fun h => latches_of_exec (exec_setver_of_illegal h), fun hmin hmax =>
    ⟨_, Nat.mod_eq_of_lt (by omega), exec_setver_of_legal hmin hmax⟩⟩

/-- Settles O4: the value written is `sext_16` of the immediate. -/
theorem liLoadsSignExtendedImmediate : Obligations.LiLoadsSignExtendedImmediate := fun rd imm _ =>
  ⟨encodingOf_li rd imm, immField_encI .., sext16 imm, toNat_sext16 imm, rfl⟩

end Sys2Proof.Machine
end

section
/-! PROOFS. Exceptions: what a command can do to STATUS and EINFO, and the two steps that leave the unit as it is, that of a
latched unit offered a command and that of an idle unit. -/

namespace Sys2Proof.Machine

/-- Only a fault and RESET touch STATUS and EINFO (60_exceptions.md R222, R223): every other effect of a command is an update
of one register, one list or a range of the scratchpad. -/
theorem exec_latch_cases {i : Instr} {s t : State} (h : exec i s = .next t) : CleanOrLatched i s t ∨ i = .reset := by
  have heffect := exec_effect i s
  generalize exec i s = answer at heffect h
  cases heffect with
  | latched c => cases h; exact .inl (.inr ⟨c, rfl⟩)
  | reset hi => exact .inr hi
  | store a n bs _ _ =>
    obtain ⟨-, rfl⟩ := storeBytes_next h
    exact .inl (.inl ⟨rfl, rfl, rfl⟩)
  | nothing | scalar | poly | version | blocks | bits =>
    cases h
    exact .inl (.inl ⟨rfl, rfl, rfl⟩)

/-! ### The statements -/

/-- Settles O36, by the shape of the command's effect; the latched state is the statement's by definition. -/
theorem faultsArePrecise : Obligations.FaultsArePrecise := fun _ _ _ h =>
  or_assoc.1 (exec_latch_cases h)

/-- Settles O30: the step hands the word to a unit that is still latched once the access has been taken. -/
theorem latchedUnitDropsCommands : Obligations.LatchedUnitDropsCommands := fun s w rest hnext herr hw =>
  calc step s
    _ = issueCommand w (s.took rest) := step_of_commandNext hnext
    _ = .next (s.took rest) := issueCommand_of_latched ((s.took_err rest).trans herr) hw

/-- Settles O35: of the cases of a step, the others all take a pending event. -/
theorem idleUnitHoldsItsState : Obligations.IdleUnitHoldsItsState := by
  intro s hidle
  obtain ⟨-, hstep⟩ | ⟨e, rest, hpending, -⟩ := step_cases s
  · exact hstep
  · cases hidle.symm.trans hpending

end Sys2Proof.Machine
end

section
/-! PROOFS. The two causes of a reset, the RESET word and the reset input: from each the step makes the same reset of the
unit, whatever the latch is. -/

namespace Sys2Proof.Machine

open Sys2Proof.Reference

/-- The RESET word passes the latch and the decoder to the reset of the unit (60_exceptions.md R225). -/
theorem step_of_resetWordNext {s : State} {rest : List Event} (h : CommandNext s resetWord rest) :
    step s = .next (s.took rest).resetUnit :=
  calc step s
    _ = issueCommand resetWord (s.took rest) := step_of_commandNext h
    _ = exec .reset (s.took rest) := issueCommand_resetWord _
    _ = .next (s.took rest).resetUnit := rfl

/-- The reset input reaches the reset of the unit without a command (70_reset_and_hazards.md R245). -/
theorem step_of_hardwareResetNext {s : State} {rest : List Event} (h : s.pending = .hardwareReset :: rest) :
    step s = .next (s.took rest).resetUnit := by
  simp only [step, stepUnit, h, serveEvent]

/-- Settles O31: the two states differ only in the event that the step takes, and both steps make the same reset. -/
theorem bothResetCausesResetTheUnit : Obligations.BothResetCausesResetTheUnit := by
  rintro s rest _ _ rfl rfl
  exact ⟨(s.took rest).resetUnit, step_of_resetWordNext rfl, step_of_hardwareResetNext rfl,
    atReset_resetUnit (s.took rest), rfl, rfl⟩

end Sys2Proof.Machine
end
